-- ==== Sys2Proof/Word.lean ====
section
/-! DEFINITION. The plain value types of the machine: register words, timer ticks, exact non-negative
rationals, passwords and hook identifiers (00_scope R5, R6). -/

namespace Sys2Proof

/-- REG_WIDTH, at the spec's default (00_scope R5). DESIGN CHOICE, log 1. -/
abbrev Config.regWidth : Nat := 32

/-- TIMER_WIDTH, at the spec's default (00_scope R5). DESIGN CHOICE, log 1. -/
abbrev Config.timerWidth : Nat := 32

/-- One external register word (10_state R27). -/
abbrev Word := BitVec Config.regWidth

/-- One sample of the free-running timer (10_state R41). -/
abbrev Tick := BitVec Config.timerWidth

/-- The spec's type Q of frequencies and wait times: exact non-negative rationals (00_scope R6). -/
abbrev Q := { q : ℚ // 0 ≤ q }

/-- A positive rational: the timer's tick frequency (10_state R41). -/
abbrev PosQ := { q : ℚ // 0 < q }

/-- A lock password. The spec's type is opaque and no rule compares two passwords (00_scope R5,
92 D16): a token that is only carried, in a type of its own without operations. DESIGN CHOICE, log 19. -/
structure Password where
  token : Nat
deriving DecidableEq, Repr

/-- The identifier of a hook callback (10_state R24). -/
abbrev HookId := Nat

end Sys2Proof
end

