-- ==== Sys2Proof/Machine/Rational.lean ====
section
/-! DEFINITION. The exact arithmetic of frequencies and wait times (00_scope R6: `x / y` over Q is exact
rational division, y > 0). -/

namespace Sys2Proof.Q

/-- The rational zero. -/
def zero : Q := ⟨0, le_refl 0⟩

/-- A natural number of Hz or seconds. -/
def ofNat (n : Nat) : Q := ⟨(n : ℚ), Nat.cast_nonneg n⟩

/-- Exact product. -/
def mul (a b : Q) : Q := ⟨a.val * b.val, mul_nonneg a.property b.property⟩

/-- Exact quotient by a natural number. Callers test the divisor for 0 first (43_frequency_queries R241);
the value at 0 is used by no rule. -/
def divNat (a : Q) (k : Nat) : Q := ⟨a.val / (k : ℚ), div_nonneg a.property (Nat.cast_nonneg k)⟩

/-- A positive rational read as a rational of Q. -/
def ofPos (a : PosQ) : Q := ⟨a.val, le_of_lt a.property⟩

/-- The largest natural number not above a rational of Q. -/
def floor (a : Q) : Nat := a.val.floor.toNat

end Sys2Proof.Q
end

