-- ==== Sys2Proof/Machine/Types.lean ====
section
/-! DEFINITION. The named things of the machine: lock domains, external registers and their fields, the
configuration banks, the sequencer's states and µstep labels, port events, and the moves of the agents. -/

namespace Sys2Proof

/-- The two password domains of the write lock (00_scope R4, 10_state R40). -/
inductive Domain where
  | cpu | safety
deriving DecidableEq, Repr

/-- The sixteen external registers, in the order of their numbers 0 to 15 (10_state R27). -/
inductive Reg where
  | ccucon0 | ccucon1 | ccucon2 | ccucon5 | ccucon6 | ccucon7 | ccucon8
  | pllcon0 | pllcon1 | pllstat | osccon | fcon | trapctl
  | plleraycon0 | plleraycon1 | plleraystat
deriving DecidableEq, Repr

/-- The named fields of the external registers (10_state R29 to R39). A name that several registers use
carries the register's mark: `up0` is CCUCON0.UP, `cpudiv7` is CCUCON7.CPUDIV, `erayPdiv` is
PLLERAYCON0.PDIV. -/
inductive Field where
  | clksel | up0 | lck0 | lpdiv | sridiv | spbdiv | baud1div | baud2div | fsidiv   -- CCUCON0, R29
  | insel | up1 | lck1 | gtmdiv                                                    -- CCUCON1, R30
  | up2 | lck2                                                                     -- CCUCON2, R31
  | up5 | lck5                                                                     -- CCUCON5, R31
  | cpudiv6 | cpudiv7 | cpudiv8                                                    -- CCUCON6/7/8, R32
  | vcobyp | setfindis | clrfindis | oscdiscdis | pllpwd | resld | pdiv | ndiv     -- PLLCON0, R33
  | k2div                                                                          -- PLLCON1, R34
  | vcolock | k2rdy | vcobyst | findis                                             -- PLLSTAT, R35
  | plllv | pllhv                                                                  -- OSCCON, R36
  | ulten                                                                          -- TRAPCTL, R38
  | erayVcobyp | erayResld | erayPdiv | erayNdiv                                   -- PLLERAYCON0, R39
  | erayK2div                                                                      -- PLLERAYCON1, R39
  | erayVcolock | erayK2rdy                                                        -- PLLERAYSTAT, R39
deriving DecidableEq, Repr

/-- The access classes of fields (10_state R28). -/
inductive FieldClass where
  /-- holds the value last written -/
  | rw
  /-- status driven by the environment; writes of the block have no effect -/
  | rh
  /-- trigger: writing 1 hands a request to the environment, a read gives 0 -/
  | w1t
deriving DecidableEq, Repr

/-- Where a field lies: its register, its lowest bit and its width (00_scope R5, LAYOUT). -/
structure FieldPos where
  reg   : Reg
  lo    : Nat
  width : Nat
deriving DecidableEq, Repr

/-- The contents of the sixteen external registers (10_state R27). An rh field holds the value the
environment shows now. What the file holds at the place of a w1t field is never read (20_memory R61, log 28). -/
structure SfrFile where
  ccucon0     : Word
  ccucon1     : Word
  ccucon2     : Word
  ccucon5     : Word
  ccucon6     : Word
  ccucon7     : Word
  ccucon8     : Word
  pllcon0     : Word
  pllcon1     : Word
  pllstat     : Word
  osccon      : Word
  fcon        : Word
  trapctl     : Word
  plleraycon0 : Word
  plleraycon1 : Word
  plleraystat : Word
deriving DecidableEq, Repr, Inhabited

/-- A "(masked value, mask)" pair of the configuration (10_state R24). -/
structure Pair where
  value : Word
  mask  : Word
deriving DecidableEq, Repr

/-- One ramp step, the source's `PllDividerStep` (10_state R24). -/
structure RampStep where
  k2   : BitVec 7
  wait : Q
  hook : Option HookId
deriving DecidableEq, Repr

/-- CFG, the `ClockConfig` (10_state R24). `steps` lists STEP[0], STEP[1], …; a step past the end of the list
reads as the all-zero step (log 22). -/
structure Cfg where
  xtal     : BitVec 32
  initP    : BitVec 4
  initN    : BitVec 7
  initK2   : BitVec 7
  initWait : Q
  nsteps   : Nat
  steps    : List RampStep
  ccucon0  : Pair
  ccucon1  : Pair
  ccucon2  : Pair
  ccucon5  : Pair
  ccucon6  : Word
  ccucon7  : Word
  ccucon8  : Word
  fcon     : Pair
deriving DecidableEq, Repr

/-- ECFG, the `ErayPllConfig` (10_state R25). Each divider has the width of the register field it is
written to: "each must fit its register field" (log 27). -/
structure Ecfg where
  p    : BitVec 4
  n    : BitVec 5
  k2   : BitVec 7
  wait : Q
deriving DecidableEq, Repr

/-- The external state (10_state R20): the register file, the passwords the lock device offers, the timer
and its frequency, each as the environment shows it now (log 12). -/
structure Ext where
  sfr       : SfrFile
  pwCpu     : Password
  pwSafety  : Password
  timer     : Tick
  timerFreq : PosQ
deriving DecidableEq, Repr

/-- The named sequencer states (10_state R22). The index of the two stepping states stands in SEQI. -/
inductive SeqName where
  | backupClock | pllBypassConfigured | pllLocking | pllLocked
  | clockDistributionConfigured | steppingUp | steadyState | steppingDown
deriving DecidableEq, Repr

/-- The µstep labels of INIT (41_sequencer_init R131). -/
inductive InitStep where
  | I1 | I2 | I3 | I4 | I5 | I6 | I7 | I8 | I9 | I10 | I11 | I12 | I13 | I14 | I15 | I16 | I17 | I18 | I19
  | I20 | I21 | I22 | I23 | I24 | I25 | I26 | I27 | I28 | I29 | I30 | I31 | I32 | I33 | I34 | I35 | I36
  | I37 | I38 | I39 | I40 | I41 | I42 | I43 | I44 | I45 | I46 | I47 | I48 | I49 | I50 | I51 | I52 | I53
  | I54 | I55 | I56
deriving DecidableEq, Repr

/-- The µstep labels of SWBACKUP (42_sequencer_backup_eray R200). -/
inductive BackStep where
  | B1 | B2 | B3 | B4 | B5 | B6 | B7 | B8 | B9 | B10 | B11 | B12 | B13 | B14 | B15 | B16 | B17 | B18 | B19
  | B20
deriving DecidableEq, Repr

/-- The µstep labels of INITERAY (42_sequencer_backup_eray R225). -/
inductive ErayStep where
  | E1 | E2 | E3 | E4 | E5 | E6 | E7 | E8 | E9 | E10 | E11
deriving DecidableEq, Repr

/-- USTEP: a µstep label of one of the three sequences, or IDLE (10_state R23). -/
inductive UStep where
  | idle
  | init (l : InitStep)
  | back (l : BackStep)
  | eray (l : ErayStep)
deriving DecidableEq, Repr

/-- Where the sequencer stands inside the µstep USTEP names (the model's own, log 20). -/
inductive Phase where
  /-- the µstep has not begun -/
  | entry
  /-- a Wait has sampled its start, or a bounded poll has failed at least once -/
  | looping
  /-- the hook `h` has been called and has not returned -/
  | inHook (h : HookId)
  /-- the hook of B7 has returned (or there was none) and the wait of B7 is next -/
  | hookDone
  /-- B20 was reached from B19, not from B1 (42_sequencer_backup_eray R220) -/
  | fullPath
deriving DecidableEq, Repr

/-- What the sequencer does at its ports (41_sequencer_init R128). -/
inductive PortEvent where
  /-- SfrRead of a register and the word it gave -/
  | read (r : Reg) (w : Word)
  /-- SfrWrite of a whole word; each w1t field whose bit is 1 is a request to the environment -/
  | write (r : Reg) (w : Word)
  /-- a password fetched -/
  | password (d : Domain) (p : Password)
  | acquire (d : Domain) (p : Password)
  | release (d : Domain) (p : Password)
  /-- a read of TimerFreq() -/
  | timerFreq (f : PosQ)
  /-- a read of TIMER -/
  | timer (t : Tick)
  /-- a hook called -/
  | hook (h : HookId)
deriving DecidableEq, Repr

/-- One field write of the host to CFG (10_state R24). -/
inductive CfgWrite where
  | xtal (v : BitVec 32)
  | initP (v : BitVec 4)
  | initN (v : BitVec 7)
  | initK2 (v : BitVec 7)
  | initWait (v : Q)
  | nsteps (v : Nat)
  | step (i : Nat) (v : RampStep)
  | ccucon0 (v : Pair)
  | ccucon1 (v : Pair)
  | ccucon2 (v : Pair)
  | ccucon5 (v : Pair)
  | ccucon6 (v : Word)
  | ccucon7 (v : Word)
  | ccucon8 (v : Word)
  | fcon (v : Pair)
deriving DecidableEq, Repr

/-- One field write of the host to ECFG (10_state R25). -/
inductive EcfgWrite where
  | p (v : BitVec 4)
  | n (v : BitVec 5)
  | k2 (v : BitVec 7)
  | wait (v : Q)
deriving DecidableEq, Repr

/-- The moves of the host, all of them only while BUSY = 0 (10_state R21, 20_memory R71). -/
inductive HostMove where
  /-- a write of CMD, which starts a command -/
  | command (w : BitVec 64)
  | cfg (w : CfgWrite)
  | ecfg (w : EcfgWrite)
deriving DecidableEq, Repr

/-- One turn of one of the four agents (00_scope R2, log 11). -/
inductive Turn where
  /-- the sequencer runs one µstep -/
  | seq
  /-- the host makes a move -/
  | host (m : HostMove)
  /-- the environment changes the external state to `e` -/
  | env (e : Ext)
  /-- the environment will change the external state to `e` between the read and the write of the sequencer's next
  read-modify-write (20_memory R66, log 33) -/
  | between (e : Ext)
  /-- the running hook leaves the external state `e` and returns -/
  | hook (e : Ext)
deriving DecidableEq, Repr, Inhabited

/-- The taps of the clock distribution (43_frequency_queries R242). -/
inductive Tap where
  | sri | spb | baud1 | baud2 | cpu0 | cpu1 | cpu2 | gtm | fsi | modTap
deriving DecidableEq, Repr

/-- What divides at a tap: a register field, or the open parameter MOD_DIV (43_frequency_queries R242). -/
inductive TapDivider where
  | field (f : Field)
  | modDiv
deriving DecidableEq, Repr

/-- One row of TAPTABLE: the tap's divider, what feeds it (`none` is fSource), and whether the low-power
table applies (43_frequency_queries R242). -/
structure TapRow where
  divider  : TapDivider
  upstream : Option Tap
  lp       : Bool
deriving DecidableEq, Repr

end Sys2Proof
end

