-- ==== Sys2Proof/Config.lean ====
section
/-! DEFINITION. What an implementation fixes: the constants of 00_scope R4 under their names, the parameters of
00_scope R5 at their defaults where the spec gives one, and as constants without a body where it gives none. -/

namespace Sys2Proof.Config

/-! ## Constants the source fixes (00_scope R4) -/

/-- F_REF_MIN, Hz. -/
def fRefMin : Nat := 8000000
/-- F_REF_MAX, Hz: the number 24,000,000, whatever its label says (90 C1, 70_reset_and_hazards R322). -/
def fRefMax : Nat := 24000000
/-- F_VCO_MIN, Hz. -/
def fVcoMin : Nat := 400000000
/-- F_VCO_MAX, Hz. -/
def fVcoMax : Nat := 800000000
/-- P_MIN. -/
def pMin : Nat := 1
/-- P_MAX. -/
def pMax : Nat := 16
/-- K2_MIN. -/
def k2Min : Nat := 1
/-- K2_MAX. -/
def k2Max : Nat := 128
/-- N_MIN. -/
def nMin : Nat := 1
/-- N_MAX. -/
def nMax : Nat := 128
/-- K2_FINE_THRESHOLD, Hz. -/
def k2FineThreshold : Nat := 240000000
/-- DEV_NUM of the allowed deviation DEV_NUM / DEV_DEN. -/
def devNum : Nat := 2
/-- DEV_DEN of the allowed deviation DEV_NUM / DEV_DEN. -/
def devDen : Nat := 100

/-- The width of LPDIV in bits. -/
def lpdivWidth : Nat := 3

/-- LP_DIVISOR: the fixed divisors of the low-power modes 1 to 4. Mode 0 is "register-driven" and the codes above 4
are unrecognised: neither has a fixed divisor (43_frequency_queries R241). -/
def lpDivisor : Nat → Option Nat
  | 1 => some 30
  | 2 => some 60
  | 3 => some 120
  | 4 => some 240
  | _ => none

/-! ## Parameters the source leaves open, at the spec's default (00_scope R5) -/

/-- N_CORES, default 3. -/
def nCores : Nat := 3
/-- N_BAUD, default 2. -/
def nBaud : Nat := 2
/-- REVERSE_HOOKS, default false (42_sequencer_backup_eray R207). DESIGN CHOICE, log 5. -/
def reverseHooks : Bool := false
/-- HOOK_EFFECT: whether a hook may turn the external state `before` into `after`; unconstrained, the spec's default
(41_sequencer_init R127, 92 D23). DESIGN CHOICE, log 13. -/
def hookEffect (_h : HookId) (_before _after : Ext) : Bool := true
/-- TICK_ROUND, default floor (41_sequencer_init R124). DESIGN CHOICE, log 5. -/
def tickRound (x : Q) : Nat := x.floor

/-- LAYOUT at its default REFLAYOUT (93_implementation_defined G1). DESIGN CHOICE, log 2. -/
def layout : Field → FieldPos
  | .baud1div    => ⟨.ccucon0, 0, 4⟩
  | .baud2div    => ⟨.ccucon0, 4, 4⟩
  | .sridiv      => ⟨.ccucon0, 8, 4⟩
  | .lpdiv       => ⟨.ccucon0, 12, lpdivWidth⟩
  | .spbdiv      => ⟨.ccucon0, 16, 4⟩
  | .fsidiv      => ⟨.ccucon0, 24, 2⟩
  | .clksel      => ⟨.ccucon0, 28, 2⟩
  | .up0         => ⟨.ccucon0, 30, 1⟩
  | .lck0        => ⟨.ccucon0, 31, 1⟩
  | .gtmdiv      => ⟨.ccucon1, 12, 4⟩
  | .insel       => ⟨.ccucon1, 28, 2⟩
  | .up1         => ⟨.ccucon1, 30, 1⟩
  | .lck1        => ⟨.ccucon1, 31, 1⟩
  | .up2         => ⟨.ccucon2, 30, 1⟩
  | .lck2        => ⟨.ccucon2, 31, 1⟩
  | .up5         => ⟨.ccucon5, 30, 1⟩
  | .lck5        => ⟨.ccucon5, 31, 1⟩
  | .cpudiv6     => ⟨.ccucon6, 0, 6⟩
  | .cpudiv7     => ⟨.ccucon7, 0, 6⟩
  | .cpudiv8     => ⟨.ccucon8, 0, 6⟩
  | .vcobyp      => ⟨.pllcon0, 0, 1⟩
  | .setfindis   => ⟨.pllcon0, 4, 1⟩
  | .clrfindis   => ⟨.pllcon0, 5, 1⟩
  | .oscdiscdis  => ⟨.pllcon0, 6, 1⟩
  | .ndiv        => ⟨.pllcon0, 9, 7⟩
  | .pllpwd      => ⟨.pllcon0, 16, 1⟩
  | .resld       => ⟨.pllcon0, 18, 1⟩
  | .pdiv        => ⟨.pllcon0, 24, 4⟩
  | .k2div       => ⟨.pllcon1, 0, 7⟩
  | .vcobyst     => ⟨.pllstat, 0, 1⟩
  | .vcolock     => ⟨.pllstat, 2, 1⟩
  | .findis      => ⟨.pllstat, 3, 1⟩
  | .k2rdy       => ⟨.pllstat, 5, 1⟩
  | .plllv       => ⟨.osccon, 1, 1⟩
  | .pllhv       => ⟨.osccon, 8, 1⟩
  | .ulten       => ⟨.trapctl, 3, 1⟩
  | .erayVcobyp  => ⟨.plleraycon0, 0, 1⟩
  | .erayNdiv    => ⟨.plleraycon0, 9, 5⟩
  | .erayResld   => ⟨.plleraycon0, 18, 1⟩
  | .erayPdiv    => ⟨.plleraycon0, 24, 4⟩
  | .erayK2div   => ⟨.plleraycon1, 0, 7⟩
  | .erayVcolock => ⟨.plleraystat, 2, 1⟩
  | .erayK2rdy   => ⟨.plleraystat, 5, 1⟩

/-- FIELD_ENC, CLKSEL: BACKUP (10_state R43). DESIGN CHOICE, log 3. -/
def encBackup : Word := 0
/-- FIELD_ENC, CLKSEL: PLL (10_state R43). -/
def encPll : Word := 1
/-- FIELD_ENC, INSEL: OSC (10_state R43). -/
def encOsc : Word := 1
/-- FIELD_ENC, PLLPWD: POWERDOWN (10_state R43). -/
def encPowerdown : Word := 0
/-- FIELD_ENC, PLLPWD: NORMAL (10_state R43). -/
def encNormal : Word := 1

/-- TAPTABLE, the clock tree, at its default (43_frequency_queries R242). DESIGN CHOICE, log 4. -/
def tapTable : Tap → TapRow
  | .sri    => ⟨.field .sridiv, none, true⟩
  | .spb    => ⟨.field .spbdiv, none, true⟩
  | .baud1  => ⟨.field .baud1div, none, false⟩
  | .baud2  => ⟨.field .baud2div, none, false⟩
  | .cpu0   => ⟨.field .cpudiv6, some .sri, false⟩
  | .cpu1   => ⟨.field .cpudiv7, some .sri, false⟩
  | .cpu2   => ⟨.field .cpudiv8, some .sri, false⟩
  | .gtm    => ⟨.field .gtmdiv, none, false⟩
  | .fsi    => ⟨.field .fsidiv, some .sri, false⟩
  | .modTap => ⟨.modDiv, some .spb, false⟩

/-- How many taps a path from fSource can pass through in TAPTABLE's default: two (43_frequency_queries R242). -/
def tapDepth : Nat := 2

/-! ## Parameters with no default (00_scope R5): constants without a body (log 6) -/

/-- MAXSTEPS: the largest ramp-step count a configuration bank can hold. -/
opaque maxSteps : Nat
/-- F_XTAL in Hz: the crystal frequency of the platform, used by the queries. -/
opaque fXtal : Nat
/-- F_BACKUP in Hz. -/
opaque fBackup : Q
/-- F_PLL_OTHER in Hz: the PLL output when the PLL is bypassed or disconnected. -/
opaque fPllOther : SfrFile → Q
/-- MOD_DIV: the divider value of the module tap. -/
opaque modDiv : SfrFile → Nat
/-- OSC_STABLE_BUDGET - 1. -/
opaque oscStableBudgetLessOne : Nat
/-- ERAY_LOCK_BUDGET - 1. -/
opaque erayLockBudgetLessOne : Nat

/-- OSC_STABLE_BUDGET, a natural number >= 1. -/
def oscStableBudget : Nat := oscStableBudgetLessOne + 1
/-- ERAY_LOCK_BUDGET, a natural number >= 1. -/
def erayLockBudget : Nat := erayLockBudgetLessOne + 1

/-! ## Free values -/

/-- The draw of CFG.INIT_P after a failed SOLVE (40_solver R110, log 15). -/
opaque freeInitP : Nat → BitVec 4
/-- The draw of CFG.INIT_N after a failed SOLVE. -/
opaque freeInitN : Nat → BitVec 7
/-- The draw of CFG.INIT_K2 after a failed SOLVE. -/
opaque freeInitK2 : Nat → BitVec 7
/-- The draw of CFG.INIT_WAIT after a failed SOLVE. -/
opaque freeInitWait : Nat → Q
/-- The number the draw of CFG.NSTEPS is taken from. -/
opaque freeCount : Nat → Nat
/-- The draw of CFG.NSTEPS after a failed SOLVE: any value of the field's type, 0 to MAXSTEPS. -/
def freeNsteps (n : Nat) : Nat := freeCount n % (maxSteps + 1)

/-- Which agent moves, and how, where the script in State says nothing (00_scope R2, 20_memory R69, log 11). -/
opaque freeTurn : Nat → Turn

end Sys2Proof.Config
end

