-- ==== Sys2Proof/Syntax.lean ====
section
/-! DEFINITION. The twelve commands (30_encoding R83), one constructor for each row of spec/opcode_table.json. -/

namespace Sys2Proof

/-- A command with its operands (30_encoding R82). -/
inductive Instr where
  /-- NOP, OPC 0x00 -/
  | nop
  /-- SOLVE #fPll, OPC 0x01: the target PLL frequency in Hz -/
  | solve (fPll : BitVec 32)
  /-- INIT, OPC 0x02 -/
  | init
  /-- SWBACKUP, OPC 0x03 -/
  | swbackup
  /-- INITERAY, OPC 0x04 -/
  | initeray
  /-- QSRI, OPC 0x10 -/
  | qsri
  /-- QSPB, OPC 0x11 -/
  | qspb
  /-- QBAUD g, OPC 0x12: the generator number -/
  | qbaud (g : BitVec 8)
  /-- QCPU c, OPC 0x13: the core number -/
  | qcpu (c : BitVec 8)
  /-- QGTM, OPC 0x14 -/
  | qgtm
  /-- QFSI, OPC 0x15 -/
  | qfsi
  /-- QMOD, OPC 0x16 -/
  | qmod
deriving DecidableEq, Repr

end Sys2Proof
end

