-- ==== Sys2Proof/WellFormed.lean ====
section
/-! DEFINITION. Which terms of `Instr` are commands of the machine: the operand ranges of 30_encoding R82, R84. -/

namespace Sys2Proof

/-- The ranges of ARG: a generator 1 .. N_BAUD, a core 0 .. N_CORES - 1 (30_encoding R82). -/
def Instr.wf : Instr → Bool
  | .qbaud g => decide (1 ≤ g.toNat) && decide (g.toNat ≤ Config.nBaud)
  | .qcpu c => decide (c.toNat < Config.nCores)
  | .nop | .solve _ | .init | .swbackup | .initeray => true
  | .qsri | .qspb | .qgtm | .qfsi | .qmod => true

end Sys2Proof
end

