-- ==== Sys2Proof/Decode.lean ====
section
/-! DEFINITION. The command decoder (30_encoding R80, R83, R84), total on every 64-bit word and refusing by name,
and the encoder written from the same table. -/

namespace Sys2Proof

/-- Why a command word is illegal: the four tests of 30_encoding R84, in their order. -/
inductive Illegal where
  /-- test 1: ZERO is not 0 -/
  | zeroField
  /-- test 2: OPC is none of the twelve -/
  | reservedOpcode
  /-- test 3: a field the row lists as fixed zero is not 0 -/
  | fixedField
  /-- test 4: ARG is outside the row's range -/
  | argRange
deriving DecidableEq, Repr

/-- IMM32, bits 63:32 (30_encoding R80). -/
def immField (w : BitVec 64) : BitVec 32 := w.extractLsb' 32 32
/-- ZERO, bits 31:16. -/
def zeroField (w : BitVec 64) : BitVec 16 := w.extractLsb' 16 16
/-- ARG, bits 15:8. -/
def argField (w : BitVec 64) : BitVec 8 := w.extractLsb' 8 8
/-- OPC, bits 7:0. -/
def opcField (w : BitVec 64) : BitVec 8 := w.extractLsb' 0 8

/-- The command a known opcode names, with its operands taken from the word (30_encoding R83); test 2 of R84. -/
def commandOf (opc : BitVec 8) (imm : BitVec 32) (arg : BitVec 8) : Option Instr :=
  if opc = 0x00#8 then some .nop
  else if opc = 0x01#8 then some (.solve imm)
  else if opc = 0x02#8 then some .init
  else if opc = 0x03#8 then some .swbackup
  else if opc = 0x04#8 then some .initeray
  else if opc = 0x10#8 then some .qsri
  else if opc = 0x11#8 then some .qspb
  else if opc = 0x12#8 then some (.qbaud arg)
  else if opc = 0x13#8 then some (.qcpu arg)
  else if opc = 0x14#8 then some .qgtm
  else if opc = 0x15#8 then some .qfsi
  else if opc = 0x16#8 then some .qmod
  else none

/-- Whether the row of the command fixes IMM32 to 0 (30_encoding R83: all but SOLVE). -/
def fixesImm : Instr → Bool
  | .solve _ => false
  | .nop | .init | .swbackup | .initeray | .qsri | .qspb | .qbaud _ | .qcpu _ | .qgtm | .qfsi | .qmod => true

/-- Whether the row of the command fixes ARG to 0 (30_encoding R83: all but QBAUD and QCPU). -/
def fixesArg : Instr → Bool
  | .qbaud _ | .qcpu _ => false
  | .nop | .solve _ | .init | .swbackup | .initeray | .qsri | .qspb | .qgtm | .qfsi | .qmod => true

/-- Test 3 of 30_encoding R84: every field the row lists as fixed zero is 0. -/
def fixedFieldsZero (i : Instr) (imm : BitVec 32) (arg : BitVec 8) : Bool :=
  (!fixesImm i || decide (imm = 0)) && (!fixesArg i || decide (arg = 0))

/-- The decoder: the four tests of 30_encoding R84 in their order. -/
def decode (w : BitVec 64) : Except Illegal Instr :=
  if zeroField w ≠ 0 then .error .zeroField
  else
    match commandOf (opcField w) (immField w) (argField w) with
    | none => .error .reservedOpcode
    | some i =>
      if fixedFieldsZero i (immField w) (argField w) = false then .error .fixedField
      else if i.wf = false then .error .argRange
      else .ok i

/-- OPC of a command (30_encoding R83). -/
def opcode : Instr → BitVec 8
  | .nop => 0x00 | .solve _ => 0x01 | .init => 0x02 | .swbackup => 0x03 | .initeray => 0x04
  | .qsri => 0x10 | .qspb => 0x11 | .qbaud _ => 0x12 | .qcpu _ => 0x13 | .qgtm => 0x14
  | .qfsi => 0x15 | .qmod => 0x16

/-- IMM32 of a command (30_encoding R83). -/
def immOf : Instr → BitVec 32
  | .solve f => f
  | .nop | .init | .swbackup | .initeray | .qsri | .qspb | .qbaud _ | .qcpu _ | .qgtm | .qfsi | .qmod => 0

/-- ARG of a command (30_encoding R83). -/
def argOf : Instr → BitVec 8
  | .qbaud g => g
  | .qcpu c => c
  | .nop | .solve _ | .init | .swbackup | .initeray | .qsri | .qspb | .qgtm | .qfsi | .qmod => 0

/-- The command word of a command: IMM32, ZERO, ARG, OPC from the top (30_encoding R80). -/
def encode (i : Instr) : BitVec 64 := immOf i ++ 0#16 ++ argOf i ++ opcode i

/-- The command word whose low `nbits` bits are those of `w` and whose other bits are 0. -/
def wordOfBits (nbits w : Nat) : BitVec 64 := BitVec.ofNat 64 (w % 2 ^ nbits)

/-- The instruction the decoder reads from a table word of `nbits` bits (a command is one 64-bit word). -/
def decodeTableWord (nbits w : Nat) : Option Instr :=
  match decode (wordOfBits nbits w) with
  | .ok i => some i
  | .error _ => none

end Sys2Proof
end

