-- ==== Sys2Proof/Machine/State.lean ====
section
/-! DEFINITION. The state of the machine, the reasons a step can stop, and the state after reset. -/

namespace Sys2Proof.Machine

/-- Why a step faults. -/
inductive Fault where
  /-- `sfrWrite` was asked to write a register whose protection domain is not held (20_memory R68, 93 U9).
  No sequence does so from a state that meets `Inv`. Safe: the model stops where nothing is said. Log 17. -/
  | unlockedWrite (r : Reg)
  /-- `sfrWrite` was asked to write a status register (10_state R27: read-only). No µstep does so. Safe. Log 17. -/
  | readOnlyWrite (r : Reg)
deriving DecidableEq, Repr

/-- Why a step is refused. -/
inductive Refusal where
  /-- An instruction without a meaning; no arm of `exec` uses it. Safe. -/
  | notModelled (mnemonic : String)
  /-- `hostTurn`: a host write that would leave CFG outside its fields' types (NSTEPS above MAXSTEPS, a ramp step at
  or above MAXSTEPS), which "is not a state of the machine" (10_state R26, 93 U3). Safe. Log 22. -/
  | cfgOutOfRange
deriving DecidableEq, Repr

/-- The machine's state (10_state R20): host registers, sequencer registers, configuration banks, the external
state, and six fields of the model's own. -/
structure State where
  /-- CMD (R21) -/
  cmd        : BitVec 64
  /-- BUSY (R21) -/
  busy       : Bool
  /-- FAIL (R21) -/
  fail       : Bool
  /-- ERR (R21) -/
  err        : BitVec 3
  /-- RES (R21) -/
  res        : Q
  /-- SEQ (R22) -/
  seq        : SeqName
  /-- SEQI (R22) -/
  seqi       : Nat
  /-- USTEP (R23) -/
  ustep      : UStep
  /-- SAVED_TRAP (R23) -/
  savedTrap  : Bool
  /-- HELD[CPU] (R23) -/
  heldCpu    : Bool
  /-- HELD[SAFETY] (R23) -/
  heldSafety : Bool
  /-- PW[CPU] (R23) -/
  pwCpu      : Password
  /-- PW[SAFETY] (R23) -/
  pwSafety   : Password
  /-- OSCOK (R23) -/
  oscok      : Bool
  /-- ELOCKOK (R23) -/
  elockok    : Bool
  /-- LOOPI (R23) -/
  loopi      : Nat
  /-- POLLCNT (R23) -/
  pollcnt    : Nat
  /-- WSTART (R23) -/
  wstart     : Tick
  /-- WTARGET (R23) -/
  wtarget    : Nat
  /-- CFG (R24) -/
  cfg        : Cfg
  /-- ECFG (R25) -/
  ecfg       : Ecfg
  /-- the external registers, lock device and timer (R27, R40, R41) -/
  ext        : Ext
  /-- the model's own: the environment's change that will fall between the read and the write of the next
  read-modify-write, if there is one (20_memory R66, log 33) -/
  between    : Option Ext
  /-- the model's own: progress inside a µstep (log 20) -/
  phase      : Phase
  /-- the model's own: the port events so far, newest first (log 30) -/
  port       : List PortEvent
  /-- the model's own: the script of turns still to come, next first (log 11) -/
  agenda     : List Turn
  /-- the model's own: how many turns were taken past the end of the script (log 11) -/
  tick       : Nat
  /-- the model's own: how many draws of CFG were made (log 15) -/
  draws      : Nat
deriving DecidableEq, Repr

/-- The all-zero pair, the reset value of every pair of CFG (DESIGN CHOICE, log 8). -/
def Pair.zero : Pair := ⟨0, 0⟩

/-- CFG after reset: the spec gives no value (10_state R46); all zero, no ramp step. DESIGN CHOICE, log 8. -/
def Cfg.reset : Cfg :=
  { xtal := 0, initP := 0, initN := 0, initK2 := 0, initWait := Q.zero, nsteps := 0, steps := [],
    ccucon0 := Pair.zero, ccucon1 := Pair.zero, ccucon2 := Pair.zero, ccucon5 := Pair.zero,
    ccucon6 := 0, ccucon7 := 0, ccucon8 := 0, fcon := Pair.zero }

/-- ECFG after reset: the spec gives no value (10_state R46). DESIGN CHOICE, log 8. -/
def Ecfg.reset : Ecfg := { p := 0, n := 0, k2 := 0, wait := Q.zero }

/-- The register file after reset: the spec gives no value (10_state R46, 70_reset_and_hazards R301).
DESIGN CHOICE, log 9. -/
def SfrFile.reset : SfrFile :=
  { ccucon0 := 0, ccucon1 := 0, ccucon2 := 0, ccucon5 := 0, ccucon6 := 0, ccucon7 := 0, ccucon8 := 0,
    pllcon0 := 0, pllcon1 := 0, pllstat := 0, osccon := 0, fcon := 0, trapctl := 0,
    plleraycon0 := 0, plleraycon1 := 0, plleraystat := 0 }

/-- The external state after reset: the spec gives no value (70_reset_and_hazards R301). DESIGN CHOICE, log 9. -/
def Ext.reset : Ext :=
  { sfr := SfrFile.reset, pwCpu := ⟨0⟩, pwSafety := ⟨0⟩, timer := 0, timerFreq := ⟨1, rfl⟩ }

/-- The machine after reset (10_state R46, 70_reset_and_hazards R300): BUSY, FAIL, ERR, RES, SEQ, SEQI, USTEP and HELD
are the spec's values; every other field is the model's choice (logs 7 to 10). -/
def State.reset : State :=
  { cmd := 0, busy := false, fail := false, err := 0, res := Q.zero, seq := .backupClock, seqi := 0,
    ustep := .idle, savedTrap := false, heldCpu := false, heldSafety := false, pwCpu := ⟨0⟩, pwSafety := ⟨0⟩,
    oscok := false, elockok := false, loopi := 0, pollcnt := 0, wstart := 0, wtarget := 0,
    cfg := Cfg.reset, ecfg := Ecfg.reset, ext := Ext.reset, between := none,
    phase := .entry, port := [], agenda := [], tick := 0, draws := 0 }

/-- What one µstep or one turn can answer. -/
abbrev Result := Host.Outcome State Fault Refusal

end Sys2Proof.Machine
end

