-- ==== Sys2Proof/Machine/Flags.lean ====
section
/-! DEFINITION. The two flags of the machine, FAIL and ERR (10_state R21, 60_exceptions R270), and the host-visible
code of SEQ. -/

namespace Sys2Proof.Machine

/-- ERR code 0, OK (60_exceptions R270). -/
def errOk : BitVec 3 := 0
/-- ERR code 1, SOLVE_NO_PLAN. -/
def errSolveNoPlan : BitVec 3 := 1
/-- ERR code 2, OSC_UNSTABLE. -/
def errOscUnstable : BitVec 3 := 2
/-- ERR code 3, ERAY_LOCK_TIMEOUT. -/
def errErayLockTimeout : BitVec 3 := 3
/-- ERR code 4, ILLEGAL_CMD. -/
def errIllegalCmd : BitVec 3 := 4

/-- FAIL and ERR of a result code: FAIL = 1 exactly when ERR is not 0 (10_state R21). -/
def setResult (e : BitVec 3) (s : State) : State := { s with fail := decide (e ≠ errOk), err := e }

/-- The end of a command (60_exceptions R270, `raise` of 00_scope R7): the result is written, USTEP is IDLE, BUSY is 0. -/
def finish (e : BitVec 3) (s : State) : State :=
  { setResult e s with ustep := .idle, phase := .entry, busy := false }

/-- The host-visible code of SEQ (10_state R22). -/
def seqCode : SeqName → BitVec 3
  | .backupClock => 0 | .pllBypassConfigured => 1 | .pllLocking => 2 | .pllLocked => 3
  | .clockDistributionConfigured => 4 | .steppingUp => 5 | .steadyState => 6 | .steppingDown => 7

end Sys2Proof.Machine
end

