-- ==== Sys2Proof/Machine/Operands.lean ====
section
/-! DEFINITION. Operands: the register file's words, the bits of a field in a word, the access classes, the masked
merge, and the configuration operands the µsteps read. -/

namespace Sys2Proof.Machine

/-! ## The register file -/

/-- The word of a register in a file (10_state R27). -/
def sfrGet (f : SfrFile) : Reg → Word
  | .ccucon0 => f.ccucon0 | .ccucon1 => f.ccucon1 | .ccucon2 => f.ccucon2 | .ccucon5 => f.ccucon5
  | .ccucon6 => f.ccucon6 | .ccucon7 => f.ccucon7 | .ccucon8 => f.ccucon8
  | .pllcon0 => f.pllcon0 | .pllcon1 => f.pllcon1 | .pllstat => f.pllstat | .osccon => f.osccon
  | .fcon => f.fcon | .trapctl => f.trapctl
  | .plleraycon0 => f.plleraycon0 | .plleraycon1 => f.plleraycon1 | .plleraystat => f.plleraystat

/-- The file with the word of one register replaced. -/
def sfrSet (f : SfrFile) (r : Reg) (w : Word) : SfrFile :=
  match r with
  | .ccucon0 => { f with ccucon0 := w } | .ccucon1 => { f with ccucon1 := w }
  | .ccucon2 => { f with ccucon2 := w } | .ccucon5 => { f with ccucon5 := w }
  | .ccucon6 => { f with ccucon6 := w } | .ccucon7 => { f with ccucon7 := w }
  | .ccucon8 => { f with ccucon8 := w }
  | .pllcon0 => { f with pllcon0 := w } | .pllcon1 => { f with pllcon1 := w }
  | .pllstat => { f with pllstat := w } | .osccon => { f with osccon := w }
  | .fcon => { f with fcon := w } | .trapctl => { f with trapctl := w }
  | .plleraycon0 => { f with plleraycon0 := w } | .plleraycon1 => { f with plleraycon1 := w }
  | .plleraystat => { f with plleraystat := w }

/-- The number of a register, the `addr` of MemRead and MemWrite (10_state R27). -/
def regNumber : Reg → Nat
  | .ccucon0 => 0 | .ccucon1 => 1 | .ccucon2 => 2 | .ccucon5 => 3
  | .ccucon6 => 4 | .ccucon7 => 5 | .ccucon8 => 6
  | .pllcon0 => 7 | .pllcon1 => 8 | .pllstat => 9 | .osccon => 10
  | .fcon => 11 | .trapctl => 12
  | .plleraycon0 => 13 | .plleraycon1 => 14 | .plleraystat => 15

/-- The protection domain of a register (10_state R27); `none` for the read-only status registers. -/
def regDomain : Reg → Option Domain
  | .pllstat | .plleraystat => none
  | .fcon => some .cpu
  | .ccucon0 | .ccucon1 | .ccucon2 | .ccucon5 | .ccucon6 | .ccucon7 | .ccucon8
  | .pllcon0 | .pllcon1 | .osccon | .trapctl | .plleraycon0 | .plleraycon1 => some .safety

/-! ## Fields and access classes -/

/-- Every named field, in the order of `Field`. -/
def allFields : List Field :=
  [.clksel, .up0, .lck0, .lpdiv, .sridiv, .spbdiv, .baud1div, .baud2div, .fsidiv,
   .insel, .up1, .lck1, .gtmdiv, .up2, .lck2, .up5, .lck5, .cpudiv6, .cpudiv7, .cpudiv8,
   .vcobyp, .setfindis, .clrfindis, .oscdiscdis, .pllpwd, .resld, .pdiv, .ndiv, .k2div,
   .vcolock, .k2rdy, .vcobyst, .findis, .plllv, .pllhv, .ulten,
   .erayVcobyp, .erayResld, .erayPdiv, .erayNdiv, .erayK2div, .erayVcolock, .erayK2rdy]

/-- The access class of a field (10_state R28 to R39). -/
def fieldClass : Field → FieldClass
  | .up0 | .up1 | .up2 | .up5 | .setfindis | .clrfindis | .resld | .erayResld => .w1t
  | .lck0 | .lck1 | .lck2 | .lck5 | .vcolock | .k2rdy | .vcobyst | .findis | .plllv | .pllhv
  | .erayVcolock | .erayK2rdy => .rh
  | .clksel | .lpdiv | .sridiv | .spbdiv | .baud1div | .baud2div | .fsidiv | .insel | .gtmdiv
  | .cpudiv6 | .cpudiv7 | .cpudiv8 | .vcobyp | .oscdiscdis | .pllpwd | .pdiv | .ndiv | .k2div
  | .ulten | .erayVcobyp | .erayPdiv | .erayNdiv | .erayK2div => .rw

/-- The register of a field. -/
def fieldReg (f : Field) : Reg := (Config.layout f).reg

/-- A word whose low `width` bits are 1 and whose other bits are 0. -/
def lowMask (width : Nat) : Word := BitVec.ofNat Config.regWidth (2 ^ width - 1)

/-- The bits of a field in its register's word. -/
def fieldMask (f : Field) : Word := lowMask (Config.layout f).width <<< (Config.layout f).lo

/-- `w[lo+width-1 : lo]` for a field (20_memory R62), as an unsigned value in a word. -/
def getField (w : Word) (f : Field) : Word :=
  (w >>> (Config.layout f).lo) &&& lowMask (Config.layout f).width

/-- `setf(w, F, v)`: the bits of the field replaced by v, all other bits kept (00_scope R7). -/
def setField (w : Word) (f : Field) (v : Word) : Word :=
  (w &&& ~~~ fieldMask f) ||| ((v &&& lowMask (Config.layout f).width) <<< (Config.layout f).lo)

/-- Several fields of one word set, in the order listed (20_memory R62). -/
def setFields (w : Word) (l : List (Field × Word)) : Word :=
  l.foldl (fun acc p => setField acc p.1 p.2) w

/-- `merge(old, value, mask)` (00_scope R7, 20_memory R63). -/
def merge (old : Word) (p : Pair) : Word := (old &&& ~~~ p.mask) ||| (p.value &&& p.mask)

/-- The bits of a register that belong to fields of one access class. -/
def classMask (r : Reg) (c : FieldClass) : Word :=
  allFields.foldl
    (fun acc f => if fieldReg f = r ∧ fieldClass f = c then acc ||| fieldMask f else acc) 0

/-- The rw bits of a register: all but the bits of its rh and w1t fields (10_state R28). -/
def rwMask (r : Reg) : Word := ~~~ (classMask r .rh ||| classMask r .w1t)

/-- What a register holds after a word is written to it (20_memory R61): rw bits from the word, rh bits as they
were, w1t bits 0. -/
def writtenWord (r : Reg) (old w : Word) : Word :=
  (old &&& classMask r .rh) ||| (w &&& rwMask r)

/-! ## Configuration operands -/

/-- The all-zero ramp step, what an unlisted CFG.STEP[i] reads as (log 22). -/
def zeroStep : RampStep := { k2 := 0, wait := Q.zero, hook := none }

/-- CFG.STEP[i] (10_state R24). -/
def rampStep (c : Cfg) (i : Nat) : RampStep := c.steps.getD i zeroStep

/-- Adds an element before a bank's list, keeping the list's canonical form: no all-zero step at the end. -/
def consStep (x : RampStep) : List RampStep → List RampStep
  | [] => if x = zeroStep then [] else [x]
  | y :: l => x :: y :: l

/-- The bank's list with STEP[i] replaced. -/
def writeStep : List RampStep → Nat → RampStep → List RampStep
  | [], 0, v => consStep v []
  | [], i + 1, v => consStep zeroStep (writeStep [] i v)
  | _ :: l, 0, v => consStep v l
  | x :: l, i + 1, v => consStep x (writeStep l i v)

/-- The canonical form of a bank's list: no all-zero step at the end. -/
def stepsWf : List RampStep → Bool
  | [] => true
  | [x] => decide (x ≠ zeroStep)
  | _ :: y :: l => stepsWf (y :: l)

/-- A divider or flag as the value of a field. -/
def ofBits {n : Nat} (v : BitVec n) : Word := v.setWidth Config.regWidth

/-- A flag as the value of a one-bit field. -/
def ofFlag (b : Bool) : Word := if b then 1 else 0

end Sys2Proof.Machine
end

