-- ==== Sys2Proof/Machine/Ops.lean ====
section
/-! DEFINITION. The named operations the µsteps are made of: register-file access (20_memory section 2), locks,
polls, waits and hooks (41_sequencer_init section 1), and the moves between µsteps. The machine takes no exception
(60_exceptions R277, R279): what stands in its place, the end of a command with a result, is `finish` in Flags. -/

namespace Sys2Proof.Machine

/-! ## Sequencing -/

/-- A state transformer after an answer. -/
def andThen (o : Result) (k : State → State) : Result :=
  match o with
  | .next s => .next (k s)
  | .fault f => .fault f
  | .refused r => .refused r

/-- `USTEP <- label`, the µstep not yet begun (10_state R23). -/
def goto (l : UStep) (s : State) : State := { s with ustep := l, phase := .entry }

/-- `SEQ <- name` for a state without an index; SEQI stays (10_state R22, log 18). -/
def setSeq (n : SeqName) (s : State) : State := { s with seq := n }

/-- `SEQ <- name(i)` for a stepping state (10_state R22). -/
def setSeqAt (n : SeqName) (i : Nat) (s : State) : State := { s with seq := n, seqi := i }

/-- Progress inside a µstep (the model's own, log 20). -/
def setPhase (p : Phase) (s : State) : State := { s with phase := p }

/-- `POLLCNT <- n`. -/
def setPollcnt (n : Nat) (s : State) : State := { s with pollcnt := n }

/-- `LOOPI <- n`. -/
def setLoopi (n : Nat) (s : State) : State := { s with loopi := n }

/-- One port event added to the record. -/
def emit (e : PortEvent) (s : State) : State := { s with port := e :: s.port }

/-! ## Register-file access -/

/-- The word a register shows when read now: rh fields as the environment shows them, w1t fields 0 (20_memory R61). -/
def sfrValue (s : State) (r : Reg) : Word := sfrGet s.ext.sfr r &&& ~~~ classMask r .w1t

/-- The value a field shows when read now (20_memory R62). -/
def fieldValue (s : State) (f : Field) : Word := getField (sfrValue s (fieldReg f)) f

/-- The port event of `SfrRead(r)`; a read changes nothing else (20_memory R66). -/
def sfrRead (r : Reg) (s : State) : State := emit (.read r (sfrValue s r)) s

/-- HELD[d] (10_state R23). -/
def held (s : State) : Domain → Bool
  | .cpu => s.heldCpu
  | .safety => s.heldSafety

/-- The effect of a permitted `SfrWrite(r, w)` (20_memory R61). -/
def sfrStore (r : Reg) (w : Word) (s : State) : State :=
  emit (.write r w)
    { s with ext := { s.ext with sfr := sfrSet s.ext.sfr r (writtenWord r (sfrGet s.ext.sfr r) w) } }

/-- `SfrWrite(r, w)` under the write protection of 20_memory R68. -/
def sfrWrite (r : Reg) (w : Word) (s : State) : Result :=
  match regDomain r with
  | none => .fault (.readOnlyWrite r)
  | some d => if held s d then .next (sfrStore r w s) else .fault (.unlockedWrite r)

/-- What the environment does between the read and the write of a read-modify-write: the change it has announced, if
any (20_memory R66, 92 D33, log 33). -/
def midway (s : State) : State := { s with ext := s.between.getD s.ext, between := none }

/-- One read and one write of a register in one µstep, the word written computed from the word read. It is not atomic
against the environment: an rw bit the environment changes in between is overwritten with the value read
(20_memory R66). -/
def rmw (r : Reg) (g : Word → Word) (s : State) : Result :=
  sfrWrite r (g (sfrValue s r)) (midway (sfrRead r s))

/-- The field write `REG.F <- v` (20_memory R62). -/
def writeField (f : Field) (v : Word) (s : State) : Result :=
  rmw (fieldReg f) (fun w => setField w f v) s

/-- A write of several fields of one register in one word (20_memory R62). -/
def writeFields (r : Reg) (l : List (Field × Word)) (s : State) : Result :=
  rmw r (fun w => setFields w l) s

/-- `MergeWrite(REG, pair, forced)`: the forced fields are applied after the merge (41_sequencer_init R125). -/
def mergeWrite (r : Reg) (p : Pair) (forced : List (Field × Word)) (s : State) : Result :=
  rmw r (fun w => setFields (merge w p) forced) s

/-- A field write that ends its µstep. -/
def writeFieldTo (f : Field) (v : Word) (l : UStep) (s : State) : Result :=
  andThen (writeField f v s) (goto l)

/-- A write of several fields of one register that ends its µstep. -/
def writeFieldsTo (r : Reg) (fs : List (Field × Word)) (l : UStep) (s : State) : Result :=
  andThen (writeFields r fs s) (goto l)

/-- A masked merge that ends its µstep. -/
def mergeWriteTo (r : Reg) (p : Pair) (forced : List (Field × Word)) (l : UStep) (s : State) : Result :=
  andThen (mergeWrite r p forced s) (goto l)

/-- A whole-word write that ends its µstep: no read, no mask (41_sequencer_init R168). -/
def sfrWriteTo (r : Reg) (w : Word) (l : UStep) (s : State) : Result :=
  andThen (sfrWrite r w s) (goto l)

/-! ## Locks -/

/-- The password the lock device offers for a domain now (10_state R40). -/
def offeredPassword (s : State) : Domain → Password
  | .cpu => s.ext.pwCpu
  | .safety => s.ext.pwSafety

/-- PW[d] (10_state R23). -/
def fetchedPassword (s : State) : Domain → Password
  | .cpu => s.pwCpu
  | .safety => s.pwSafety

/-- `Acquire(d)`: the password is fetched now, the lock acquired with it, HELD[d] set (41_sequencer_init R120).
The lock device always grants it (93 U26, log 19). -/
def acquire (d : Domain) (s : State) : State :=
  let p := offeredPassword s d
  let t := emit (.acquire d p) (emit (.password d p) s)
  match d with
  | .cpu => { t with pwCpu := p, heldCpu := true }
  | .safety => { t with pwSafety := p, heldSafety := true }

/-- `Release(d)` with the password the matching acquire fetched (41_sequencer_init R121). -/
def release (d : Domain) (s : State) : State :=
  let t := emit (.release d (fetchedPassword s d)) s
  match d with
  | .cpu => { t with heldCpu := false }
  | .safety => { t with heldSafety := false }

/-! ## Polls -/

/-- `PollUntil(REG.F == v)`: one sample; `k` is what happens when it leaves (41_sequencer_init R122). -/
def pollUntil (f : Field) (v : Word) (k : State → State) (s : State) : Result :=
  let t := sfrRead (fieldReg f) s
  if fieldValue s f = v then .next (k t) else .next t

/-- How many samples of the running bounded poll have failed: none at its first pass (41_sequencer_init R123). -/
def failedPolls (s : State) : Nat := if s.phase = .looping then s.pollcnt else 0

/-- One pass of a bounded poll of one register: `ok` tests the sampled word, `record` stores the verdict, and at most
`budget` samples are taken (41_sequencer_init R123, 42_sequencer_backup_eray R233). -/
def boundedPoll (r : Reg) (ok : Word → Bool) (budget : Nat) (record : Bool → State → State) (l : UStep)
    (s : State) : Result :=
  let n := failedPolls s
  let t := sfrRead r s
  if ok (sfrValue s r) then .next (goto l (record true (setPollcnt n t)))
  else if n + 1 = budget then .next (goto l (record false (setPollcnt (n + 1) t)))
  else .next (setPhase .looping (setPollcnt (n + 1) t))

/-- Stores the verdict of the oscillator check. -/
def setOscok (b : Bool) (s : State) : State := { s with oscok := b }

/-- Stores the verdict of the secondary PLL's lock poll. -/
def setElockok (b : Bool) (s : State) : State := { s with elockok := b }

/-- Both ready flags of one sample of OSCCON (41_sequencer_init R123). -/
def oscReady (w : Word) : Bool := decide (getField w .plllv = 1) && decide (getField w .pllhv = 1)

/-- The VCO-lock flag of one sample of PLLERAYSTAT. -/
def erayLocked (w : Word) : Bool := decide (getField w .erayVcolock = 1)

/-- One pass of `OscCheck` (41_sequencer_init R123). -/
def oscCheck (budget : Nat) (l : UStep) (s : State) : Result :=
  boundedPoll .osccon oscReady budget setOscok l s

/-- One pass of the secondary PLL's bounded VCO-lock poll (42_sequencer_backup_eray R233). -/
def erayLockPoll (budget : Nat) (l : UStep) (s : State) : Result :=
  boundedPoll .plleraystat erayLocked budget setElockok l s

/-! ## Waits -/

/-- The first µstep of `Wait(t)`: the target is computed and the start sampled (41_sequencer_init R124). -/
def waitStart (t : Q) (s : State) : State :=
  let u := emit (.timer s.ext.timer) (emit (.timerFreq s.ext.timerFreq) s)
  { u with wtarget := Config.tickRound (t.mul (Q.ofPos s.ext.timerFreq)), wstart := s.ext.timer, phase := .looping }

/-- Ticks since the wait began, modulo 2^TIMER_WIDTH (41_sequencer_init R124). -/
def elapsedTicks (s : State) : Nat := (s.ext.timer - s.wstart).toNat

/-- One sample of a `Wait` (41_sequencer_init R124). -/
def waitSample (l : UStep) (s : State) : State :=
  let u := emit (.timer s.ext.timer) s
  if s.wtarget ≤ elapsedTicks s then goto l u else u

/-- One µstep of `Wait(t)`, going on to `l` when it leaves (41_sequencer_init R124). -/
def wait (t : Q) (l : UStep) (s : State) : State :=
  if s.phase = .looping then waitSample l s else waitStart t s

/-! ## Hooks -/

/-- The hook that has been called and has not returned. -/
def runningHook (s : State) : Option HookId :=
  match s.phase with
  | .inHook h => some h
  | .entry | .looping | .hookDone | .fullPath => none

/-- The sequencer's part of `Hook(h)` before the hook returns (41_sequencer_init R127): with no hook `k` happens at
once; otherwise the hook is called once, and the sequencer stands still until the hook's own turn (log 13). -/
def hookStep (h : Option HookId) (k : State → State) (s : State) : State :=
  match runningHook s with
  | some _ => s
  | none =>
    match h with
    | none => k s
    | some id => setPhase (.inHook id) (emit (.hook id) s)

/-- The return of the running hook, leaving the external state `e` (41_sequencer_init R127): µstep I49 is complete;
in B7 the wait comes next (42_sequencer_backup_eray R207). -/
def hookReturn (e : Ext) (s : State) : State :=
  let t := { s with ext := e }
  if s.ustep = .init .I49 then goto (.init .I50) t else setPhase .hookDone t

/-- `TRAPCTL.ULTEN` into SAVED_TRAP (41_sequencer_init R132). -/
def saveTrap (l : UStep) (s : State) : State :=
  goto l { sfrRead .trapctl s with savedTrap := decide (fieldValue s .ulten = 1) }

end Sys2Proof.Machine
end

