-- ==== Sys2Proof/Machine/Agents.lean ====
section
/-! DEFINITION. The agents around the sequencer (00_scope R2): whose turn it is, the moves of the host, the environment and
the hook, and the taking of a command from CMD. -/

namespace Sys2Proof.Machine

/-- Whether the agent of a turn can make that move now: the host has no move while BUSY = 1 (30_encoding R85), and a hook
returns only while it runs, leaving what HOOK_EFFECT lets it (41_sequencer_init R127; logs 11, 13, 31). -/
def enabled (s : State) : Turn → Bool
  | .seq | .env _ | .between _ => true
  | .host _ => !s.busy
  | .hook e =>
    match runningHook s with
    | some h => Config.hookEffect h s.ext e
    | none => false

/-- The turn the script, or past its end the free choice, names (log 11). -/
def namedTurn (s : State) : Turn :=
  match s.agenda with
  | t :: _ => t
  | [] => Config.freeTurn s.tick

/-- The turn taken: the named one if its agent can make it, else the sequencer's (log 11). -/
def currentTurn (s : State) : Turn := if enabled s (namedTurn s) then namedTurn s else .seq

/-- The script after this turn: a turn that could not be made stays, the free choice moves on (log 11). -/
def takeTurn (s : State) : State :=
  match s.agenda with
  | t :: rest => if enabled s t then { s with agenda := rest } else s
  | [] => { s with tick := s.tick + 1 }

/-- A field write of CFG (10_state R24). -/
def writeCfg (w : CfgWrite) (c : Cfg) : Cfg :=
  match w with
  | .xtal v => { c with xtal := v }
  | .initP v => { c with initP := v }
  | .initN v => { c with initN := v }
  | .initK2 v => { c with initK2 := v }
  | .initWait v => { c with initWait := v }
  | .nsteps v => { c with nsteps := v }
  | .step i v => { c with steps := writeStep c.steps i v }
  | .ccucon0 v => { c with ccucon0 := v }
  | .ccucon1 v => { c with ccucon1 := v }
  | .ccucon2 v => { c with ccucon2 := v }
  | .ccucon5 v => { c with ccucon5 := v }
  | .ccucon6 v => { c with ccucon6 := v }
  | .ccucon7 v => { c with ccucon7 := v }
  | .ccucon8 v => { c with ccucon8 := v }
  | .fcon v => { c with fcon := v }

/-- The bounds of CFG's two unbounded fields: NSTEPS <= MAXSTEPS, i < MAXSTEPS (10_state R24). -/
def cfgWriteOk : CfgWrite → Bool
  | .nsteps v => decide (v ≤ Config.maxSteps)
  | .step i _ => decide (i < Config.maxSteps)
  | .xtal _ | .initP _ | .initN _ | .initK2 _ | .initWait _ | .ccucon0 _ | .ccucon1 _ | .ccucon2 _ | .ccucon5 _
  | .ccucon6 _ | .ccucon7 _ | .ccucon8 _ | .fcon _ => true

/-- A field write of ECFG (10_state R25). -/
def writeEcfg (w : EcfgWrite) (e : Ecfg) : Ecfg :=
  match w with
  | .p v => { e with p := v }
  | .n v => { e with n := v }
  | .k2 v => { e with k2 := v }
  | .wait v => { e with wait := v }

/-- A move of the host (10_state R21, R24, R25): a write of CMD starts a command, BUSY is 1 from here. -/
def hostTurn (m : HostMove) (s : State) : Result :=
  match m with
  | .command w => .next { s with cmd := w, busy := true }
  | .cfg w => if cfgWriteOk w then .next { s with cfg := writeCfg w s.cfg } else .refused .cfgOutOfRange
  | .ecfg w => .next { s with ecfg := writeEcfg w s.ecfg }

/-- A move of the environment: any external state (10_state R20, 20_memory R69). -/
def envTurn (e : Ext) (s : State) : State := { s with ext := e }

/-- The announcement of a change that falls inside the next read-modify-write (20_memory R66, log 33). -/
def betweenTurn (e : Ext) (s : State) : State := { s with between := some e }

/-- The command in CMD, taken when it starts (20_memory R71). -/
def fetch (s : State) : Except Illegal Instr := decode s.cmd

end Sys2Proof.Machine
end

