-- ==== Sys2Proof/Machine/Backup.lean ====
section
/-! DEFINITION. SWBACKUP, the reverse path: the µsteps B1 to B20 of 42_sequencer_backup_eray R200. The rule of µstep B<n> is
R<200+n>. -/

namespace Sys2Proof.Machine

/-- The ramp-down step in progress: CFG.STEP[LOOPI-1]. -/
def downStep (s : State) : RampStep := rampStep s.cfg (s.loopi - 1)

/-- B1: to the end at once if CCUCON0.CLKSEL is BACKUP (42_sequencer_backup_eray R201). -/
def backupTest (s : State) : State :=
  goto (if fieldValue s .clksel = Config.encBackup then .back .B20 else .back .B2) (sfrRead .ccucon0 s)

/-- B2: LOOPI <- CFG.NSTEPS, past the ramp if there is no ramp step (42_sequencer_backup_eray R202). -/
def backupRampStart (s : State) : State :=
  goto (if s.cfg.nsteps = 0 then .back .B9 else .back .B3) (setLoopi s.cfg.nsteps s)

/-- B7: the wait, after the hook if `hooks` (42_sequencer_backup_eray R207). -/
def backupWait (hooks : Bool) (s : State) : State :=
  if hooks && (decide (s.phase = .entry) || (runningHook s).isSome) then
    hookStep (downStep s).hook (setPhase .hookDone) s
  else wait (downStep s).wait (.back .B8) s

/-- B8: the next ramp-down step, if there is one (42_sequencer_backup_eray R208). -/
def backupRampNext (s : State) : State :=
  goto (if s.loopi - 1 > 0 then .back .B3 else .back .B9) (setLoopi (s.loopi - 1) s)

/-- B19: the lock is released, and B20 is entered by the full path (42_sequencer_backup_eray R219, R220). -/
def backupRelease (s : State) : State := setPhase .fullPath (goto (.back .B20) (release .safety s))

/-- B20: the result; SEQ <- BackupClock only if reached from B19 (42_sequencer_backup_eray R220). -/
def backupResult (s : State) : State :=
  if s.phase = .fullPath then finish errOk (setSeq .backupClock s) else finish errOk s

/-- One µstep of SWBACKUP (42_sequencer_backup_eray R200). -/
def backStep (l : BackStep) (s : State) : Result :=
  match l with
  | .B1 => .next (backupTest s)
  | .B2 => .next (backupRampStart s)
  | .B3 => .next (goto (.back .B4) (setSeqAt .steppingDown (s.loopi - 1) (acquire .safety s)))
  | .B4 => pollUntil .k2rdy 1 (goto (.back .B5)) s
  | .B5 => writeFieldTo .k2div (ofBits (downStep s).k2) (.back .B6) s
  | .B6 => .next (goto (.back .B7) (release .safety s))
  | .B7 => .next (backupWait Config.reverseHooks s)
  | .B8 => .next (backupRampNext s)
  | .B9 => .next (saveTrap (.back .B10) s)
  | .B10 => .next (goto (.back .B11) (acquire .safety s))
  | .B11 => writeFieldTo .ulten 0 (.back .B12) s
  | .B12 => .next (goto (.back .B13) (release .safety s))
  | .B13 => .next (goto (.back .B14) (acquire .safety s))
  | .B14 => writeFieldsTo .ccucon0 [(.clksel, Config.encBackup), (.up0, 1)] (.back .B15) s
  | .B15 => pollUntil .lck0 0 (goto (.back .B16)) s
  | .B16 => writeFieldTo .setfindis 1 (.back .B17) s
  | .B17 => writeFieldTo .oscdiscdis 0 (.back .B18) s
  | .B18 => writeFieldTo .ulten (ofFlag s.savedTrap) (.back .B19) s
  | .B19 => .next (backupRelease s)
  | .B20 => .next (backupResult s)

/-- The µstep SWBACKUP runs next: the one USTEP names if SWBACKUP is in progress, else its first (log 16). -/
def backLabel : UStep → BackStep
  | .back l => l
  | .idle | .init _ | .eray _ => .B1

/-- SWBACKUP: one µstep of it (42_sequencer_backup_eray R200). -/
def execSwbackup (s : State) : Result := backStep (backLabel s.ustep) s

end Sys2Proof.Machine
end

