-- ==== Sys2Proof/Machine/Eray.lean ====
section
/-! DEFINITION. INITERAY, the secondary PLL: the µsteps E1 to E11 of 42_sequencer_backup_eray R225. The rule of µstep E<n> is
R<225+n>. -/

namespace Sys2Proof.Machine

/-- E9: the bypass is cleared only if the lock was seen (42_sequencer_backup_eray R234). -/
def erayBypassClear (s : State) : Result :=
  if s.elockok then writeFieldTo .erayVcobyp 0 (.eray .E10) s else .next (goto (.eray .E10) s)

/-- E11: the result (42_sequencer_backup_eray R236). -/
def erayResult (s : State) : State := finish (if s.elockok then errOk else errErayLockTimeout) s

/-- One µstep of INITERAY (42_sequencer_backup_eray R225). -/
def erayStep (l : ErayStep) (s : State) : Result :=
  match l with
  | .E1 => .next (goto (.eray .E2) (acquire .safety s))
  | .E2 => pollUntil .erayK2rdy 1 (goto (.eray .E3)) s
  | .E3 => writeFieldTo .erayK2div (ofBits s.ecfg.k2) (.eray .E4) s
  | .E4 => writeFieldTo .erayPdiv (ofBits s.ecfg.p) (.eray .E5) s
  | .E5 => writeFieldTo .erayNdiv (ofBits s.ecfg.n) (.eray .E6) s
  | .E6 => writeFieldTo .erayResld 1 (.eray .E7) s
  | .E7 => .next (wait s.ecfg.wait (.eray .E8) s)
  | .E8 => erayLockPoll Config.erayLockBudget (.eray .E9) s
  | .E9 => erayBypassClear s
  | .E10 => .next (goto (.eray .E11) (release .safety s))
  | .E11 => .next (erayResult s)

/-- The µstep INITERAY runs next: the one USTEP names if INITERAY is in progress, else its first (log 16). -/
def erayLabel : UStep → ErayStep
  | .eray l => l
  | .idle | .init _ | .back _ => .E1

/-- INITERAY: one µstep of it (42_sequencer_backup_eray R225). -/
def execIniteray (s : State) : Result := erayStep (erayLabel s.ustep) s

end Sys2Proof.Machine
end

