-- ==== Sys2Proof/Machine/Init.lean ====
section
/-! DEFINITION. INIT, the forward path of the clock sequencer: the µsteps I1 to I56 of 41_sequencer_init R131. The rule of
µstep I<n> is R<131+n>. -/

namespace Sys2Proof.Machine

/-- I49's and I50's ramp step: CFG.STEP[LOOPI]. -/
def currentStep (s : State) : RampStep := rampStep s.cfg s.loopi

/-- I56: the result (41_sequencer_init R187). -/
def initResult (s : State) : State :=
  if s.oscok then finish errOk (setSeq .steadyState s) else finish errOscUnstable s

/-- I44: LOOPI <- 0, and past the ramp if there is no ramp step (41_sequencer_init R175). -/
def initRampStart (s : State) : State :=
  goto (if s.cfg.nsteps = 0 then .init .I52 else .init .I45) (setLoopi 0 s)

/-- I51: the next ramp step, if there is one (41_sequencer_init R182). -/
def initRampNext (s : State) : State :=
  goto (if s.loopi + 1 < s.cfg.nsteps then .init .I45 else .init .I52) (setLoopi (s.loopi + 1) s)

/-- One µstep of INIT (41_sequencer_init R131). -/
def initStep (l : InitStep) (s : State) : Result :=
  match l with
  -- step 1 of the source: the unlock-detection trap
  | .I1 => .next (saveTrap (.init .I2) s)
  | .I2 => .next (goto (.init .I3) (acquire .safety s))
  | .I3 => writeFieldTo .ulten 0 (.init .I4) s
  | .I4 => .next (goto (.init .I5) (release .safety s))
  -- step 2: fall back to the backup clock
  | .I5 => .next (goto (.init .I6) (acquire .safety s))
  | .I6 => writeFieldsTo .ccucon0 [(.clksel, Config.encBackup), (.up0, 1)] (.init .I7) s
  | .I7 => pollUntil .lck0 0 (fun t => goto (.init .I8) (setSeq .backupClock t)) s
  -- step 3: disconnect the PLL
  | .I8 => writeFieldTo .setfindis 1 (.init .I9) s
  -- step 4: oscillator as PLL input, stability check
  | .I9 => writeFieldsTo .ccucon1 [(.insel, Config.encOsc), (.up1, 1)] (.init .I10) s
  | .I10 => pollUntil .lck1 0 (fun t => goto (.init .I11) (setSeq .pllBypassConfigured t)) s
  | .I11 => oscCheck Config.oscStableBudget (.init .I12) s
  | .I12 => .next (goto (.init .I13) (release .safety s))
  -- step 5: the failure branch
  | .I13 => .next (goto (if s.oscok then .init .I14 else .init .I52) s)
  -- step 6: program and lock the PLL, switch the distribution
  | .I14 => .next (goto (.init .I15) (acquire .safety s))
  | .I15 => pollUntil .k2rdy 1 (goto (.init .I16)) s
  | .I16 => writeFieldTo .k2div (ofBits s.cfg.initK2) (.init .I17) s
  | .I17 => writeFieldTo .pdiv (ofBits s.cfg.initP) (.init .I18) s
  | .I18 => writeFieldTo .ndiv (ofBits s.cfg.initN) (.init .I19) s
  | .I19 => writeFieldTo .oscdiscdis 1 (.init .I20) s
  | .I20 => writeFieldTo .pllpwd Config.encPowerdown (.init .I21) s
  | .I21 => writeFieldTo .pllpwd Config.encNormal (.init .I22) s
  | .I22 => writeFieldTo .clrfindis 1 (.init .I23) s
  | .I23 => andThen (writeField .resld 1 s) (fun t => goto (.init .I24) (setSeq .pllLocking t))
  | .I24 => .next (wait s.cfg.initWait (.init .I25) s)
  | .I25 => pollUntil .vcolock 1 (fun t => goto (.init .I26) (setSeq .pllLocked t)) s
  | .I26 => writeFieldTo .vcobyp 0 (.init .I27) s
  | .I27 => writeFieldsTo .ccucon0 [(.clksel, Config.encPll), (.up0, 1)] (.init .I28) s
  | .I28 => pollUntil .lck0 0 (goto (.init .I29)) s
  | .I29 => mergeWriteTo .ccucon0 s.cfg.ccucon0 [(.clksel, Config.encPll), (.up0, 1)] (.init .I30) s
  | .I30 => pollUntil .lck0 0 (goto (.init .I31)) s
  | .I31 => mergeWriteTo .ccucon1 s.cfg.ccucon1 [(.insel, Config.encOsc), (.up1, 1)] (.init .I32) s
  | .I32 => pollUntil .lck1 0 (goto (.init .I33)) s
  | .I33 => mergeWriteTo .ccucon2 s.cfg.ccucon2 [(.up2, 1)] (.init .I34) s
  | .I34 => pollUntil .lck2 0 (goto (.init .I35)) s
  | .I35 => mergeWriteTo .ccucon5 s.cfg.ccucon5 [(.up5, 1)] (.init .I36) s
  | .I36 => pollUntil .lck5 0 (goto (.init .I37)) s
  | .I37 => sfrWriteTo .ccucon6 s.cfg.ccucon6 (.init .I38) s
  | .I38 => sfrWriteTo .ccucon7 s.cfg.ccucon7 (.init .I39) s
  | .I39 => sfrWriteTo .ccucon8 s.cfg.ccucon8 (.init .I40) s
  | .I40 => .next (goto (.init .I41) (setSeq .clockDistributionConfigured (release .safety s)))
  -- step 7: flash wait states
  | .I41 => .next (goto (.init .I42) (acquire .cpu s))
  | .I42 => mergeWriteTo .fcon s.cfg.fcon [] (.init .I43) s
  | .I43 => .next (goto (.init .I44) (release .cpu s))
  -- step 8: ramp up
  | .I44 => .next (initRampStart s)
  | .I45 => .next (goto (.init .I46) (setSeqAt .steppingUp s.loopi (acquire .safety s)))
  | .I46 => pollUntil .k2rdy 1 (goto (.init .I47)) s
  | .I47 => writeFieldTo .k2div (ofBits (currentStep s).k2) (.init .I48) s
  | .I48 => .next (goto (.init .I49) (release .safety s))
  | .I49 => .next (hookStep (currentStep s).hook (goto (.init .I50)) s)
  | .I50 => .next (wait (currentStep s).wait (.init .I51) s)
  | .I51 => .next (initRampNext s)
  -- step 9: cleanup
  | .I52 => .next (goto (.init .I53) (acquire .safety s))
  | .I53 => writeFieldTo .oscdiscdis 0 (.init .I54) s
  | .I54 => writeFieldTo .ulten (ofFlag s.savedTrap) (.init .I55) s
  | .I55 => .next (goto (.init .I56) (release .safety s))
  | .I56 => .next (initResult s)

/-- The µstep INIT runs next: the one USTEP names if INIT is in progress, else its first (41_sequencer_init R130, log 16). -/
def initLabel : UStep → InitStep
  | .init l => l
  | .idle | .back _ | .eray _ => .I1

/-- INIT: one µstep of it (00_scope R2, 41_sequencer_init R128, R130). -/
def execInit (s : State) : Result := initStep (initLabel s.ustep) s

end Sys2Proof.Machine
end

