-- ==== Sys2Proof/Machine/Nop.lean ====
section
/-! DEFINITION. NOP, and the end of a word that is no command. -/

namespace Sys2Proof.Machine

/-- NOP: FAIL and ERR are cleared, nothing else (42_sequencer_backup_eray R238). -/
def execNop (s : State) : Result := .next (finish errOk s)

/-- An illegal command: BUSY is cleared, FAIL and ERR are written, nothing else (30_encoding R84, 60_exceptions R274). -/
def illegalCommand (s : State) : State := finish errIllegalCmd s

end Sys2Proof.Machine
end

