-- ==== Sys2Proof/Machine/Query.lean ====
section
/-! DEFINITION. The seven frequency queries (43_frequency_queries): pure functions of the register file as it reads
when the command runs (R240). -/

namespace Sys2Proof.Machine

/-- The register file as it reads now, for the open parameters that depend on the whole of it. -/
def readableFile (s : State) : SfrFile :=
  { ccucon0 := sfrValue s .ccucon0, ccucon1 := sfrValue s .ccucon1, ccucon2 := sfrValue s .ccucon2,
    ccucon5 := sfrValue s .ccucon5, ccucon6 := sfrValue s .ccucon6, ccucon7 := sfrValue s .ccucon7,
    ccucon8 := sfrValue s .ccucon8, pllcon0 := sfrValue s .pllcon0, pllcon1 := sfrValue s .pllcon1,
    pllstat := sfrValue s .pllstat, osccon := sfrValue s .osccon, fcon := sfrValue s .fcon,
    trapctl := sfrValue s .trapctl, plleraycon0 := sfrValue s .plleraycon0,
    plleraycon1 := sfrValue s .plleraycon1, plleraystat := sfrValue s .plleraystat }

/-- A field's value as a natural number. -/
def fieldNat (s : State) (f : Field) : Nat := (fieldValue s f).toNat

/-- Whether the PLL is in normal mode: neither bypassed nor disconnected (43_frequency_queries R244). -/
def pllNormal (s : State) : Bool := decide (fieldValue s .vcobyst = 0) && decide (fieldValue s .findis = 0)

/-- `fPllOut` (43_frequency_queries R244): the exact divider formula in normal mode, else the open F_PLL_OTHER. -/
def fPllOut (s : State) : Q :=
  if pllNormal s then
    (Q.ofNat (Config.fXtal * (fieldNat s .ndiv + 1))).divNat ((fieldNat s .pdiv + 1) * (fieldNat s .k2div + 1))
  else Config.fPllOther (readableFile s)

/-- `fSource`, the frequency feeding the distribution (43_frequency_queries R243). -/
def fSource (s : State) : Q :=
  if fieldValue s .clksel = Config.encBackup then Config.fBackup
  else if fieldValue s .clksel = Config.encPll then fPllOut s
  else Q.zero

/-- The division of an upstream frequency by a divider field; a zero field is "output disabled" (43_frequency_queries R241). -/
def dividedBy (u : Q) (d : Nat) : Q := if d = 0 then Q.zero else u.divNat d

/-- `tapFreq(u, d, lp, LPDIV)` (43_frequency_queries R241). -/
def tapFreq (u : Q) (d : Nat) (lp : Bool) (lpdiv : Nat) : Q :=
  if lp then
    if lpdiv = 0 then dividedBy u d
    else
      match Config.lpDivisor lpdiv with
      | some k => u.divNat k
      | none => Q.zero
  else dividedBy u d

/-- The value of a tap's divider (43_frequency_queries R242). -/
def tapDividerValue (s : State) : TapDivider → Nat
  | .field f => fieldNat s f
  | .modDiv => Config.modDiv (readableFile s)

/-- The frequency at a tap, following TAPTABLE from fSource through at most `depth` taps (43_frequency_queries R242). -/
def tapHz (depth : Nat) (s : State) (t : Tap) : Q :=
  match depth with
  | 0 => Q.zero
  | n + 1 =>
    let row := Config.tapTable t
    let u := match row.upstream with
      | none => fSource s
      | some up => tapHz n s up
    tapFreq u (tapDividerValue s row.divider) row.lp (fieldNat s .lpdiv)

/-- The sixteen registers in the order of their numbers (10_state R27). -/
def allRegs : List Reg :=
  [.ccucon0, .ccucon1, .ccucon2, .ccucon5, .ccucon6, .ccucon7, .ccucon8, .pllcon0, .pllcon1, .pllstat, .osccon, .fcon,
   .trapctl, .plleraycon0, .plleraycon1, .plleraystat]

/-- The registers that give the dividers on the way to a tap: MOD_DIV is a function of the whole register file
(00_scope R5). -/
def pathRegs (depth : Nat) (t : Tap) : List Reg :=
  match depth with
  | 0 => []
  | n + 1 =>
    let row := Config.tapTable t
    let up := match row.upstream with
      | none => []
      | some u => pathRegs n u
    match row.divider with
    | .field f => up ++ [fieldReg f]
    | .modDiv => up ++ allRegs

/-- The registers fSource is computed from: CCUCON0, and with CLKSEL = PLL the PLL's registers, all registers where
F_PLL_OTHER, a function of the whole register file (00_scope R5), is the PLL's frequency. -/
def sourceRegs (s : State) : List Reg :=
  if fieldValue s .clksel = Config.encPll then
    if pllNormal s then [.ccucon0, .pllstat, .pllcon0, .pllcon1] else allRegs
  else [.ccucon0]

/-- The registers a query needs, each once (43_frequency_queries R240), in the order of their numbers (DESIGN CHOICE,
log 21). -/
def queryRegs (s : State) (t : Tap) : List Reg :=
  allRegs.filter fun r => decide (r ∈ sourceRegs s ∨ r ∈ pathRegs Config.tapDepth t)

/-- A query (43_frequency_queries R240): the registers it needs are read once each, RES, FAIL and ERR are written,
nothing else. -/
def query (t : Tap) (s : State) : State :=
  finish errOk { (queryRegs s t).foldl (fun u r => sfrRead r u) s with res := tapHz Config.tapDepth s t }

/-- The tap of a baud-rate generator number (43_frequency_queries R247). -/
def baudTap (g : Nat) : Option Tap :=
  if g = 0 ∨ g > Config.nBaud then none
  else if g = 1 then some .baud1
  else if g = 2 then some .baud2
  else none

/-- The tap of a core number (43_frequency_queries R248). -/
def cpuTap (c : Nat) : Option Tap :=
  if c ≥ Config.nCores then none
  else if c = 0 then some .cpu0
  else if c = 1 then some .cpu1
  else if c = 2 then some .cpu2
  else none

/-- A query at a tap that may not exist: a number outside the range is ILLEGAL_CMD (30_encoding R84, log 23). -/
def queryOrIllegal (t : Option Tap) (s : State) : State :=
  match t with
  | some t => query t s
  | none => illegalCommand s

/-- QSRI (43_frequency_queries R245). -/
def execQsri (s : State) : Result := .next (query .sri s)
/-- QSPB (43_frequency_queries R246). -/
def execQspb (s : State) : Result := .next (query .spb s)
/-- QBAUD g (43_frequency_queries R247). -/
def execQbaud (g : BitVec 8) (s : State) : Result := .next (queryOrIllegal (baudTap g.toNat) s)
/-- QCPU c (43_frequency_queries R248). -/
def execQcpu (c : BitVec 8) (s : State) : Result := .next (queryOrIllegal (cpuTap c.toNat) s)
/-- QGTM (43_frequency_queries R249). -/
def execQgtm (s : State) : Result := .next (query .gtm s)
/-- QFSI (43_frequency_queries R250). -/
def execQfsi (s : State) : Result := .next (query .fsi s)
/-- QMOD (43_frequency_queries R251). -/
def execQmod (s : State) : Result := .next (query .modTap s)

end Sys2Proof.Machine
end

