-- ==== Sys2Proof/Machine/Solver.lean ====
section
/-! DEFINITION. The PLL divider solver (40_solver). Every quantity is an unbounded natural number (R113). -/

namespace Sys2Proof.Machine

/-- A candidate (P, N, K2) with its error (40_solver R106). -/
structure Candidate where
  p   : Nat
  n   : Nat
  k2  : Nat
  err : Nat
deriving DecidableEq, Repr

/-- How far a search loop has come: over because of an exact match, or the best candidate so far. -/
inductive Search where
  | exact (c : Candidate)
  | best (c : Option Candidate)
deriving DecidableEq, Repr

/-- `k2Step`: 1 if fPll > K2_FINE_THRESHOLD, else 2 (40_solver R102). -/
def k2Step (fPll : Nat) : Nat := if fPll > Config.k2FineThreshold then 1 else 2

/-- The K2 values tried, in order: k2Step, 2 * k2Step, … from K2_MIN up to K2_MAX (40_solver R102). -/
def k2Values (fPll : Nat) : List Nat :=
  ((List.range (Config.k2Max / k2Step fPll)).map fun j => (j + 1) * k2Step fPll).filter fun k2 =>
    decide (Config.k2Min ≤ k2)

/-- The P values tried: P_MAX down to P_MIN (40_solver R103). -/
def pValues : List Nat := (List.range (Config.pMax + 1 - Config.pMin)).map fun j => Config.pMax - j

/-- The N values tried: N_MIN up to N_MAX (40_solver R105). -/
def nValues : List Nat := (List.range (Config.nMax + 1 - Config.nMin)).map fun j => Config.nMin + j

/-- The reference-frequency window, both ends included, with `fRef = fOsc div P` (40_solver R101). -/
def refOk (fOsc p : Nat) : Bool := decide (Config.fRefMin ≤ fOsc / p) && decide (fOsc / p ≤ Config.fRefMax)

/-- The VCO window, both ends included, with `fVco = fPll * K2` (40_solver R101). -/
def vcoOk (fPll k2 : Nat) : Bool := decide (Config.fVcoMin ≤ fPll * k2) && decide (fPll * k2 ≤ Config.fVcoMax)

/-- The error metric `| (N div (P*K2)) * fOsc - fPll |`, truncating first (40_solver R105). -/
def candErr (fOsc fPll p k2 n : Nat) : Nat :=
  let fCand := n / (p * k2) * fOsc
  (fCand - fPll) + (fPll - fCand)

/-- A candidate with its error. -/
def candidate (fOsc fPll p k2 n : Nat) : Candidate := ⟨p, n, k2, candErr fOsc fPll p k2 n⟩

/-- The better of the best so far and a new candidate: the new one only if there is none yet or its error is
strictly smaller (40_solver R106). -/
def better (best : Option Candidate) (c : Candidate) : Candidate :=
  match best with
  | none => c
  | some b => if c.err < b.err then c else b

/-- The inner loop over N, with the exact-match exit (40_solver R105, R107). -/
def searchN (fOsc fPll p k2 : Nat) : List Nat → Option Candidate → Search
  | [], best => .best best
  | n :: ns, best =>
    let c := candidate fOsc fPll p k2 n
    if c.err = 0 then .exact (better best c) else searchN fOsc fPll p k2 ns (some (better best c))

/-- The middle loop over K2, skipping values outside the VCO window (40_solver R104). -/
def searchK2 (fOsc fPll p : Nat) : List Nat → Option Candidate → Search
  | [], best => .best best
  | k2 :: ks, best =>
    if vcoOk fPll k2 then
      match searchN fOsc fPll p k2 nValues best with
      | .exact c => .exact c
      | .best b => searchK2 fOsc fPll p ks b
    else searchK2 fOsc fPll p ks best

/-- The outer loop over P, skipping values outside the reference window (40_solver R103). -/
def searchP (fOsc fPll : Nat) : List Nat → Option Candidate → Search
  | [], best => .best best
  | p :: ps, best =>
    if refOk fOsc p then
      match searchK2 fOsc fPll p (k2Values fPll) best with
      | .exact c => .exact c
      | .best b => searchP fOsc fPll ps b
    else searchP fOsc fPll ps best

/-- `solve(fOsc, fPll)` (40_solver R111). -/
def solve (fOsc fPll : Nat) : Option Candidate :=
  match searchP fOsc fPll pValues none with
  | .exact c => some c
  | .best b => b

/-- Acceptance: the error is strictly below 2% of the target (40_solver R108). -/
def accepted (fPll : Nat) (c : Candidate) : Bool := decide (Config.devDen * c.err < Config.devNum * fPll)

/-- The dividers of a successful search in the configuration, each minus 1; no wait, no ramp (40_solver R109). -/
def storePlan (c : Candidate) (g : Cfg) : Cfg :=
  { g with
    initP := BitVec.ofNat 4 (c.p - 1)
    initN := BitVec.ofNat 7 (c.n - 1)
    initK2 := BitVec.ofNat 7 (c.k2 - 1)
    initWait := Q.zero
    nsteps := 0 }

/-- The five `sysPll` fields after a failed search, each a draw (40_solver R110, 90 C7). The values are free: nothing
constrains them but the fields' types. Log 15. -/
def drawPlan (n : Nat) (g : Cfg) : Cfg :=
  { g with
    initP := Config.freeInitP n
    initN := Config.freeInitN n
    initK2 := Config.freeInitK2 n
    initWait := Config.freeInitWait n
    nsteps := Config.freeNsteps n }

/-- The plan SOLVE accepts for a crystal and a target, if there is one (40_solver R108, R111). -/
def acceptedPlan (fOsc fPll : Nat) : Option Candidate :=
  match solve fOsc fPll with
  | some c => if accepted fPll c then some c else none
  | none => none

/-- SOLVE (40_solver R100, R109, R110): one step, no port event. -/
def execSolve (fPll : BitVec 32) (s : State) : Result :=
  match acceptedPlan s.cfg.xtal.toNat fPll.toNat with
  | some c => .next (finish errOk { s with cfg := storePlan c s.cfg })
  | none => .next (finish errSolveNoPlan { s with cfg := drawPlan s.draws s.cfg, draws := s.draws + 1 })

end Sys2Proof.Machine
end

