-- ==== Sys2Proof/Machine/Dispatch.lean ====
section
/-! DEFINITION. The meaning of every command, one arm each. For the three sequences (INIT, SWBACKUP, INITERAY) the
meaning is one µstep of the running command (00_scope R2, 41_sequencer_init R128). -/

namespace Sys2Proof.Machine

def exec (i : Instr) (s : State) : Host.Outcome State Fault Refusal :=
  match i with
  | .nop => Sys2Proof.Machine.execNop s
  | .solve fPll => Sys2Proof.Machine.execSolve fPll s
  | .init => Sys2Proof.Machine.execInit s
  | .swbackup => Sys2Proof.Machine.execSwbackup s
  | .initeray => Sys2Proof.Machine.execIniteray s
  | .qsri => Sys2Proof.Machine.execQsri s
  | .qspb => Sys2Proof.Machine.execQspb s
  | .qbaud g => Sys2Proof.Machine.execQbaud g s
  | .qcpu c => Sys2Proof.Machine.execQcpu c s
  | .qgtm => Sys2Proof.Machine.execQgtm s
  | .qfsi => Sys2Proof.Machine.execQfsi s
  | .qmod => Sys2Proof.Machine.execQmod s

end Sys2Proof.Machine
end

