-- ==== Sys2Proof/Machine/Step.lean ====
section
/-! DEFINITION. One step of the machine: one turn of one agent (00_scope R2, 41_sequencer_init R128). -/

namespace Sys2Proof.Machine

/-- The sequencer's turn: idle while BUSY = 0; at the start of a command the word in CMD is decoded and run, or refused
with ILLEGAL_CMD (30_encoding R84); afterwards the sequence USTEP stands in runs its next µstep (10_state R23). -/
def sequencerTurn (s : State) : Result :=
  if s.busy then
    match s.ustep with
    | .idle =>
      match fetch s with
      | .ok i => exec i s
      | .error _ => .next (illegalCommand s)
    | .init _ => exec .init s
    | .back _ => exec .swbackup s
    | .eray _ => exec .initeray s
  else .next s

/-- One step: the current turn is taken from the script and made. -/
def step (s : State) : Host.Outcome State Fault Refusal :=
  match currentTurn s with
  | .seq => sequencerTurn (takeTurn s)
  | .host m => hostTurn m (takeTurn s)
  | .env e => .next (envTurn e (takeTurn s))
  | .between e => .next (betweenTurn e (takeTurn s))
  | .hook e => .next (hookReturn e (takeTurn s))

/-- The state with a command word written to CMD by the host, so that the next turn is the sequencer's and starts that
command (30_encoding R80, log 14). -/
def State.withFetchWord (s : State) (nbits w : Nat) : State :=
  { s with
    cmd := wordOfBits nbits w, busy := true, ustep := .idle, phase := .entry, agenda := .seq :: s.agenda }

end Sys2Proof.Machine
end

