-- ==== Sys2Proof/Safety.lean ====
section
/-! DEFINITION. The terms claims use: the invariant every step keeps, the run of a command by the sequencer alone, and the
named premises on the environment. -/

namespace Sys2Proof.Machine

/-! ## Locks -/

/-- HELD[CPU] before each µstep: only between I41 and I43 (41_sequencer_init R190). -/
def cpuHeldAt : UStep → Bool
  | .init .I42 | .init .I43 => true
  | _ => false

/-- HELD[SAFETY] before each µstep, from the acquisitions and releases of the three µstep lists (41_sequencer_init R190, R191,
42_sequencer_backup_eray R222, R225). -/
def safetyHeldAt : UStep → Bool
  | .idle => false
  | .init l =>
    match l with
    | .I3 | .I4 => true
    | .I6 | .I7 | .I8 | .I9 | .I10 | .I11 | .I12 => true
    | .I15 | .I16 | .I17 | .I18 | .I19 | .I20 | .I21 | .I22 | .I23 | .I24 | .I25 | .I26 | .I27 | .I28 => true
    | .I29 | .I30 | .I31 | .I32 | .I33 | .I34 | .I35 | .I36 | .I37 | .I38 | .I39 | .I40 => true
    | .I46 | .I47 | .I48 => true
    | .I53 | .I54 | .I55 => true
    | .I1 | .I2 | .I5 | .I13 | .I14 | .I41 | .I42 | .I43 | .I44 | .I45 | .I49 | .I50 | .I51 | .I52 | .I56 => false
  | .back l =>
    match l with
    | .B4 | .B5 | .B6 => true
    | .B11 | .B12 => true
    | .B14 | .B15 | .B16 | .B17 | .B18 | .B19 => true
    | .B1 | .B2 | .B3 | .B7 | .B8 | .B9 | .B10 | .B13 | .B20 => false
  | .eray l =>
    match l with
    | .E2 | .E3 | .E4 | .E5 | .E6 | .E7 | .E8 | .E9 | .E10 => true
    | .E1 | .E11 => false

/-- The lock flags are what the µstep lists say they are before the µstep USTEP names (20_memory R68). -/
def LocksMatch (s : State) : Prop := s.heldCpu = cpuHeldAt s.ustep ∧ s.heldSafety = safetyHeldAt s.ustep

/-! ## The other parts of the invariant -/

/-- USTEP is IDLE when BUSY = 0, and nothing is in progress inside a µstep when USTEP is IDLE (10_state R23). -/
def IdleWhenNotBusy (s : State) : Prop :=
  (s.busy = false → s.ustep = .idle) ∧ (s.ustep = .idle → s.phase = .entry)

/-- FAIL = 1 exactly when ERR is not 0, and ERR is one of the five codes (10_state R21, 60_exceptions R270). -/
def FlagsAgree (s : State) : Prop := s.fail = decide (s.err ≠ errOk) ∧ s.err.toNat ≤ 4

/-- CFG is inside its fields' types (10_state R24, R26) and its ramp-step list is canonical (log 22). -/
def CfgInRange (s : State) : Prop :=
  s.cfg.nsteps ≤ Config.maxSteps ∧ s.cfg.steps.length ≤ Config.maxSteps ∧ stepsWf s.cfg.steps = true

/-- The ramp-up and ramp-down µsteps that use LOOPI use it inside the step list (10_state R22, R23). -/
def RampInRange (s : State) : Prop :=
  s.loopi ≤ Config.maxSteps ∧
  (s.ustep ∈ [.init .I45, .init .I46, .init .I47, .init .I48, .init .I49, .init .I50, .init .I51] →
    s.loopi < s.cfg.nsteps) ∧
  (s.ustep ∈ [.back .B3, .back .B4, .back .B5, .back .B6, .back .B7, .back .B8] →
    0 < s.loopi ∧ s.loopi ≤ s.cfg.nsteps) ∧
  (s.seq = .steppingUp ∨ s.seq = .steppingDown → s.seqi < Config.maxSteps)

/-- The invariant: true at reset, kept by every step. -/
structure Inv (s : State) : Prop where
  locks : LocksMatch s
  idle  : IdleWhenNotBusy s
  flags : FlagsAgree s
  bank  : CfgInRange s
  ramp  : RampInRange s

/-! ## What a register write is -/

/-- Bit `i` of a word belongs to field `f`. -/
abbrev InField (f : Field) (i : Nat) : Prop :=
  (Config.layout f).lo ≤ i ∧ i < (Config.layout f).lo + (Config.layout f).width

/-- Every register but one holds what it held. -/
def OtherRegsKept (r : Reg) (s t : State) : Prop := ∀ q, q ≠ r → sfrGet t.ext.sfr q = sfrGet s.ext.sfr q

/-- The effect of `SfrWrite(r, w)` as a reader sees it (20_memory R61): each rw bit reads as in `w`, every other bit of the
register reads as before, and so does every other register. -/
def WordWritten (r : Reg) (w : Word) (s t : State) : Prop :=
  OtherRegsKept r s t ∧
  ∀ i, i < Config.regWidth → (sfrValue t r).getLsbD i =
    if (rwMask r).getLsbD i then w.getLsbD i else (sfrValue s r).getLsbD i

/-- One read and one write of register `r` in one µstep: the word written has the fields of `fields` as listed and every
other bit `i` as `bits i`; rw fields read back as written, w1t fields as 0. The read is of `s`, the write falls on what
the environment has left in between (20_memory R66). -/
def Rewritten (r : Reg) (bits : Nat → Bool) (fields : List (Field × Word)) (s t : State) : Prop :=
  ∃ w, t.port = .write r w :: .read r (sfrValue s r) :: s.port ∧ WordWritten r w (midway s) t ∧
    (∀ q ∈ fields, getField w q.1 = q.2 ∧ fieldValue t q.1 = if fieldClass q.1 = .w1t then 0 else q.2) ∧
    (∀ i, i < Config.regWidth → (∀ q ∈ fields, ¬ InField q.1 i) → w.getLsbD i = bits i)

/-- The bits of a register's word as it reads before the µstep. -/
def oldBits (r : Reg) (s : State) (i : Nat) : Bool := (sfrValue s r).getLsbD i

/-- The bits of a masked merge (20_memory R63). -/
def mergedBits (r : Reg) (p : Pair) (s : State) (i : Nat) : Bool :=
  if p.mask.getLsbD i then p.value.getLsbD i else (sfrValue s r).getLsbD i

/-- A µstep that goes on to label `n` and changes nothing of the block but its place and the record of port events, and
nothing outside the register file. -/
def OnlyRegisterFile (n : UStep) (s t : State) : Prop :=
  t = { s with ext := { s.ext with sfr := t.ext.sfr }, port := t.port, ustep := n, phase := .entry }

/-! ## Reading the record of port events -/

/-- The registers written, newest first. -/
def portWrites (l : List PortEvent) : List Reg :=
  l.filterMap fun e => match e with
    | .write r _ => some r
    | _ => none

/-- The K2 dividers written to PLLCON1, newest first. -/
def k2Writes (l : List PortEvent) : List Word :=
  l.filterMap fun e => match e with
    | .write .pllcon1 w => some (getField w .k2div)
    | _ => none

/-- The hooks called, newest first. -/
def hookCalls (l : List PortEvent) : List HookId :=
  l.filterMap fun e => match e with
    | .hook h => some h
    | _ => none

/-- How often a domain was acquired. -/
def acquisitions (d : Domain) (l : List PortEvent) : Nat :=
  (l.filterMap fun e => match e with
    | .acquire d' _ => if d' = d then some d' else none
    | _ => none).length

/-- How often TIMER was read. -/
def timerReads (l : List PortEvent) : Nat :=
  (l.filterMap fun e => match e with
    | .timer t => some t
    | _ => none).length

/-! ## The solver's search order -/

/-- Every candidate inside the windows, in the order of the three loops (40_solver R103, R104, R105). -/
def searchOrder (fOsc fPll : Nat) : List Candidate :=
  (pValues.filter (refOk fOsc)).flatMap fun p =>
    ((k2Values fPll).filter (vcoOk fPll)).flatMap fun k2 =>
      nValues.map fun n => candidate fOsc fPll p k2 n

/-! ## Runs of one command by the sequencer alone -/

/-- `n` µsteps of a command, one after the other with no turn of another agent between them. -/
def runCommand : Nat → Instr → State → Result
  | 0, _, s => .next s
  | n + 1, i, s =>
    match exec i s with
    | .next t => runCommand n i t
    | .fault f => .fault f
    | .refused r => .refused r

/-! ## Named premises on the environment -/

/-- Every lock-busy flag of the clock distribution reads 0 (the awaited value of every LckWait). -/
def DistributionIdle (s : State) : Prop :=
  fieldValue s .lck0 = 0 ∧ fieldValue s .lck1 = 0 ∧ fieldValue s .lck2 = 0 ∧ fieldValue s .lck5 = 0

/-- The primary PLL shows every awaited value: K2-ready and VCO-locked. -/
def PllReady (s : State) : Prop := fieldValue s .k2rdy = 1 ∧ fieldValue s .vcolock = 1

/-- Both oscillator flags read 1 in the same sample. -/
def OscStable (s : State) : Prop := oscReady (sfrValue s .osccon) = true

/-- A wait of `t` seconds has a target of no tick at the timer's present frequency. -/
def NoWait (s : State) (t : Q) : Prop := Config.tickRound (t.mul (Q.ofPos s.ext.timerFreq)) = 0

/-- The environment has announced no change for the next read-modify-write (log 33). -/
def NoChangeBetween (s : State) : Prop := s.between = none

/-- No lock is held. -/
def NoLockHeld (s : State) : Prop := s.heldCpu = false ∧ s.heldSafety = false

end Sys2Proof.Machine
end

