-- ==== Sys2Proof/Certificates/Slice0/Obligations.lean ====
section
/-! DEFINITION. The statements for the provers. Each docstring names the rules it formalises; a choice of the model that a
statement rests on is named with its log entry. -/

open Sys2Proof Sys2Proof.Machine

/-! ## Encoding -/

/-- R80, R83: decoding the word of a well-formed command gives the command back, with every operand. -/
def Obligations.DecodeInvertsEncode : Prop :=
  ∀ i : Instr, i.wf = true → decode (encode i) = .ok i

/-- R88: every word is the word of exactly one well-formed command, which the decoder gives, or of none, and then it is
illegal. -/
def Obligations.EveryWordIsOneCommandOrIllegal : Prop :=
  ∀ w : BitVec 64,
    (∃ i, decode w = .ok i ∧ i.wf = true ∧ encode i = w ∧ ∀ j : Instr, j.wf = true → encode j = w → j = i) ∨
    (∃ e, decode w = .error e ∧ ∀ j : Instr, j.wf = true → encode j ≠ w)

/-- R84: the four tests in their order, each with the words it catches; and what an illegal command changes. -/
def Obligations.IllegalCommandsByOrderedTests : Prop :=
  (∀ w : BitVec 64,
    let known : List (BitVec 8) := [0x00, 0x01, 0x02, 0x03, 0x04, 0x10, 0x11, 0x12, 0x13, 0x14, 0x15, 0x16]
    let opc := opcField w
    let fixedBroken := (opc ≠ 0x01 ∧ immField w ≠ 0) ∨ (opc ≠ 0x12 ∧ opc ≠ 0x13 ∧ argField w ≠ 0)
    let argBad := (opc = 0x12 ∧ (argField w = 0 ∨ (argField w).toNat > Config.nBaud)) ∨
      (opc = 0x13 ∧ (argField w).toNat ≥ Config.nCores)
    (decode w = .error .zeroField ↔ zeroField w ≠ 0) ∧
    (decode w = .error .reservedOpcode ↔ zeroField w = 0 ∧ opc ∉ known) ∧
    (decode w = .error .fixedField ↔ zeroField w = 0 ∧ opc ∈ known ∧ fixedBroken) ∧
    (decode w = .error .argRange ↔ zeroField w = 0 ∧ opc ∈ known ∧ ¬ fixedBroken ∧ argBad)) ∧
  (∀ s e, currentTurn s = .seq → s.busy = true → s.ustep = .idle → decode s.cmd = .error e →
    step s = .next { takeTurn s with busy := false, fail := true, err := 4, ustep := .idle, phase := .entry })

/-- R83: words written out from the opcode map decode to the commands they stand for. -/
def Obligations.SampleWordsDecode : Prop :=
  decode 0x0000000000000000#64 = .ok .nop ∧
  decode 0x0BEBC20000000001#64 = .ok (.solve 200000000) ∧
  decode 0x0000000000000002#64 = .ok .init ∧
  decode 0x0000000000000003#64 = .ok .swbackup ∧
  decode 0x0000000000000004#64 = .ok .initeray ∧
  decode 0x0000000000000212#64 = .ok (.qbaud 2) ∧
  decode 0x0000000000000213#64 = .ok (.qcpu 2) ∧
  decode 0x0000000000000016#64 = .ok .qmod

/-! ## Steps, reset and the invariant -/

/-- R71, R84, R2: on the sequencer's turn, a command that has been written to CMD and decodes is run: the step is `exec` of it
after the turn is taken from the script (the turns are the model's, log 11). -/
def Obligations.StepRunsTheDecodedCommand : Prop :=
  ∀ s i, currentTurn s = .seq → s.busy = true → s.ustep = .idle → decode s.cmd = .ok i →
    step s = exec i (takeTurn s)

/-- R23, R71: on the sequencer's turn, a sequence in progress goes on with the command its µstep label belongs to, and CMD is
not read again. -/
def Obligations.StepContinuesTheRunningSequence : Prop :=
  ∀ s, currentTurn s = .seq → s.busy = true →
    (∀ l, s.ustep = .init l → step s = exec .init (takeTurn s)) ∧
    (∀ l, s.ustep = .back l → step s = exec .swbackup (takeTurn s)) ∧
    (∀ l, s.ustep = .eray l → step s = exec .initeray (takeTurn s))

/-- R300, R22 (the table of R46): the values reset gives, SEQ also by its host-visible code, and the eight codes; and that the
block is then idle: a sequencer's turn changes nothing but the script. -/
def Obligations.ResetValues : Prop :=
  State.reset.busy = false ∧ State.reset.ustep = .idle ∧ State.reset.fail = false ∧ State.reset.err = 0 ∧
  State.reset.res.val = 0 ∧ State.reset.seq = .backupClock ∧ State.reset.seqi = 0 ∧
  State.reset.heldCpu = false ∧ State.reset.heldSafety = false ∧ seqCode State.reset.seq = 0 ∧
  [seqCode .backupClock, seqCode .pllBypassConfigured, seqCode .pllLocking, seqCode .pllLocked,
    seqCode .clockDistributionConfigured, seqCode .steppingUp, seqCode .steadyState, seqCode .steppingDown] =
      [0, 1, 2, 3, 4, 5, 6, 7] ∧
  ∀ s, s.busy = false → currentTurn s = .seq → step s = .next (takeTurn s)

/-- R46, R300: the invariant every step keeps holds at reset (the part about the configuration banks rests on the model's reset
values, log 8). -/
def Obligations.InvariantHoldsAtReset : Prop := Machine.Inv State.reset

/-- R21, R22, R23, R24, R68, R190: every step of every agent keeps the invariant: the lock flags match the µstep, USTEP is
IDLE when BUSY = 0, FAIL agrees with ERR, CFG stays inside its types, and the ramp index stays inside the step list. -/
def Obligations.EveryStepKeepsTheInvariant : Prop :=
  ∀ s t, Machine.Inv s → step s = .next t → Machine.Inv t

/-- R68: from a state that meets the invariant no step writes a register without its lock, nor a read-only register: no step
faults. (That such a write is a fault is the model's choice, log 17.) -/
def Obligations.NoStepWritesWithoutItsLock : Prop :=
  ∀ s f, Machine.Inv s → step s ≠ .fault f

/-- R71, R85, R318: while BUSY = 1 no step of any agent changes CMD or ECFG, and while a sequence is in progress none changes
CFG. -/
def Obligations.ConfigurationStableWhileBusy : Prop :=
  ∀ s t, s.busy = true → step s = .next t →
    t.cmd = s.cmd ∧ t.ecfg = s.ecfg ∧ (s.ustep ≠ .idle → t.cfg = s.cfg)

/-- R85, R21: a host turn is made only while BUSY = 0; a write of CMD then starts the command, and while BUSY = 1 the turn
waits at the head of the script and the sequencer moves (the waiting is the model's rendering, log 31). -/
def Obligations.HostMovesOnlyWhileIdle : Prop :=
  ∀ s m rest, s.agenda = .host m :: rest →
    (s.busy = true → step s = sequencerTurn s) ∧
    (∀ w, m = .command w → s.busy = false → step s = .next { s with agenda := rest, cmd := w, busy := true })

/-- R21, R24, R25, R26: while BUSY = 0 a host turn writes exactly the one field of CFG or ECFG it names, with its value (a ramp
step leaves every other ramp step alone), and nothing else; NSTEPS and STEP[i] are accepted exactly inside their bounds and
every other field always; a write outside its bound is refused (the refusal is the model's, log 22). -/
def Obligations.HostWritesOneConfigurationField : Prop :=
  (∀ s w rest, s.agenda = .host (.cfg w) :: rest → s.busy = false →
    (cfgWriteOk w = true → step s = .next { s with agenda := rest, cfg := writeCfg w s.cfg }) ∧
    (cfgWriteOk w = false → step s = .refused .cfgOutOfRange)) ∧
  (∀ s w rest, s.agenda = .host (.ecfg w) :: rest → s.busy = false →
    step s = .next { s with agenda := rest, ecfg := writeEcfg w s.ecfg }) ∧
  (∀ n v, (cfgWriteOk (.nsteps n) = true ↔ n ≤ Config.maxSteps) ∧
    (cfgWriteOk (.step n v) = true ↔ n < Config.maxSteps)) ∧
  (∀ w, (∀ n, w ≠ .nsteps n) → (∀ i v, w ≠ .step i v) → cfgWriteOk w = true) ∧
  (∀ c : Cfg,
    (∀ v, writeCfg (.xtal v) c = { c with xtal := v }) ∧
    (∀ v, writeCfg (.initP v) c = { c with initP := v }) ∧
    (∀ v, writeCfg (.initN v) c = { c with initN := v }) ∧
    (∀ v, writeCfg (.initK2 v) c = { c with initK2 := v }) ∧
    (∀ v, writeCfg (.initWait v) c = { c with initWait := v }) ∧
    (∀ n, writeCfg (.nsteps n) c = { c with nsteps := n }) ∧
    (∀ v, writeCfg (.ccucon0 v) c = { c with ccucon0 := v }) ∧
    (∀ v, writeCfg (.ccucon1 v) c = { c with ccucon1 := v }) ∧
    (∀ v, writeCfg (.ccucon2 v) c = { c with ccucon2 := v }) ∧
    (∀ v, writeCfg (.ccucon5 v) c = { c with ccucon5 := v }) ∧
    (∀ v, writeCfg (.ccucon6 v) c = { c with ccucon6 := v }) ∧
    (∀ v, writeCfg (.ccucon7 v) c = { c with ccucon7 := v }) ∧
    (∀ v, writeCfg (.ccucon8 v) c = { c with ccucon8 := v }) ∧
    (∀ v, writeCfg (.fcon v) c = { c with fcon := v })) ∧
  (∀ c i v, writeCfg (.step i v) c = { c with steps := (writeCfg (.step i v) c).steps } ∧
    ∀ j, rampStep (writeCfg (.step i v) c) j = if j = i then v else rampStep c j) ∧
  (∀ e : Ecfg,
    (∀ v, writeEcfg (.p v) e = { e with p := v }) ∧ (∀ v, writeEcfg (.n v) e = { e with n := v }) ∧
    (∀ v, writeEcfg (.k2 v) e = { e with k2 := v }) ∧ (∀ v, writeEcfg (.wait v) e = { e with wait := v }))

/-- R2, R20, R66, R69: a turn of the environment may set any external state, or announce one for the middle of the next
read-modify-write (the announcement is the model's rendering, log 33), and changes nothing of the block. -/
def Obligations.EnvironmentTurnLeavesTheBlock : Prop :=
  (∀ s e rest, s.agenda = .env e :: rest → step s = .next { s with agenda := rest, ext := e }) ∧
  (∀ s e rest, s.agenda = .between e :: rest → step s = .next { s with agenda := rest, between := some e })

/-! ## Register-file access and locks -/

/-- R61: a read gives 0 for every w1t field; a write under the lock sets every rw bit from the word, leaves rh bits alone, and
hands the word with its requests to the port; no other state changes. -/
def Obligations.RegisterReadAndWrite : Prop :=
  (∀ s f, fieldClass f = .w1t → fieldValue s f = 0) ∧
  (∀ s r w d, regDomain r = some d → held s d = true →
    ∃ t, sfrWrite r w s = .next t ∧ WordWritten r w s t ∧
      t = { s with ext := { s.ext with sfr := t.ext.sfr }, port := .write r w :: s.port })

/-- R62, R66: a field write is one read and one write of the word, with the field's bits replaced and every other bit written as
read. It is not atomic against the environment: if that changes the external state to `e` between the two, every rw bit
outside the field ends as read, the change to it lost, while rh bits and the other registers are as in `e` (the change
is announced in the field `between`, log 33). -/
def Obligations.FieldWriteIsReadModifyWrite : Prop :=
  ∀ s f v d, fieldClass f ≠ .rh → regDomain (fieldReg f) = some d → held s d = true →
    v.toNat < 2 ^ (Config.layout f).width →
    ∃ t, writeField f v s = .next t ∧ Rewritten (fieldReg f) (oldBits (fieldReg f) s) [(f, v)] s t ∧
      (s.between = none → t = { s with ext := { s.ext with sfr := t.ext.sfr }, port := t.port }) ∧
      (∀ e, s.between = some e →
        t = { s with ext := { e with sfr := t.ext.sfr }, between := none, port := t.port } ∧
        (∀ q, q ≠ fieldReg f → sfrGet t.ext.sfr q = sfrGet e.sfr q) ∧
        (∀ i, i < Config.regWidth → ¬ InField f i →
          (sfrValue t (fieldReg f)).getLsbD i =
            if (rwMask (fieldReg f)).getLsbD i then (sfrValue s (fieldReg f)).getLsbD i
            else (sfrValue { s with ext := e } (fieldReg f)).getLsbD i))

/-- R63: the masked merge bit by bit: inside the mask the value, outside it the old word; with mask 0 the word itself. -/
def Obligations.MaskedMergeBitByBit : Prop :=
  (∀ (w : Word) (p : Pair) (i : Nat), i < Config.regWidth →
    (merge w p).getLsbD i = if p.mask.getLsbD i then p.value.getLsbD i else w.getLsbD i) ∧
  (∀ (w v : Word), merge w ⟨v, 0⟩ = w)

/-- R120, R121, R313: an acquire fetches the password offered now, acquires with it and sets HELD; a release gives back that
password and clears HELD; neither touches the other domain. -/
def Obligations.AcquireAndReleaseALock : Prop :=
  ∀ s, acquire .safety s = { s with
      pwSafety := s.ext.pwSafety, heldSafety := true,
      port := .acquire .safety s.ext.pwSafety :: .password .safety s.ext.pwSafety :: s.port } ∧
    acquire .cpu s = { s with
      pwCpu := s.ext.pwCpu, heldCpu := true,
      port := .acquire .cpu s.ext.pwCpu :: .password .cpu s.ext.pwCpu :: s.port } ∧
    release .safety s = { s with heldSafety := false, port := .release .safety s.pwSafety :: s.port } ∧
    release .cpu s = { s with heldCpu := false, port := .release .cpu s.pwCpu :: s.port }

/-! ## NOP and SOLVE -/

/-- R238: NOP. -/
def Obligations.NopOnlyClearsTheResult : Prop :=
  ∀ s, exec .nop s =
    .next { s with fail := false, err := 0, busy := false, ustep := .idle, phase := .entry }

/-- R109: a successful SOLVE stores the dividers minus 1, no wait and no ramp step, and clears FAIL and ERR. -/
def Obligations.SolveStoresAnAcceptedPlan : Prop :=
  ∀ s (fPll : BitVec 32) c, solve s.cfg.xtal.toNat fPll.toNat = some c → 100 * c.err < 2 * fPll.toNat →
    ∃ p n k2, p.toNat + 1 = c.p ∧ n.toNat + 1 = c.n ∧ k2.toNat + 1 = c.k2 ∧
      exec (.solve fPll) s = .next { s with
        cfg := { s.cfg with initP := p, initN := n, initK2 := k2, initWait := Q.zero, nsteps := 0 },
        fail := false, err := 0, busy := false, ustep := .idle, phase := .entry }

/-- R110: a failed SOLVE sets FAIL and SOLVE_NO_PLAN and leaves the five `sysPll` fields at some values of their types;
everything else is unchanged (the draw counter is the model's own, log 15). -/
def Obligations.SolveFailureLeavesUnspecifiedPlan : Prop :=
  ∀ s (fPll : BitVec 32),
    (∀ c, solve s.cfg.xtal.toNat fPll.toNat = some c → ¬ 100 * c.err < 2 * fPll.toNat) →
    ∃ p n k2 w m, m ≤ Config.maxSteps ∧
      exec (.solve fPll) s = .next { s with
        cfg := { s.cfg with initP := p, initN := n, initK2 := k2, initWait := w, nsteps := m },
        draws := s.draws + 1, fail := true, err := 1, busy := false, ustep := .idle, phase := .entry }

/-- R105, R106, R107, R111: the nested search returns the first candidate of least error in the order of the loops, and none
only if no candidate is inside the windows. -/
def Obligations.SolverReturnsFirstLeastError : Prop :=
  ∀ fOsc fPll,
    (solve fOsc fPll = none → searchOrder fOsc fPll = []) ∧
    (∀ c, solve fOsc fPll = some c →
      ∃ before after, searchOrder fOsc fPll = before ++ c :: after ∧
        (∀ d ∈ before, c.err < d.err) ∧ (∀ d ∈ after, c.err ≤ d.err))

/-- R101, R102, R112: what the solver returns is in range: the dividers, the two windows, the error as defined, and K2 even
unless the target is above 240 MHz. -/
def Obligations.SolverResultInRange : Prop :=
  ∀ fOsc fPll c, solve fOsc fPll = some c →
    (1 ≤ c.p ∧ c.p ≤ 16) ∧ (1 ≤ c.k2 ∧ c.k2 ≤ 128) ∧ (1 ≤ c.n ∧ c.n ≤ 128) ∧
    (8000000 ≤ fOsc / c.p ∧ fOsc / c.p ≤ 24000000) ∧
    (400000000 ≤ fPll * c.k2 ∧ fPll * c.k2 ≤ 800000000) ∧
    (c.err : ℤ) = |((c.n / (c.p * c.k2) * fOsc : ℕ) : ℤ) - (fPll : ℤ)| ∧
    (fPll ≤ 240000000 → c.k2 % 2 = 0)

/-- R112, R107: if some candidate inside the windows is exact, the solver returns an exact one. -/
def Obligations.SolverFindsAnExactMatch : Prop :=
  ∀ fOsc fPll p k2 n, 1 ≤ p → p ≤ 16 → 1 ≤ n → n ≤ 128 → k2 ∈ k2Values fPll →
    8000000 ≤ fOsc / p → fOsc / p ≤ 24000000 → 400000000 ≤ fPll * k2 → fPll * k2 ≤ 800000000 →
    n / (p * k2) * fOsc = fPll →
    ∃ c, solve fOsc fPll = some c ∧ c.err = 0

/-- R113: SOLVE can succeed only for a target within 2% of a multiple of the crystal frequency. -/
def Obligations.SolveSucceedsOnlyNearAMultiple : Prop :=
  ∀ fOsc fPll c, solve fOsc fPll = some c → accepted fPll c = true →
    ∃ q : ℕ, 100 * |((q * fOsc : ℕ) : ℤ) - (fPll : ℤ)| < 2 * (fPll : ℤ)

/-- R114: the corner cases. -/
def Obligations.SolverCornerCases : Prop :=
  (∀ fOsc fPll, fPll = 0 ∨ fOsc = 0 ∨ fOsc < 8000000 ∨ fOsc > 16 * 24000000 + 15 ∨ fPll < 3125000 ∨ fPll > 800000000 →
    solve fOsc fPll = none) ∧
  (∀ fPll, 400000000 ≤ fPll → fPll ≤ 800000000 → (k2Values fPll).head? = some 1 ∧ vcoOk fPll 1 = true) ∧
  (∀ fPll c, 100 * c.err = 2 * fPll → accepted fPll c = false) ∧
  solve 20000000 200000000 = some ⟨2, 40, 2, 0⟩

/-! ## INIT, µstep by µstep -/

/-- R130, R132: an INIT that starts samples the trap enable and goes on to I2; nothing else changes. -/
def Obligations.InitStartsBySamplingTheTrap : Prop :=
  ∀ s, s.ustep = .idle ∨ s.ustep = .init .I1 →
    exec .init s = .next { s with
      savedTrap := decide (fieldValue s .ulten = 1), port := .read .trapctl (sfrValue s .trapctl) :: s.port,
      ustep := .init .I2, phase := .entry }

/-- R134, R139, R147 to R153, R157, R178, R184, R185: the µsteps of INIT that write one field, each with the value written, the
next µstep, and the frame. -/
def Obligations.InitFieldWriteSteps : Prop :=
  ∀ s l f v n,
    (l, f, v, n) ∈ ([
      (.I3, .ulten, 0, .I4), (.I8, .setfindis, 1, .I9),
      (.I16, .k2div, s.cfg.initK2.setWidth Config.regWidth, .I17), (.I17, .pdiv, s.cfg.initP.setWidth Config.regWidth, .I18),
      (.I18, .ndiv, s.cfg.initN.setWidth Config.regWidth, .I19), (.I19, .oscdiscdis, 1, .I20),
      (.I20, .pllpwd, Config.encPowerdown, .I21), (.I21, .pllpwd, Config.encNormal, .I22),
      (.I22, .clrfindis, 1, .I23), (.I26, .vcobyp, 0, .I27),
      (.I47, .k2div, (rampStep s.cfg s.loopi).k2.setWidth Config.regWidth, .I48),
      (.I53, .oscdiscdis, 0, .I54), (.I54, .ulten, if s.savedTrap then 1 else 0, .I55)] :
      List (InitStep × Field × Word × InitStep)) →
    s.ustep = .init l → s.heldSafety = true →
    ∃ t, exec .init s = .next t ∧ Rewritten (fieldReg f) (oldBits (fieldReg f) s) [(f, v)] s t ∧
      OnlyRegisterFile (.init n) (midway s) t

/-- R137, R140, R158: the three writes of INIT that carry a selection and an update request in one word. -/
def Obligations.InitSelectSteps : Prop :=
  ∀ s l r fs n,
    (l, r, fs, n) ∈ ([
      (.I6, .ccucon0, [(.clksel, Config.encBackup), (.up0, 1)], .I7),
      (.I9, .ccucon1, [(.insel, Config.encOsc), (.up1, 1)], .I10),
      (.I27, .ccucon0, [(.clksel, Config.encPll), (.up0, 1)], .I28)] :
      List (InitStep × Reg × List (Field × Word) × InitStep)) →
    s.ustep = .init l → s.heldSafety = true →
    ∃ t, exec .init s = .next t ∧ Rewritten r (oldBits r s) fs s t ∧ OnlyRegisterFile (.init n) (midway s) t

/-- R125, R160, R162, R164, R166, R173: the five masked merges of INIT, the forced fields over the caller's mask and value. -/
def Obligations.InitMergeSteps : Prop :=
  ∀ s l d r p fs n,
    (l, d, r, p, fs, n) ∈ ([
      (.I29, .safety, .ccucon0, s.cfg.ccucon0, [(.clksel, Config.encPll), (.up0, 1)], .I30),
      (.I31, .safety, .ccucon1, s.cfg.ccucon1, [(.insel, Config.encOsc), (.up1, 1)], .I32),
      (.I33, .safety, .ccucon2, s.cfg.ccucon2, [(.up2, 1)], .I34),
      (.I35, .safety, .ccucon5, s.cfg.ccucon5, [(.up5, 1)], .I36),
      (.I42, .cpu, .fcon, s.cfg.fcon, [], .I43)] :
      List (InitStep × Domain × Reg × Pair × List (Field × Word) × InitStep)) →
    s.ustep = .init l → held s d = true →
    ∃ t, exec .init s = .next t ∧ Rewritten r (mergedBits r p s) fs s t ∧ OnlyRegisterFile (.init n) (midway s) t

/-- R168, R169, R170: the CPU dividers are overwritten whole with the caller's words: no read, no mask, no forced field. -/
def Obligations.InitOverwriteSteps : Prop :=
  ∀ s l r w n,
    (l, r, w, n) ∈ ([
      (.I37, .ccucon6, s.cfg.ccucon6, .I38), (.I38, .ccucon7, s.cfg.ccucon7, .I39),
      (.I39, .ccucon8, s.cfg.ccucon8, .I40)] : List (InitStep × Reg × Word × InitStep)) →
    s.ustep = .init l → s.heldSafety = true →
    ∃ t, exec .init s = .next t ∧ sfrValue t r = w ∧ OtherRegsKept r s t ∧ t.port = .write r w :: s.port ∧
      OnlyRegisterFile (.init n) s t

/-- R154: I23 requests a restart of lock detection and enters PllLocking. -/
def Obligations.InitRestartsLockDetection : Prop :=
  ∀ s, s.ustep = .init .I23 → s.heldSafety = true →
    ∃ t, exec .init s = .next t ∧ Rewritten .pllcon0 (oldBits .pllcon0 s) [(.resld, 1)] s t ∧
      t = { midway s with ext := { (midway s).ext with sfr := t.ext.sfr }, port := t.port, seq := .pllLocking,
                          ustep := .init .I24, phase := .entry }

/-- R122, R138, R141, R146, R156, R159, R161, R163, R165, R167, R177: the ten polls of INIT: one read; on the awaited value the
next µstep (and SEQ, where the rule says), otherwise the same µstep again. -/
def Obligations.InitPollSteps : Prop :=
  ∀ s l f v n q,
    (l, f, v, n, q) ∈ ([
      (.I7, .lck0, 0, .I8, some .backupClock), (.I10, .lck1, 0, .I11, some .pllBypassConfigured),
      (.I15, .k2rdy, 1, .I16, none), (.I25, .vcolock, 1, .I26, some .pllLocked),
      (.I28, .lck0, 0, .I29, none), (.I30, .lck0, 0, .I31, none), (.I32, .lck1, 0, .I33, none),
      (.I34, .lck2, 0, .I35, none), (.I36, .lck5, 0, .I37, none), (.I46, .k2rdy, 1, .I47, none)] :
      List (InitStep × Field × Word × InitStep × Option SeqName)) →
    s.ustep = .init l →
    (fieldValue s f = v → exec .init s = .next { s with
      port := .read (fieldReg f) (sfrValue s (fieldReg f)) :: s.port, seq := q.getD s.seq,
      ustep := .init n, phase := .entry }) ∧
    (fieldValue s f ≠ v → exec .init s = .next { s with
      port := .read (fieldReg f) (sfrValue s (fieldReg f)) :: s.port })

/-- R133, R135, R136, R143, R145, R171, R172, R174, R176, R179, R183, R186: the lock µsteps of INIT, with the SEQ they write. -/
def Obligations.InitLockSteps : Prop :=
  ∀ s,
    (∀ l n, (l, n) ∈ ([(.I2, .I3), (.I5, .I6), (.I14, .I15), (.I52, .I53)] : List (InitStep × InitStep)) →
      s.ustep = .init l → exec .init s = .next { acquire .safety s with ustep := .init n, phase := .entry }) ∧
    (∀ l n, (l, n) ∈ ([(.I4, .I5), (.I12, .I13), (.I48, .I49), (.I55, .I56)] : List (InitStep × InitStep)) →
      s.ustep = .init l → exec .init s = .next { release .safety s with ustep := .init n, phase := .entry }) ∧
    (s.ustep = .init .I40 → exec .init s = .next { release .safety s with
      seq := .clockDistributionConfigured, ustep := .init .I41, phase := .entry }) ∧
    (s.ustep = .init .I41 → exec .init s = .next { acquire .cpu s with ustep := .init .I42, phase := .entry }) ∧
    (s.ustep = .init .I43 → exec .init s = .next { release .cpu s with ustep := .init .I44, phase := .entry }) ∧
    (s.ustep = .init .I45 → exec .init s = .next { acquire .safety s with
      seq := .steppingUp, seqi := s.loopi, ustep := .init .I46, phase := .entry })

/-- R144, R175, R182: the three µsteps of INIT that choose the next label. -/
def Obligations.InitBranchSteps : Prop :=
  ∀ s,
    (s.ustep = .init .I13 → exec .init s = .next { s with
      ustep := if s.oscok then .init .I14 else .init .I52, phase := .entry }) ∧
    (s.ustep = .init .I44 → exec .init s = .next { s with
      loopi := 0, ustep := if s.cfg.nsteps = 0 then .init .I52 else .init .I45, phase := .entry }) ∧
    (s.ustep = .init .I51 → exec .init s = .next { s with
      loopi := s.loopi + 1, ustep := if s.loopi + 1 < s.cfg.nsteps then .init .I45 else .init .I52,
      phase := .entry })

/-- R123, R142: one pass of the oscillator check: both flags in one sample of OSCCON, at most OSC_STABLE_BUDGET samples, no
write. The first pass counts from 0. -/
def Obligations.InitOscillatorCheck : Prop :=
  ∀ s, s.ustep = .init .I11 →
    let failed := if s.phase = .looping then s.pollcnt else 0
    let read := PortEvent.read .osccon (sfrValue s .osccon) :: s.port
    let ready := fieldValue s .plllv = 1 ∧ fieldValue s .pllhv = 1
    (ready → exec .init s = .next { s with
      oscok := true, pollcnt := failed, port := read, ustep := .init .I12, phase := .entry }) ∧
    (¬ ready → failed + 1 = Config.oscStableBudget → exec .init s = .next { s with
      oscok := false, pollcnt := failed + 1, port := read, ustep := .init .I12, phase := .entry }) ∧
    (¬ ready → failed + 1 ≠ Config.oscStableBudget → exec .init s = .next { s with
      pollcnt := failed + 1, port := read, phase := .looping })

/-- R124, R155, R181, R207 (with REVERSE_HOOKS false), R232: the µsteps of the four waits: the first computes the target, the
floor of the wait time times the timer frequency, and samples the start; each later one leaves exactly when the ticks
elapsed, modulo 2^TIMER_WIDTH, have reached the target. (That the target is rounded down is TICK_ROUND's default, and that
B7 waits at once without a hook is REVERSE_HOOKS' default: the model's choice, log 5.) -/
def Obligations.WaitSteps : Prop :=
  ∀ s i l t n,
    (i, l, t, n) ∈ ([
      (.init, .init .I24, s.cfg.initWait, .init .I25), (.init, .init .I50, (rampStep s.cfg s.loopi).wait, .init .I51),
      (.swbackup, .back .B7, (rampStep s.cfg (s.loopi - 1)).wait, .back .B8),
      (.initeray, .eray .E7, s.ecfg.wait, .eray .E8)] : List (Instr × UStep × Q × UStep)) →
    s.ustep = l →
    (s.phase ≠ .looping → ∃ target : ℕ,
      (target : ℚ) ≤ t.val * s.ext.timerFreq.val ∧ t.val * s.ext.timerFreq.val < (target : ℚ) + 1 ∧
      exec i s = .next { s with
        wtarget := target, wstart := s.ext.timer, phase := .looping,
        port := .timer s.ext.timer :: .timerFreq s.ext.timerFreq :: s.port }) ∧
    (s.phase = .looping →
      ((s.ext.timer.toNat + 2 ^ Config.timerWidth - s.wstart.toNat) % 2 ^ Config.timerWidth ≥ s.wtarget → exec i s = .next { s with
        port := .timer s.ext.timer :: s.port, ustep := n, phase := .entry }) ∧
      ((s.ext.timer.toNat + 2 ^ Config.timerWidth - s.wstart.toNat) % 2 ^ Config.timerWidth < s.wtarget → exec i s = .next { s with
        port := .timer s.ext.timer :: s.port }))

/-- R317: a wait whose target is 2^TIMER_WIDTH ticks or more never leaves, whatever the timer shows: every one of its samples stays. -/
def Obligations.TooLongAWaitNeverLeaves : Prop :=
  ∀ s i l, (i, l) ∈ ([(.init, .init .I24), (.init, .init .I50), (.swbackup, .back .B7), (.initeray, .eray .E7)] :
      List (Instr × UStep)) →
    s.ustep = l → s.phase = .looping → 2 ^ Config.timerWidth ≤ s.wtarget →
    exec i s = .next { s with port := .timer s.ext.timer :: s.port }

/-- R127, R180: at I49, no hook: the next µstep at once; a hook: it is called once, the sequencer stands still while it runs,
and its return, with whatever external state HOOK_EFFECT lets it leave, completes the µstep (the hook's own turn is the
model's rendering, log 13). -/
def Obligations.HookIsCalledOnce : Prop :=
  ∀ s, s.ustep = .init .I49 →
    ((∀ h, s.phase ≠ .inHook h) → (rampStep s.cfg s.loopi).hook = none →
      exec .init s = .next { s with ustep := .init .I50, phase := .entry }) ∧
    (∀ h, (∀ k, s.phase ≠ .inHook k) → (rampStep s.cfg s.loopi).hook = some h →
      exec .init s = .next { s with port := .hook h :: s.port, phase := .inHook h }) ∧
    (∀ h, s.phase = .inHook h → exec .init s = .next s) ∧
    (∀ h e rest, s.phase = .inHook h → s.agenda = .hook e :: rest → Config.hookEffect h s.ext e = true →
      step s = .next { s with agenda := rest, ext := e, ustep := .init .I50, phase := .entry })

/-- R187: the result of INIT. -/
def Obligations.InitResultStep : Prop :=
  ∀ s, s.ustep = .init .I56 →
    (s.oscok = true → exec .init s = .next { s with
      fail := false, err := 0, seq := .steadyState, ustep := .idle, phase := .entry, busy := false }) ∧
    (s.oscok = false → exec .init s = .next { s with
      fail := true, err := 2, ustep := .idle, phase := .entry, busy := false })

/-! ## INIT as a whole -/

/-- R130, R131, R189, R190: with every awaited value shown at once, no ramp step and no wait, INIT ends in SteadyState with the
registers as its writes fix them, the trap enable as it was, both locks released, after 4 acquisitions of SAFETY and 1 of
CPU. (No change
of the environment falls inside a write: the premise on `between`, log 33.) -/
def Obligations.InitReachesSteadyState : Prop :=
  ∀ s, s.ustep = .idle → NoLockHeld s → NoChangeBetween s → s.cfg.nsteps = 0 → NoWait s s.cfg.initWait →
    DistributionIdle s → PllReady s → OscStable s →
    ∃ t, runCommand 50 .init s = .next t ∧
      t.busy = false ∧ t.ustep = .idle ∧ t.fail = false ∧ t.err = 0 ∧ t.seq = .steadyState ∧ NoLockHeld t ∧
      fieldValue t .clksel = Config.encPll ∧ fieldValue t .insel = Config.encOsc ∧
      fieldValue t .pdiv = s.cfg.initP.setWidth Config.regWidth ∧ fieldValue t .ndiv = s.cfg.initN.setWidth Config.regWidth ∧
      fieldValue t .k2div = s.cfg.initK2.setWidth Config.regWidth ∧ fieldValue t .vcobyp = 0 ∧
      fieldValue t .pllpwd = Config.encNormal ∧ fieldValue t .oscdiscdis = 0 ∧
      fieldValue t .ulten = fieldValue s .ulten ∧
      sfrValue t .ccucon6 = s.cfg.ccucon6 ∧ sfrValue t .ccucon7 = s.cfg.ccucon7 ∧
      sfrValue t .ccucon8 = s.cfg.ccucon8 ∧ sfrValue t .fcon = merge (sfrValue s .fcon) s.cfg.fcon ∧
      (∀ r p f, (r, p, f) ∈ ([
          (.ccucon0, s.cfg.ccucon0, some .clksel), (.ccucon1, s.cfg.ccucon1, some .insel),
          (.ccucon2, s.cfg.ccucon2, none), (.ccucon5, s.cfg.ccucon5, none)] : List (Reg × Pair × Option Field)) →
        ∀ i, i < Config.regWidth → (rwMask r).getLsbD i = true → (∀ g, f = some g → ¬ InField g i) →
          (sfrValue t r).getLsbD i = (merge (sfrValue s r) p).getLsbD i) ∧
      acquisitions .safety t.port = acquisitions .safety s.port + 4 ∧
      acquisitions .cpu t.port = acquisitions .cpu s.port + 1 ∧
      t.cfg = s.cfg ∧ t.ecfg = s.ecfg ∧ t.cmd = s.cmd ∧ t.res = s.res

/-- R144, R187, R190, R192, R272: with the oscillator never stable and the lock-busy flags clear, INIT takes exactly
OSC_STABLE_BUDGET samples, skips the PLL programming, and ends with OSC_UNSTABLE: exactly the six register writes of R192 in
their order, 3 acquisitions of SAFETY and none of CPU, no timer read, no divider and no distribution merge written, the
trap enable as it was, no lock held, no hook called. (No change
of the environment falls inside a write: the premise on `between`, log 33.) -/
def Obligations.InitFailsCleanlyWhenOscillatorUnstable : Prop :=
  ∀ s, s.ustep = .idle → NoLockHeld s → NoChangeBetween s → DistributionIdle s → ¬ OscStable s →
    ∃ t, runCommand (17 + Config.oscStableBudget) .init s = .next t ∧
      t.busy = false ∧ t.ustep = .idle ∧ t.fail = true ∧ t.err = 2 ∧ t.seq = .pllBypassConfigured ∧ NoLockHeld t ∧
      portWrites t.port =
        [.trapctl, .pllcon0, .ccucon1, .pllcon0, .ccucon0, .trapctl] ++ portWrites s.port ∧
      acquisitions .safety t.port = acquisitions .safety s.port + 3 ∧
      acquisitions .cpu t.port = acquisitions .cpu s.port ∧ timerReads t.port = timerReads s.port ∧
      hookCalls t.port = hookCalls s.port ∧
      fieldValue t .clksel = Config.encBackup ∧ fieldValue t .insel = Config.encOsc ∧
      fieldValue t .ulten = fieldValue s .ulten ∧ fieldValue t .oscdiscdis = 0 ∧
      fieldValue t .pdiv = fieldValue s .pdiv ∧ fieldValue t .ndiv = fieldValue s .ndiv ∧
      (∀ r ∈ ([.pllcon1, .ccucon2, .ccucon5, .ccucon6, .ccucon7, .ccucon8, .fcon, .plleraycon0, .plleraycon1] :
        List Reg), sfrValue t r = sfrValue s r) ∧
      t.cfg = s.cfg ∧ t.ecfg = s.ecfg ∧ t.res = s.res

/-- R175 to R182, R188, R189: with K2-ready shown, no hooks and no waits, the ramp visits every step once in index
order (the K2 dividers written, newest first, are those of STEP[NSTEPS-1] down to STEP[0]) and leaves K2DIV at the last
step's value, SEQ in SteppingUp of the last index, having acquired SAFETY once for each step and released it. (No
change of the environment falls inside a write: the premise on `between`, log 33.) -/
def Obligations.RampUpVisitsEveryStep : Prop :=
  ∀ s, s.ustep = .init .I44 → NoLockHeld s → NoChangeBetween s → 0 < s.cfg.nsteps → fieldValue s .k2rdy = 1 →
    (∀ i, i < s.cfg.nsteps → (rampStep s.cfg i).hook = none ∧ NoWait s (rampStep s.cfg i).wait) →
    ∃ t, runCommand (1 + 8 * s.cfg.nsteps) .init s = .next t ∧
      t.ustep = .init .I52 ∧ t.loopi = s.cfg.nsteps ∧ NoLockHeld t ∧
      t.seq = .steppingUp ∧ t.seqi = s.cfg.nsteps - 1 ∧
      fieldValue t .k2div = (rampStep s.cfg (s.cfg.nsteps - 1)).k2.setWidth Config.regWidth ∧
      OtherRegsKept .pllcon1 s t ∧
      portWrites t.port = List.replicate s.cfg.nsteps .pllcon1 ++ portWrites s.port ∧
      k2Writes t.port =
        ((List.range s.cfg.nsteps).map fun i => (rampStep s.cfg i).k2.setWidth Config.regWidth).reverse ++
          k2Writes s.port ∧
      acquisitions .safety t.port = acquisitions .safety s.port + s.cfg.nsteps ∧
      acquisitions .cpu t.port = acquisitions .cpu s.port

/-- R275, R319: an unbounded poll whose flag never shows the awaited value repeats for ever: after any number of µsteps the
state is the same but for the reads recorded: BUSY, the lock and the label stay, and no result is written. -/
def Obligations.UnboundedPollsSpinForEver : Prop :=
  ∀ s i l f v,
    (i, l, f, v) ∈ ([
      (.init, .init .I7, .lck0, 0), (.init, .init .I10, .lck1, 0), (.init, .init .I15, .k2rdy, 1),
      (.init, .init .I25, .vcolock, 1), (.init, .init .I28, .lck0, 0), (.init, .init .I30, .lck0, 0),
      (.init, .init .I32, .lck1, 0), (.init, .init .I34, .lck2, 0), (.init, .init .I36, .lck5, 0),
      (.init, .init .I46, .k2rdy, 1), (.swbackup, .back .B4, .k2rdy, 1), (.swbackup, .back .B15, .lck0, 0),
      (.initeray, .eray .E2, .erayK2rdy, 1)] : List (Instr × UStep × Field × Word)) →
    s.ustep = l → fieldValue s f ≠ v →
    ∀ k, runCommand k i s = .next { s with
      port := List.replicate k (.read (fieldReg f) (sfrValue s (fieldReg f))) ++ s.port }

/-- R131, R200, R225 with R68: under the locks the µstep lists say are held, every µstep of the three sequences answers a
next state. -/
def Obligations.EveryMicrostepCompletesUnderItsLocks : Prop :=
  ∀ s, LocksMatch s →
    ((∀ l, s.ustep = .init l → ∃ t, exec .init s = .next t) ∧
     (∀ l, s.ustep = .back l → ∃ t, exec .swbackup s = .next t) ∧
     (∀ l, s.ustep = .eray l → ∃ t, exec .initeray s = .next t)) ∧
    (s.ustep = .idle →
      (∃ t, exec .init s = .next t ∧ t.ustep = .init .I2) ∧
      (∃ t, exec .swbackup s = .next t ∧ (t.ustep = .back .B20 ∨ t.ustep = .back .B2)) ∧
      (∃ t, exec .initeray s = .next t ∧ t.ustep = .eray .E2))

/-! ## SWBACKUP -/

/-- R201, R220: already on the backup source, SWBACKUP reads CCUCON0 once and ends: no register write, no lock operation, no
timer read, no hook, SEQ as it was, FAIL = 0. -/
def Obligations.BackupIsANoOpOnBackupClock : Prop :=
  ∀ s, s.ustep = .idle → fieldValue s .clksel = Config.encBackup →
    runCommand 2 .swbackup s = .next { s with
      port := .read .ccucon0 (sfrValue s .ccucon0) :: s.port,
      fail := false, err := 0, ustep := .idle, phase := .entry, busy := false }

/-- R205, R211, R216, R217, R218: the field writes of SWBACKUP. -/
def Obligations.BackupFieldWriteSteps : Prop :=
  ∀ s l f v n,
    (l, f, v, n) ∈ ([
      (.B5, .k2div, (rampStep s.cfg (s.loopi - 1)).k2.setWidth Config.regWidth, .B6), (.B11, .ulten, 0, .B12),
      (.B16, .setfindis, 1, .B17), (.B17, .oscdiscdis, 0, .B18),
      (.B18, .ulten, if s.savedTrap then 1 else 0, .B19)] : List (BackStep × Field × Word × BackStep)) →
    s.ustep = .back l → s.heldSafety = true →
    ∃ t, exec .swbackup s = .next t ∧ Rewritten (fieldReg f) (oldBits (fieldReg f) s) [(f, v)] s t ∧
      OnlyRegisterFile (.back n) (midway s) t

/-- R201, R202, R203, R206, R208, R209, R210, R212, R213, R219, R220: the µsteps of SWBACKUP that choose a label, lock, sample
the trap or end the command; B20 writes SEQ when it was reached from B19, and leaves it when it was reached from B1 or in any
other way (the way it was reached is kept in the model's own field `phase`, log 20). -/
def Obligations.BackupControlSteps : Prop :=
  ∀ s,
    (s.ustep = .back .B1 ∨ s.ustep = .idle → exec .swbackup s = .next { s with
      port := .read .ccucon0 (sfrValue s .ccucon0) :: s.port,
      ustep := if fieldValue s .clksel = Config.encBackup then .back .B20 else .back .B2, phase := .entry }) ∧
    (s.ustep = .back .B2 → exec .swbackup s = .next { s with
      loopi := s.cfg.nsteps, ustep := if s.cfg.nsteps = 0 then .back .B9 else .back .B3, phase := .entry }) ∧
    (s.ustep = .back .B3 → exec .swbackup s = .next { acquire .safety s with
      seq := .steppingDown, seqi := s.loopi - 1, ustep := .back .B4, phase := .entry }) ∧
    (∀ l n, (l, n) ∈ ([(.B6, .B7), (.B12, .B13)] : List (BackStep × BackStep)) → s.ustep = .back l →
      exec .swbackup s = .next { release .safety s with ustep := .back n, phase := .entry }) ∧
    (s.ustep = .back .B8 → exec .swbackup s = .next { s with
      loopi := s.loopi - 1, ustep := if s.loopi - 1 > 0 then .back .B3 else .back .B9, phase := .entry }) ∧
    (s.ustep = .back .B9 → exec .swbackup s = .next { s with
      savedTrap := decide (fieldValue s .ulten = 1), port := .read .trapctl (sfrValue s .trapctl) :: s.port,
      ustep := .back .B10, phase := .entry }) ∧
    (∀ l n, (l, n) ∈ ([(.B10, .B11), (.B13, .B14)] : List (BackStep × BackStep)) → s.ustep = .back l →
      exec .swbackup s = .next { acquire .safety s with ustep := .back n, phase := .entry }) ∧
    (s.ustep = .back .B19 → ∃ t, exec .swbackup s = .next t ∧ t.ustep = .back .B20 ∧ t.heldSafety = false ∧
      exec .swbackup t = .next { release .safety s with
        fail := false, err := 0, seq := .backupClock, ustep := .idle, phase := .entry, busy := false }) ∧
    (s.ustep = .back .B1 → fieldValue s .clksel = Config.encBackup →
      ∃ t, exec .swbackup s = .next t ∧ t.ustep = .back .B20 ∧ t.phase ≠ .fullPath) ∧
    (s.ustep = .back .B20 → s.phase ≠ .fullPath → exec .swbackup s = .next { s with
      fail := false, err := 0, ustep := .idle, phase := .entry, busy := false })

/-- R214, R204, R215: the selection of the backup clock by SWBACKUP, and its two polls. -/
def Obligations.BackupSelectAndPollSteps : Prop :=
  ∀ s,
    (s.ustep = .back .B14 → s.heldSafety = true →
      ∃ t, exec .swbackup s = .next t ∧
        Rewritten .ccucon0 (oldBits .ccucon0 s) [(.clksel, Config.encBackup), (.up0, 1)] s t ∧
        OnlyRegisterFile (.back .B15) (midway s) t) ∧
    (∀ l f v n, (l, f, v, n) ∈ ([(.B4, .k2rdy, 1, .B5), (.B15, .lck0, 0, .B16)] :
        List (BackStep × Field × Word × BackStep)) → s.ustep = .back l →
      (fieldValue s f = v → exec .swbackup s = .next { s with
        port := .read (fieldReg f) (sfrValue s (fieldReg f)) :: s.port, ustep := .back n, phase := .entry }) ∧
      (fieldValue s f ≠ v → exec .swbackup s = .next { s with
        port := .read (fieldReg f) (sfrValue s (fieldReg f)) :: s.port }))

/-- R200, R205, R208, R220, R221, R222: off the backup clock, with K2-ready shown, the lock-busy flag clear and no
waits, SWBACKUP ramps down through every step in reverse order and falls back to the backup clock: the register writes
of R222 in order, among them the K2 dividers of STEP[NSTEPS-1] down to STEP[0], NSTEPS + 2 acquisitions of SAFETY and
none of CPU, the trap enable as it was, the dividers P and N untouched, K2DIV at STEP[0].K2 if there is a step, FAIL =
0. (REVERSE_HOOKS is at its default, false, log 5: no hook is called.) (No change of the environment falls inside a write: the
premise on `between`, log 33.) -/
def Obligations.BackupRampsDownToBackupClock : Prop :=
  ∀ s, s.ustep = .idle → NoLockHeld s → NoChangeBetween s → fieldValue s .clksel ≠ Config.encBackup →
    fieldValue s .k2rdy = 1 → fieldValue s .lck0 = 0 →
    (∀ i, i < s.cfg.nsteps → NoWait s (rampStep s.cfg i).wait) →
    ∃ t, runCommand (14 + 7 * s.cfg.nsteps) .swbackup s = .next t ∧
      t.busy = false ∧ t.ustep = .idle ∧ t.fail = false ∧ t.err = 0 ∧ t.seq = .backupClock ∧ NoLockHeld t ∧
      fieldValue t .clksel = Config.encBackup ∧ fieldValue t .insel = fieldValue s .insel ∧
      fieldValue t .oscdiscdis = 0 ∧ fieldValue t .ulten = fieldValue s .ulten ∧
      fieldValue t .pdiv = fieldValue s .pdiv ∧ fieldValue t .ndiv = fieldValue s .ndiv ∧
      fieldValue t .k2div =
        (if s.cfg.nsteps = 0 then fieldValue s .k2div else (rampStep s.cfg 0).k2.setWidth Config.regWidth) ∧
      portWrites t.port =
        [.trapctl, .pllcon0, .pllcon0, .ccucon0, .trapctl] ++ List.replicate s.cfg.nsteps .pllcon1 ++
          portWrites s.port ∧
      k2Writes t.port =
        ((List.range s.cfg.nsteps).map fun i => (rampStep s.cfg i).k2.setWidth Config.regWidth) ++ k2Writes s.port ∧
      hookCalls t.port = hookCalls s.port ∧
      acquisitions .safety t.port = acquisitions .safety s.port + (s.cfg.nsteps + 2) ∧
      acquisitions .cpu t.port = acquisitions .cpu s.port ∧
      sfrValue t .fcon = sfrValue s .fcon ∧ t.cfg = s.cfg ∧ t.ecfg = s.ecfg ∧ t.res = s.res

/-! ## INITERAY -/

/-- R226, R227, R228, R229, R230, R231, R234, R235, R236: the µsteps of INITERAY, but for its wait and its bounded poll. -/
def Obligations.ErayMicrosteps : Prop :=
  ∀ s,
    (s.ustep = .eray .E1 ∨ s.ustep = .idle →
      exec .initeray s = .next { acquire .safety s with ustep := .eray .E2, phase := .entry }) ∧
    (s.ustep = .eray .E2 →
      (fieldValue s .erayK2rdy = 1 → exec .initeray s = .next { s with
        port := .read .plleraystat (sfrValue s .plleraystat) :: s.port, ustep := .eray .E3, phase := .entry }) ∧
      (fieldValue s .erayK2rdy ≠ 1 → exec .initeray s = .next { s with
        port := .read .plleraystat (sfrValue s .plleraystat) :: s.port })) ∧
    (∀ l f v n, (l, f, v, n) ∈ ([
        (.E3, .erayK2div, s.ecfg.k2.setWidth Config.regWidth, .E4), (.E4, .erayPdiv, s.ecfg.p.setWidth Config.regWidth, .E5),
        (.E5, .erayNdiv, s.ecfg.n.setWidth Config.regWidth, .E6), (.E6, .erayResld, 1, .E7)] :
        List (ErayStep × Field × Word × ErayStep)) ∨ (l, f, v, n) = (.E9, .erayVcobyp, 0, .E10) ∧ s.elockok = true →
      s.ustep = .eray l → s.heldSafety = true →
      ∃ t, exec .initeray s = .next t ∧ Rewritten (fieldReg f) (oldBits (fieldReg f) s) [(f, v)] s t ∧
        OnlyRegisterFile (.eray n) (midway s) t) ∧
    (s.ustep = .eray .E9 → s.elockok = false →
      exec .initeray s = .next { s with ustep := .eray .E10, phase := .entry }) ∧
    (s.ustep = .eray .E10 →
      exec .initeray s = .next { release .safety s with ustep := .eray .E11, phase := .entry }) ∧
    (s.ustep = .eray .E11 → exec .initeray s = .next { s with
      fail := !s.elockok, err := if s.elockok then 0 else 3, ustep := .idle, phase := .entry, busy := false })

/-- R233: one pass of the secondary PLL's bounded VCO-lock poll: at most ERAY_LOCK_BUDGET samples. -/
def Obligations.ErayBoundedLockPoll : Prop :=
  ∀ s, s.ustep = .eray .E8 →
    let failed := if s.phase = .looping then s.pollcnt else 0
    let read := PortEvent.read .plleraystat (sfrValue s .plleraystat) :: s.port
    (fieldValue s .erayVcolock = 1 → exec .initeray s = .next { s with
      elockok := true, pollcnt := failed, port := read, ustep := .eray .E9, phase := .entry }) ∧
    (fieldValue s .erayVcolock ≠ 1 → failed + 1 = Config.erayLockBudget → exec .initeray s = .next { s with
      elockok := false, pollcnt := failed + 1, port := read, ustep := .eray .E9, phase := .entry }) ∧
    (fieldValue s .erayVcolock ≠ 1 → failed + 1 ≠ Config.erayLockBudget → exec .initeray s = .next { s with
      pollcnt := failed + 1, port := read, phase := .looping })

/-- R225, R228 to R231, R234 to R236: with the secondary PLL ready and locked and no wait, INITERAY programs it and clears its
bypass, touching no other register and not SEQ. (No change
of the environment falls inside a write: the premise on `between`, log 33.) -/
def Obligations.ErayLocksAndClearsTheBypass : Prop :=
  ∀ s, s.ustep = .idle → NoLockHeld s → NoChangeBetween s → fieldValue s .erayK2rdy = 1 → fieldValue s .erayVcolock = 1 →
    NoWait s s.ecfg.wait →
    ∃ t, runCommand 12 .initeray s = .next t ∧
      t.busy = false ∧ t.ustep = .idle ∧ t.fail = false ∧ t.err = 0 ∧ NoLockHeld t ∧
      fieldValue t .erayPdiv = s.ecfg.p.setWidth Config.regWidth ∧ fieldValue t .erayNdiv = s.ecfg.n.setWidth Config.regWidth ∧
      fieldValue t .erayK2div = s.ecfg.k2.setWidth Config.regWidth ∧ fieldValue t .erayVcobyp = 0 ∧
      (∀ r, r ≠ .plleraycon0 → r ≠ .plleraycon1 → sfrValue t r = sfrValue s r) ∧
      portWrites t.port = [.plleraycon0, .plleraycon0, .plleraycon0, .plleraycon0, .plleraycon1] ++ portWrites s.port ∧
      acquisitions .safety t.port = acquisitions .safety s.port + 1 ∧
      t.seq = s.seq ∧ t.cfg = s.cfg ∧ t.ecfg = s.ecfg ∧ t.res = s.res

/-- R233, R234, R235, R236, R273: with the secondary PLL never locked, INITERAY takes exactly ERAY_LOCK_BUDGET samples and ends
with ERAY_LOCK_TIMEOUT, the bypass as it was and the lock released. (No change
of the environment falls inside a write: the premise on `between`, log 33.) -/
def Obligations.ErayTimesOutAfterItsBudget : Prop :=
  ∀ s, s.ustep = .idle → NoLockHeld s → NoChangeBetween s → fieldValue s .erayK2rdy = 1 → fieldValue s .erayVcolock ≠ 1 →
    NoWait s s.ecfg.wait →
    ∃ t, runCommand (11 + Config.erayLockBudget) .initeray s = .next t ∧
      t.busy = false ∧ t.ustep = .idle ∧ t.fail = true ∧ t.err = 3 ∧ NoLockHeld t ∧
      t.pollcnt = Config.erayLockBudget ∧ fieldValue t .erayVcobyp = fieldValue s .erayVcobyp ∧
      portWrites t.port = [.plleraycon0, .plleraycon0, .plleraycon0, .plleraycon1] ++ portWrites s.port ∧
      t.seq = s.seq ∧ t.cfg = s.cfg ∧ t.ecfg = s.ecfg ∧ t.res = s.res

/-! ## Queries -/

/-- R241: the tap computation, exact over the rationals. -/
def Obligations.TapComputation : Prop :=
  ∀ u d l,
    (tapFreq u d false l).val = (if d = 0 then 0 else u.val / d) ∧
    (tapFreq u d true 0).val = (if d = 0 then 0 else u.val / d) ∧
    (tapFreq u d true 1).val = u.val / 30 ∧ (tapFreq u d true 2).val = u.val / 60 ∧
    (tapFreq u d true 3).val = u.val / 120 ∧ (tapFreq u d true 4).val = u.val / 240 ∧
    (5 ≤ l → l ≤ 7 → (tapFreq u d true l).val = 0)

/-- R243, R244: the frequency feeding the distribution; in normal mode the exact divider formula. -/
def Obligations.SourceFrequency : Prop :=
  ∀ s,
    (fieldValue s .clksel = Config.encBackup → fSource s = Config.fBackup) ∧
    (fieldValue s .clksel = Config.encPll → fieldValue s .vcobyst = 0 → fieldValue s .findis = 0 →
      (fSource s).val = (Config.fXtal : ℚ) * (((fieldValue s .ndiv).toNat : ℚ) + 1) /
        ((((fieldValue s .pdiv).toNat : ℚ) + 1) * (((fieldValue s .k2div).toNat : ℚ) + 1))) ∧
    (fieldValue s .clksel = Config.encPll → ¬ (fieldValue s .vcobyst = 0 ∧ fieldValue s .findis = 0) →
      fSource s = Config.fPllOther (readableFile s)) ∧
    (fieldValue s .clksel ≠ Config.encBackup → fieldValue s .clksel ≠ Config.encPll → (fSource s).val = 0)

/-- R240, R242, R245 to R251: every query command answers RES by the clock tree, clears FAIL and ERR, only reads registers, each
once, and changes nothing else; RES is a function of the registers read: any state in which these read the same answers the
same RES. (The clock tree is TAPTABLE's default, log 4; the order of the reads is not said.) -/
def Obligations.QueriesAnswerTheirTaps : Prop :=
  ∀ s i f,
    (let lp := (fieldValue s .lpdiv).toNat
     let sri := tapFreq (fSource s) (fieldValue s .sridiv).toNat true lp
     let spb := tapFreq (fSource s) (fieldValue s .spbdiv).toNat true lp
     (i, f) ∈ ([
       (.qsri, sri), (.qspb, spb),
       (.qbaud 1, tapFreq (fSource s) (fieldValue s .baud1div).toNat false lp),
       (.qbaud 2, tapFreq (fSource s) (fieldValue s .baud2div).toNat false lp),
       (.qcpu 0, tapFreq sri (fieldValue s .cpudiv6).toNat false lp),
       (.qcpu 1, tapFreq sri (fieldValue s .cpudiv7).toNat false lp),
       (.qcpu 2, tapFreq sri (fieldValue s .cpudiv8).toNat false lp),
       (.qgtm, tapFreq (fSource s) (fieldValue s .gtmdiv).toNat false lp),
       (.qfsi, tapFreq sri (fieldValue s .fsidiv).toNat false lp),
       (.qmod, tapFreq spb (Config.modDiv (readableFile s)) false lp)] : List (Instr × Q))) →
    ∃ rs : List Reg, rs.Nodup ∧
      exec i s = .next { s with
        res := f, port := rs.map (fun r => .read r (sfrValue s r)) ++ s.port,
        fail := false, err := 0, ustep := .idle, phase := .entry, busy := false } ∧
      ∀ u : State, (∀ r ∈ rs, sfrValue u r = sfrValue s r) → ∃ v, exec i u = .next v ∧ v.res = f

/-- R241, R242, R245, R246, R248, R250, R251, R253: the low-power table at the SRI and SPB taps, with its row LPDIV = 0 (each
tap by its own divider), and its divisor inherited by the taps they feed: the CPU and FSI taps, and QMOD from SPB. (That
SRI feeds the CPU and FSI taps, and SPB the module tap, is TAPTABLE's default, log 4.) -/
def Obligations.LowPowerTableIsExact : Prop :=
  ∀ s (dSri dSpb : ℕ),
    ((fieldValue s .lpdiv).toNat = 0 ∧ dSri = (fieldValue s .sridiv).toNat ∧ dSpb = (fieldValue s .spbdiv).toNat) ∨
      (∃ k, (fieldValue s .lpdiv).toNat = k ∧ (k, dSri) ∈ ([(1, 30), (2, 60), (3, 120), (4, 240)] : List (ℕ × ℕ)) ∧
        dSpb = dSri) →
    (∃ t, exec .qsri s = .next t ∧ t.res.val = if dSri = 0 then 0 else (fSource s).val / dSri) ∧
    (∃ t, exec .qspb s = .next t ∧ t.res.val = if dSpb = 0 then 0 else (fSource s).val / dSpb) ∧
    (∀ i f, (i, f) ∈ ([(.qcpu 0, .cpudiv6), (.qcpu 1, .cpudiv7), (.qcpu 2, .cpudiv8), (.qfsi, .fsidiv)] :
        List (Instr × Field)) →
      ∃ t, exec i s = .next t ∧
        t.res.val = if dSri = 0 ∨ fieldValue s f = 0 then 0
          else (fSource s).val / ((dSri : ℚ) * ((fieldValue s f).toNat : ℚ))) ∧
    (∃ t, exec .qmod s = .next t ∧
      t.res.val = if dSpb = 0 ∨ Config.modDiv (readableFile s) = 0 then 0
        else (fSource s).val / ((dSpb : ℚ) * (Config.modDiv (readableFile s) : ℚ)))

/-- R241, R242, R252: a zero divider gives RES = 0, at the tap itself and at the taps it feeds, when no low-power mode 1 to 4
overrides it; an unrecognized low-power mode, 5 to 7, gives 0 there whatever the divider (R241); never a failure. (Which taps
the SRI and SPB taps feed is TAPTABLE's default, log 4.) -/
def Obligations.ZeroDividerGivesZero : Prop :=
  ∀ s,
    (∀ i f, (i, f) ∈ ([(.qbaud 1, .baud1div), (.qbaud 2, .baud2div), (.qcpu 0, .cpudiv6), (.qcpu 1, .cpudiv7),
        (.qcpu 2, .cpudiv8), (.qgtm, .gtmdiv), (.qfsi, .fsidiv)] : List (Instr × Field)) → fieldValue s f = 0 →
      ∃ t, exec i s = .next t ∧ t.res.val = 0 ∧ t.fail = false) ∧
    (Config.modDiv (readableFile s) = 0 → ∃ t, exec .qmod s = .next t ∧ t.res.val = 0 ∧ t.fail = false) ∧
    ((fieldValue s .lpdiv = 0 ∧ fieldValue s .sridiv = 0) ∨ 5 ≤ (fieldValue s .lpdiv).toNat →
      ∀ i ∈ ([.qsri, .qcpu 0, .qcpu 1, .qcpu 2, .qfsi] : List Instr),
        ∃ t, exec i s = .next t ∧ t.res.val = 0 ∧ t.fail = false) ∧
    ((fieldValue s .lpdiv = 0 ∧ fieldValue s .spbdiv = 0) ∨ 5 ≤ (fieldValue s .lpdiv).toNat →
      ∀ i ∈ ([.qspb, .qmod] : List Instr), ∃ t, exec i s = .next t ∧ t.res.val = 0 ∧ t.fail = false)

/-- R84, R247, R248: a generator or core that does not exist is ILLEGAL_CMD and changes nothing else (that the meaning itself
says so for such a term is the model's choice, log 23: the decoder refuses the word first). -/
def Obligations.MissingTapIsIllegal : Prop :=
  ∀ s (a : BitVec 8),
    ((a = 0 ∨ a.toNat > Config.nBaud) → exec (.qbaud a) s = .next { s with
      fail := true, err := 4, ustep := .idle, phase := .entry, busy := false }) ∧
    (a.toNat ≥ Config.nCores → exec (.qcpu a) s = .next { s with
      fail := true, err := 4, ustep := .idle, phase := .entry, busy := false })
end

