-- ==== Sys2Proof/Laws/Bank.lean ====
section
/-! SUPPORT. The ramp-step bank of CFG: a write is read back, leaves every other step alone, keeps the canonical form, and
cannot make the list longer than the step written needs. -/

namespace Sys2Proof.Machine

theorem getD_consStep (x : RampStep) (l : List RampStep) (i : Nat) :
    (consStep x l).getD i zeroStep = (x :: l).getD i zeroStep := by
  cases l with
  | nil =>
    by_cases h : x = zeroStep
    · cases i <;> simp [consStep, h]
    · simp [consStep, h]
  | cons y l => rfl

theorem stepsWf_consStep (x : RampStep) (l : List RampStep) (h : stepsWf l = true) : stepsWf (consStep x l) = true := by
  cases l with
  | nil => by_cases hx : x = zeroStep <;> simp [consStep, hx, stepsWf]
  | cons y l => simpa [consStep, stepsWf] using h

theorem stepsWf_tail (x : RampStep) (l : List RampStep) (h : stepsWf (x :: l) = true) : stepsWf l = true := by
  cases l with
  | nil => rfl
  | cons y l => simpa [stepsWf] using h

/-- A bank write is read back and leaves every other step alone. -/
theorem getD_writeStep (l : List RampStep) (i j : Nat) (v : RampStep) :
    (writeStep l i v).getD j zeroStep = if j = i then v else l.getD j zeroStep := by
  induction i generalizing l j with
  | zero => cases l <;> rw [writeStep, getD_consStep] <;> cases j <;> simp
  | succ i ih =>
    cases l with
    | nil =>
      rw [writeStep, getD_consStep]
      cases j with
      | zero => simp
      | succ j => simpa using ih [] j
    | cons x l =>
      rw [writeStep, getD_consStep]
      cases j with
      | zero => simp
      | succ j => simpa using ih l j

/-- A bank write keeps the canonical form. -/
theorem stepsWf_writeStep (l : List RampStep) (i : Nat) (v : RampStep) (h : stepsWf l = true) :
    stepsWf (writeStep l i v) = true := by
  induction i generalizing l with
  | zero =>
    cases l with
    | nil => exact stepsWf_consStep v [] rfl
    | cons x l => exact stepsWf_consStep v l (stepsWf_tail x l h)
  | succ i ih =>
    cases l with
    | nil => exact stepsWf_consStep _ _ (ih [] rfl)
    | cons x l => exact stepsWf_consStep _ _ (ih l (stepsWf_tail x l h))

theorem length_consStep (x : RampStep) (l : List RampStep) : (consStep x l).length ≤ l.length + 1 := by
  cases l with
  | nil => by_cases hx : x = zeroStep <;> simp [consStep, hx]
  | cons y l => simp [consStep]

/-- A bank write inside a bound keeps the list inside the bound. -/
theorem length_writeStep (l : List RampStep) (i n : Nat) (v : RampStep) (hl : l.length ≤ n) (hi : i < n) :
    (writeStep l i v).length ≤ n := by
  induction i generalizing l n with
  | zero =>
    cases l with
    | nil => exact le_trans (length_consStep v []) (by simpa using Nat.succ_le_of_lt hi)
    | cons x l => exact le_trans (length_consStep v l) (by simpa using hl)
  | succ i ih =>
    cases n with
    | zero => omega
    | succ n =>
      cases l with
      | nil => exact le_trans (length_consStep _ _) (by simpa using ih [] n (by simp) (by omega))
      | cons x l =>
        exact le_trans (length_consStep _ _) (by simpa using ih l n (by simpa using hl) (by omega))

end Sys2Proof.Machine
end

