-- ==== Sys2Proof/Laws/Fields.lean ====
section
/-! SUPPORT. The laws of field access: `getField` and `setField` bit by bit, the layout's well-formedness (10_state R42), what a
written word reads back as, and read after write of the register file. -/

namespace Sys2Proof.Machine

theorem getLsbD_lowMask (n i : Nat) : (lowMask n).getLsbD i = (decide (i < Config.regWidth) && decide (i < n)) := by
  simp [lowMask, BitVec.getLsbD_ofNat, Nat.testBit_two_pow_sub_one]

theorem layout_fits (f : Field) : (Config.layout f).lo + (Config.layout f).width ≤ Config.regWidth := by
  cases f <;> decide

theorem getLsbD_getField (w : Word) (f : Field) (i : Nat) :
    (getField w f).getLsbD i = (w.getLsbD ((Config.layout f).lo + i) && decide (i < (Config.layout f).width)) := by
  have := layout_fits f
  simp only [getField, BitVec.getLsbD_and, BitVec.getLsbD_ushiftRight, getLsbD_lowMask]
  by_cases h : i < (Config.layout f).width
  · have : i < Config.regWidth := by omega
    simp [h, this]
  · simp [h]

theorem getLsbD_fieldMask (f : Field) (i : Nat) :
    (fieldMask f).getLsbD i = (decide ((Config.layout f).lo ≤ i) &&
      decide (i < (Config.layout f).lo + (Config.layout f).width)) := by
  have := layout_fits f
  simp only [fieldMask, BitVec.getLsbD_shiftLeft, getLsbD_lowMask]
  by_cases h1 : i < (Config.layout f).lo
  · simp [h1]
  · by_cases h2 : i < (Config.layout f).lo + (Config.layout f).width
    · have e1 : i - (Config.layout f).lo < (Config.layout f).width := by omega
      have e2 : i < Config.regWidth := by omega
      have e3 : i - (Config.layout f).lo < Config.regWidth := by omega
      simp [h1, h2, e1, e2, e3]
      omega
    · have e1 : ¬ i - (Config.layout f).lo < (Config.layout f).width := by omega
      simp [h2, e1]

/-- `setField` bit by bit: inside the field the new value, outside it the old word. -/
theorem getLsbD_setField (w : Word) (f : Field) (v : Word) (i : Nat) :
    (setField w f v).getLsbD i =
      if (Config.layout f).lo ≤ i ∧ i < (Config.layout f).lo + (Config.layout f).width
      then v.getLsbD (i - (Config.layout f).lo) else w.getLsbD i := by
  have := layout_fits f
  simp only [setField, BitVec.getLsbD_or, BitVec.getLsbD_and, BitVec.getLsbD_not, getLsbD_fieldMask,
    BitVec.getLsbD_shiftLeft, getLsbD_lowMask]
  by_cases h1 : (Config.layout f).lo ≤ i
  · by_cases h2 : i < (Config.layout f).lo + (Config.layout f).width
    · have e1 : i - (Config.layout f).lo < (Config.layout f).width := by omega
      have e2 : i < Config.regWidth := by omega
      have e3 : i - (Config.layout f).lo < Config.regWidth := by omega
      have e4 : ¬ i < (Config.layout f).lo := by omega
      simp [h1, h2, e1, e2, e3, e4]
    · have e1 : ¬ i - (Config.layout f).lo < (Config.layout f).width := by omega
      by_cases e2 : i < Config.regWidth
      · simp [h1, h2, e1, e2]
      · simp [h1, h2, e1, BitVec.getLsbD_of_ge w i (by omega)]
  · have e4 : i < (Config.layout f).lo := by omega
    have e2 : i < Config.regWidth := by omega
    simp [h1, e4, e2]

/-- Two different fields of one register share no bit (10_state R42). -/
theorem layout_disjoint (f g : Field) (hr : fieldReg f = fieldReg g) (hne : f ≠ g) :
    (Config.layout f).lo + (Config.layout f).width ≤ (Config.layout g).lo ∨
      (Config.layout g).lo + (Config.layout g).width ≤ (Config.layout f).lo := by
  revert hr hne
  cases f <;> cases g <;> decide

theorem getField_setField_same (w : Word) (f : Field) (v : Word) :
    getField (setField w f v) f = v &&& lowMask (Config.layout f).width := by
  apply BitVec.eq_of_getLsbD_eq
  intro i hi
  rw [getLsbD_getField, getLsbD_setField, BitVec.getLsbD_and, getLsbD_lowMask]
  by_cases h : i < (Config.layout f).width <;> simp [h, hi]

theorem getField_setField_other (w : Word) (f g : Field) (v : Word) (hr : fieldReg f = fieldReg g) (hne : f ≠ g) :
    getField (setField w g v) f = getField w f := by
  have := layout_disjoint f g hr hne
  apply BitVec.eq_of_getLsbD_eq
  intro i hi
  rw [getLsbD_getField, getLsbD_getField, getLsbD_setField]
  by_cases h : i < (Config.layout f).width
  · rw [if_neg (by omega)]
  · simp [h]

theorem getField_and (a b : Word) (f : Field) : getField (a &&& b) f = getField a f &&& getField b f := by
  apply BitVec.eq_of_getLsbD_eq
  intro i hi
  simp only [getLsbD_getField, BitVec.getLsbD_and]
  cases decide (i < (Config.layout f).width) <;> simp

theorem getField_or (a b : Word) (f : Field) : getField (a ||| b) f = getField a f ||| getField b f := by
  apply BitVec.eq_of_getLsbD_eq
  intro i hi
  simp only [getLsbD_getField, BitVec.getLsbD_or]
  cases decide (i < (Config.layout f).width) <;> simp

theorem mem_allFields (f : Field) : f ∈ allFields := by cases f <;> decide

/-- The bits of a field in a class mask of its register: all of them for its own class, none for another. -/
theorem getField_classMask (f : Field) (c : FieldClass) :
    getField (classMask (fieldReg f) c) f =
      if fieldClass f = c then lowMask (Config.layout f).width else 0 := by
  cases f <;> cases c <;> decide

theorem getField_rwMask (f : Field) :
    getField (rwMask (fieldReg f)) f = if fieldClass f = .rw then lowMask (Config.layout f).width else 0 := by
  cases f <;> decide

theorem getField_and_lowMask (w : Word) (f : Field) :
    getField w f &&& lowMask (Config.layout f).width = getField w f := by
  simp [getField, BitVec.and_assoc]

/-- A written rw field reads back as written, an rh field as it was, a w1t field as 0 (20_memory R61). -/
theorem getField_writtenWord (f : Field) (old w : Word) :
    getField (writtenWord (fieldReg f) old w) f =
      match fieldClass f with
      | .rw => getField w f
      | .rh => getField old f
      | .w1t => 0 := by
  rw [writtenWord, getField_or, getField_and, getField_and, getField_classMask, getField_rwMask]
  cases h : fieldClass f <;> simp [getField_and_lowMask]

theorem sfrGet_sfrSet_same (f : SfrFile) (r : Reg) (w : Word) : sfrGet (sfrSet f r w) r = w := by
  cases r <;> rfl

theorem sfrGet_sfrSet_other (f : SfrFile) (r r' : Reg) (w : Word) (h : r' ≠ r) :
    sfrGet (sfrSet f r w) r' = sfrGet f r' := by
  cases r <;> cases r' <;> first | rfl | exact absurd rfl h

/-! ## Several fields of one word -/

@[simp] theorem setFields_nil (w : Word) : setFields w [] = w := rfl

theorem setFields_cons (w : Word) (p : Field × Word) (l : List (Field × Word)) :
    setFields w (p :: l) = setFields (setField w p.1 p.2) l := rfl

/-- A bit outside every listed field is kept. -/
theorem getLsbD_setFields_outside (l : List (Field × Word)) (w : Word) (i : Nat)
    (h : ∀ p ∈ l, ¬ ((Config.layout p.1).lo ≤ i ∧ i < (Config.layout p.1).lo + (Config.layout p.1).width)) :
    (setFields w l).getLsbD i = w.getLsbD i := by
  induction l generalizing w with
  | nil => rfl
  | cons p l ih =>
    rw [setFields_cons, ih _ (fun q hq => h q (List.mem_cons_of_mem _ hq)), getLsbD_setField,
      if_neg (h p List.mem_cons_self)]

/-- A field of the register that is not listed is kept. -/
theorem getField_setFields_other (l : List (Field × Word)) (w : Word) (f : Field)
    (hr : ∀ p ∈ l, fieldReg p.1 = fieldReg f) (hf : f ∉ l.map Prod.fst) : getField (setFields w l) f = getField w f := by
  induction l generalizing w with
  | nil => rfl
  | cons p l ih =>
    simp only [List.map_cons, List.mem_cons, not_or] at hf
    rw [setFields_cons, ih _ (fun q hq => hr q (List.mem_cons_of_mem _ hq)) hf.2,
      getField_setField_other _ _ _ _ (hr p List.mem_cons_self).symm hf.1]

/-- Each listed field reads back as the low bits of its value. -/
theorem getField_setFields_of_mem (r : Reg) (l : List (Field × Word)) (w : Word) (hr : ∀ p ∈ l, fieldReg p.1 = r)
    (hn : (l.map Prod.fst).Nodup) (p : Field × Word) (hp : p ∈ l) :
    getField (setFields w l) p.1 = p.2 &&& lowMask (Config.layout p.1).width := by
  induction l generalizing w with
  | nil => cases hp
  | cons q l ih =>
    simp only [List.map_cons, List.nodup_cons] at hn
    rcases List.mem_cons.mp hp with rfl | hp
    · have hreg : ∀ x ∈ l, fieldReg x.1 = fieldReg p.1 := fun x hx =>
        (hr x (List.mem_cons_of_mem _ hx)).trans (hr p List.mem_cons_self).symm
      rw [setFields_cons, getField_setFields_other l _ _ hreg hn.1, getField_setField_same]
    · exact ih _ (fun x hx => hr x (List.mem_cons_of_mem _ hx)) hn.2 hp

end Sys2Proof.Machine
end

