-- ==== Sys2Proof/Laws/State.lean ====
section
/-! SUPPORT. One lemma for each field of State and each update of it, true by unfolding the update once, so that no later proof
unfolds a record update; and the same for the values read from the register file. -/

namespace Sys2Proof.Machine

/-! ### goto -/

@[simp] theorem goto_cmd (l : UStep) (s : State) : (goto l s).cmd = s.cmd := rfl
@[simp] theorem goto_busy (l : UStep) (s : State) : (goto l s).busy = s.busy := rfl
@[simp] theorem goto_fail (l : UStep) (s : State) : (goto l s).fail = s.fail := rfl
@[simp] theorem goto_err (l : UStep) (s : State) : (goto l s).err = s.err := rfl
@[simp] theorem goto_res (l : UStep) (s : State) : (goto l s).res = s.res := rfl
@[simp] theorem goto_seq (l : UStep) (s : State) : (goto l s).seq = s.seq := rfl
@[simp] theorem goto_seqi (l : UStep) (s : State) : (goto l s).seqi = s.seqi := rfl
@[simp] theorem goto_ustep (l : UStep) (s : State) : (goto l s).ustep = l := rfl
@[simp] theorem goto_savedTrap (l : UStep) (s : State) : (goto l s).savedTrap = s.savedTrap := rfl
@[simp] theorem goto_heldCpu (l : UStep) (s : State) : (goto l s).heldCpu = s.heldCpu := rfl
@[simp] theorem goto_heldSafety (l : UStep) (s : State) : (goto l s).heldSafety = s.heldSafety := rfl
@[simp] theorem goto_pwCpu (l : UStep) (s : State) : (goto l s).pwCpu = s.pwCpu := rfl
@[simp] theorem goto_pwSafety (l : UStep) (s : State) : (goto l s).pwSafety = s.pwSafety := rfl
@[simp] theorem goto_oscok (l : UStep) (s : State) : (goto l s).oscok = s.oscok := rfl
@[simp] theorem goto_elockok (l : UStep) (s : State) : (goto l s).elockok = s.elockok := rfl
@[simp] theorem goto_loopi (l : UStep) (s : State) : (goto l s).loopi = s.loopi := rfl
@[simp] theorem goto_pollcnt (l : UStep) (s : State) : (goto l s).pollcnt = s.pollcnt := rfl
@[simp] theorem goto_wstart (l : UStep) (s : State) : (goto l s).wstart = s.wstart := rfl
@[simp] theorem goto_wtarget (l : UStep) (s : State) : (goto l s).wtarget = s.wtarget := rfl
@[simp] theorem goto_cfg (l : UStep) (s : State) : (goto l s).cfg = s.cfg := rfl
@[simp] theorem goto_ecfg (l : UStep) (s : State) : (goto l s).ecfg = s.ecfg := rfl
@[simp] theorem goto_ext (l : UStep) (s : State) : (goto l s).ext = s.ext := rfl
@[simp] theorem goto_phase (l : UStep) (s : State) : (goto l s).phase = .entry := rfl
@[simp] theorem goto_port (l : UStep) (s : State) : (goto l s).port = s.port := rfl
@[simp] theorem goto_agenda (l : UStep) (s : State) : (goto l s).agenda = s.agenda := rfl
@[simp] theorem goto_tick (l : UStep) (s : State) : (goto l s).tick = s.tick := rfl
@[simp] theorem goto_draws (l : UStep) (s : State) : (goto l s).draws = s.draws := rfl
@[simp] theorem goto_between (l : UStep) (s : State) : (goto l s).between = s.between := rfl

/-! ### setSeq -/

@[simp] theorem setSeq_cmd (n : SeqName) (s : State) : (setSeq n s).cmd = s.cmd := rfl
@[simp] theorem setSeq_busy (n : SeqName) (s : State) : (setSeq n s).busy = s.busy := rfl
@[simp] theorem setSeq_fail (n : SeqName) (s : State) : (setSeq n s).fail = s.fail := rfl
@[simp] theorem setSeq_err (n : SeqName) (s : State) : (setSeq n s).err = s.err := rfl
@[simp] theorem setSeq_res (n : SeqName) (s : State) : (setSeq n s).res = s.res := rfl
@[simp] theorem setSeq_seq (n : SeqName) (s : State) : (setSeq n s).seq = n := rfl
@[simp] theorem setSeq_seqi (n : SeqName) (s : State) : (setSeq n s).seqi = s.seqi := rfl
@[simp] theorem setSeq_ustep (n : SeqName) (s : State) : (setSeq n s).ustep = s.ustep := rfl
@[simp] theorem setSeq_savedTrap (n : SeqName) (s : State) : (setSeq n s).savedTrap = s.savedTrap := rfl
@[simp] theorem setSeq_heldCpu (n : SeqName) (s : State) : (setSeq n s).heldCpu = s.heldCpu := rfl
@[simp] theorem setSeq_heldSafety (n : SeqName) (s : State) : (setSeq n s).heldSafety = s.heldSafety := rfl
@[simp] theorem setSeq_pwCpu (n : SeqName) (s : State) : (setSeq n s).pwCpu = s.pwCpu := rfl
@[simp] theorem setSeq_pwSafety (n : SeqName) (s : State) : (setSeq n s).pwSafety = s.pwSafety := rfl
@[simp] theorem setSeq_oscok (n : SeqName) (s : State) : (setSeq n s).oscok = s.oscok := rfl
@[simp] theorem setSeq_elockok (n : SeqName) (s : State) : (setSeq n s).elockok = s.elockok := rfl
@[simp] theorem setSeq_loopi (n : SeqName) (s : State) : (setSeq n s).loopi = s.loopi := rfl
@[simp] theorem setSeq_pollcnt (n : SeqName) (s : State) : (setSeq n s).pollcnt = s.pollcnt := rfl
@[simp] theorem setSeq_wstart (n : SeqName) (s : State) : (setSeq n s).wstart = s.wstart := rfl
@[simp] theorem setSeq_wtarget (n : SeqName) (s : State) : (setSeq n s).wtarget = s.wtarget := rfl
@[simp] theorem setSeq_cfg (n : SeqName) (s : State) : (setSeq n s).cfg = s.cfg := rfl
@[simp] theorem setSeq_ecfg (n : SeqName) (s : State) : (setSeq n s).ecfg = s.ecfg := rfl
@[simp] theorem setSeq_ext (n : SeqName) (s : State) : (setSeq n s).ext = s.ext := rfl
@[simp] theorem setSeq_phase (n : SeqName) (s : State) : (setSeq n s).phase = s.phase := rfl
@[simp] theorem setSeq_port (n : SeqName) (s : State) : (setSeq n s).port = s.port := rfl
@[simp] theorem setSeq_agenda (n : SeqName) (s : State) : (setSeq n s).agenda = s.agenda := rfl
@[simp] theorem setSeq_tick (n : SeqName) (s : State) : (setSeq n s).tick = s.tick := rfl
@[simp] theorem setSeq_draws (n : SeqName) (s : State) : (setSeq n s).draws = s.draws := rfl
@[simp] theorem setSeq_between (n : SeqName) (s : State) : (setSeq n s).between = s.between := rfl

/-! ### setSeqAt -/

@[simp] theorem setSeqAt_cmd (n : SeqName) (i : Nat) (s : State) : (setSeqAt n i s).cmd = s.cmd := rfl
@[simp] theorem setSeqAt_busy (n : SeqName) (i : Nat) (s : State) : (setSeqAt n i s).busy = s.busy := rfl
@[simp] theorem setSeqAt_fail (n : SeqName) (i : Nat) (s : State) : (setSeqAt n i s).fail = s.fail := rfl
@[simp] theorem setSeqAt_err (n : SeqName) (i : Nat) (s : State) : (setSeqAt n i s).err = s.err := rfl
@[simp] theorem setSeqAt_res (n : SeqName) (i : Nat) (s : State) : (setSeqAt n i s).res = s.res := rfl
@[simp] theorem setSeqAt_seq (n : SeqName) (i : Nat) (s : State) : (setSeqAt n i s).seq = n := rfl
@[simp] theorem setSeqAt_seqi (n : SeqName) (i : Nat) (s : State) : (setSeqAt n i s).seqi = i := rfl
@[simp] theorem setSeqAt_ustep (n : SeqName) (i : Nat) (s : State) : (setSeqAt n i s).ustep = s.ustep := rfl
@[simp] theorem setSeqAt_savedTrap (n : SeqName) (i : Nat) (s : State) : (setSeqAt n i s).savedTrap = s.savedTrap := rfl
@[simp] theorem setSeqAt_heldCpu (n : SeqName) (i : Nat) (s : State) : (setSeqAt n i s).heldCpu = s.heldCpu := rfl
@[simp] theorem setSeqAt_heldSafety (n : SeqName) (i : Nat) (s : State) : (setSeqAt n i s).heldSafety = s.heldSafety := rfl
@[simp] theorem setSeqAt_pwCpu (n : SeqName) (i : Nat) (s : State) : (setSeqAt n i s).pwCpu = s.pwCpu := rfl
@[simp] theorem setSeqAt_pwSafety (n : SeqName) (i : Nat) (s : State) : (setSeqAt n i s).pwSafety = s.pwSafety := rfl
@[simp] theorem setSeqAt_oscok (n : SeqName) (i : Nat) (s : State) : (setSeqAt n i s).oscok = s.oscok := rfl
@[simp] theorem setSeqAt_elockok (n : SeqName) (i : Nat) (s : State) : (setSeqAt n i s).elockok = s.elockok := rfl
@[simp] theorem setSeqAt_loopi (n : SeqName) (i : Nat) (s : State) : (setSeqAt n i s).loopi = s.loopi := rfl
@[simp] theorem setSeqAt_pollcnt (n : SeqName) (i : Nat) (s : State) : (setSeqAt n i s).pollcnt = s.pollcnt := rfl
@[simp] theorem setSeqAt_wstart (n : SeqName) (i : Nat) (s : State) : (setSeqAt n i s).wstart = s.wstart := rfl
@[simp] theorem setSeqAt_wtarget (n : SeqName) (i : Nat) (s : State) : (setSeqAt n i s).wtarget = s.wtarget := rfl
@[simp] theorem setSeqAt_cfg (n : SeqName) (i : Nat) (s : State) : (setSeqAt n i s).cfg = s.cfg := rfl
@[simp] theorem setSeqAt_ecfg (n : SeqName) (i : Nat) (s : State) : (setSeqAt n i s).ecfg = s.ecfg := rfl
@[simp] theorem setSeqAt_ext (n : SeqName) (i : Nat) (s : State) : (setSeqAt n i s).ext = s.ext := rfl
@[simp] theorem setSeqAt_phase (n : SeqName) (i : Nat) (s : State) : (setSeqAt n i s).phase = s.phase := rfl
@[simp] theorem setSeqAt_port (n : SeqName) (i : Nat) (s : State) : (setSeqAt n i s).port = s.port := rfl
@[simp] theorem setSeqAt_agenda (n : SeqName) (i : Nat) (s : State) : (setSeqAt n i s).agenda = s.agenda := rfl
@[simp] theorem setSeqAt_tick (n : SeqName) (i : Nat) (s : State) : (setSeqAt n i s).tick = s.tick := rfl
@[simp] theorem setSeqAt_draws (n : SeqName) (i : Nat) (s : State) : (setSeqAt n i s).draws = s.draws := rfl
@[simp] theorem setSeqAt_between (n : SeqName) (i : Nat) (s : State) : (setSeqAt n i s).between = s.between := rfl

/-! ### emit -/

@[simp] theorem emit_cmd (e : PortEvent) (s : State) : (emit e s).cmd = s.cmd := rfl
@[simp] theorem emit_busy (e : PortEvent) (s : State) : (emit e s).busy = s.busy := rfl
@[simp] theorem emit_fail (e : PortEvent) (s : State) : (emit e s).fail = s.fail := rfl
@[simp] theorem emit_err (e : PortEvent) (s : State) : (emit e s).err = s.err := rfl
@[simp] theorem emit_res (e : PortEvent) (s : State) : (emit e s).res = s.res := rfl
@[simp] theorem emit_seq (e : PortEvent) (s : State) : (emit e s).seq = s.seq := rfl
@[simp] theorem emit_seqi (e : PortEvent) (s : State) : (emit e s).seqi = s.seqi := rfl
@[simp] theorem emit_ustep (e : PortEvent) (s : State) : (emit e s).ustep = s.ustep := rfl
@[simp] theorem emit_savedTrap (e : PortEvent) (s : State) : (emit e s).savedTrap = s.savedTrap := rfl
@[simp] theorem emit_heldCpu (e : PortEvent) (s : State) : (emit e s).heldCpu = s.heldCpu := rfl
@[simp] theorem emit_heldSafety (e : PortEvent) (s : State) : (emit e s).heldSafety = s.heldSafety := rfl
@[simp] theorem emit_pwCpu (e : PortEvent) (s : State) : (emit e s).pwCpu = s.pwCpu := rfl
@[simp] theorem emit_pwSafety (e : PortEvent) (s : State) : (emit e s).pwSafety = s.pwSafety := rfl
@[simp] theorem emit_oscok (e : PortEvent) (s : State) : (emit e s).oscok = s.oscok := rfl
@[simp] theorem emit_elockok (e : PortEvent) (s : State) : (emit e s).elockok = s.elockok := rfl
@[simp] theorem emit_loopi (e : PortEvent) (s : State) : (emit e s).loopi = s.loopi := rfl
@[simp] theorem emit_pollcnt (e : PortEvent) (s : State) : (emit e s).pollcnt = s.pollcnt := rfl
@[simp] theorem emit_wstart (e : PortEvent) (s : State) : (emit e s).wstart = s.wstart := rfl
@[simp] theorem emit_wtarget (e : PortEvent) (s : State) : (emit e s).wtarget = s.wtarget := rfl
@[simp] theorem emit_cfg (e : PortEvent) (s : State) : (emit e s).cfg = s.cfg := rfl
@[simp] theorem emit_ecfg (e : PortEvent) (s : State) : (emit e s).ecfg = s.ecfg := rfl
@[simp] theorem emit_ext (e : PortEvent) (s : State) : (emit e s).ext = s.ext := rfl
@[simp] theorem emit_phase (e : PortEvent) (s : State) : (emit e s).phase = s.phase := rfl
@[simp] theorem emit_port (e : PortEvent) (s : State) : (emit e s).port = e :: s.port := rfl
@[simp] theorem emit_agenda (e : PortEvent) (s : State) : (emit e s).agenda = s.agenda := rfl
@[simp] theorem emit_tick (e : PortEvent) (s : State) : (emit e s).tick = s.tick := rfl
@[simp] theorem emit_draws (e : PortEvent) (s : State) : (emit e s).draws = s.draws := rfl
@[simp] theorem emit_between (e : PortEvent) (s : State) : (emit e s).between = s.between := rfl

/-! ### sfrRead -/

@[simp] theorem sfrRead_cmd (r : Reg) (s : State) : (sfrRead r s).cmd = s.cmd := rfl
@[simp] theorem sfrRead_busy (r : Reg) (s : State) : (sfrRead r s).busy = s.busy := rfl
@[simp] theorem sfrRead_fail (r : Reg) (s : State) : (sfrRead r s).fail = s.fail := rfl
@[simp] theorem sfrRead_err (r : Reg) (s : State) : (sfrRead r s).err = s.err := rfl
@[simp] theorem sfrRead_res (r : Reg) (s : State) : (sfrRead r s).res = s.res := rfl
@[simp] theorem sfrRead_seq (r : Reg) (s : State) : (sfrRead r s).seq = s.seq := rfl
@[simp] theorem sfrRead_seqi (r : Reg) (s : State) : (sfrRead r s).seqi = s.seqi := rfl
@[simp] theorem sfrRead_ustep (r : Reg) (s : State) : (sfrRead r s).ustep = s.ustep := rfl
@[simp] theorem sfrRead_savedTrap (r : Reg) (s : State) : (sfrRead r s).savedTrap = s.savedTrap := rfl
@[simp] theorem sfrRead_heldCpu (r : Reg) (s : State) : (sfrRead r s).heldCpu = s.heldCpu := rfl
@[simp] theorem sfrRead_heldSafety (r : Reg) (s : State) : (sfrRead r s).heldSafety = s.heldSafety := rfl
@[simp] theorem sfrRead_pwCpu (r : Reg) (s : State) : (sfrRead r s).pwCpu = s.pwCpu := rfl
@[simp] theorem sfrRead_pwSafety (r : Reg) (s : State) : (sfrRead r s).pwSafety = s.pwSafety := rfl
@[simp] theorem sfrRead_oscok (r : Reg) (s : State) : (sfrRead r s).oscok = s.oscok := rfl
@[simp] theorem sfrRead_elockok (r : Reg) (s : State) : (sfrRead r s).elockok = s.elockok := rfl
@[simp] theorem sfrRead_loopi (r : Reg) (s : State) : (sfrRead r s).loopi = s.loopi := rfl
@[simp] theorem sfrRead_pollcnt (r : Reg) (s : State) : (sfrRead r s).pollcnt = s.pollcnt := rfl
@[simp] theorem sfrRead_wstart (r : Reg) (s : State) : (sfrRead r s).wstart = s.wstart := rfl
@[simp] theorem sfrRead_wtarget (r : Reg) (s : State) : (sfrRead r s).wtarget = s.wtarget := rfl
@[simp] theorem sfrRead_cfg (r : Reg) (s : State) : (sfrRead r s).cfg = s.cfg := rfl
@[simp] theorem sfrRead_ecfg (r : Reg) (s : State) : (sfrRead r s).ecfg = s.ecfg := rfl
@[simp] theorem sfrRead_ext (r : Reg) (s : State) : (sfrRead r s).ext = s.ext := rfl
@[simp] theorem sfrRead_phase (r : Reg) (s : State) : (sfrRead r s).phase = s.phase := rfl
@[simp] theorem sfrRead_port (r : Reg) (s : State) : (sfrRead r s).port = .read r (sfrValue s r) :: s.port := rfl
@[simp] theorem sfrRead_agenda (r : Reg) (s : State) : (sfrRead r s).agenda = s.agenda := rfl
@[simp] theorem sfrRead_tick (r : Reg) (s : State) : (sfrRead r s).tick = s.tick := rfl
@[simp] theorem sfrRead_draws (r : Reg) (s : State) : (sfrRead r s).draws = s.draws := rfl
@[simp] theorem sfrRead_between (r : Reg) (s : State) : (sfrRead r s).between = s.between := rfl

/-! ### sfrStore -/

@[simp] theorem sfrStore_cmd (r : Reg) (w : Word) (s : State) : (sfrStore r w s).cmd = s.cmd := rfl
@[simp] theorem sfrStore_busy (r : Reg) (w : Word) (s : State) : (sfrStore r w s).busy = s.busy := rfl
@[simp] theorem sfrStore_fail (r : Reg) (w : Word) (s : State) : (sfrStore r w s).fail = s.fail := rfl
@[simp] theorem sfrStore_err (r : Reg) (w : Word) (s : State) : (sfrStore r w s).err = s.err := rfl
@[simp] theorem sfrStore_res (r : Reg) (w : Word) (s : State) : (sfrStore r w s).res = s.res := rfl
@[simp] theorem sfrStore_seq (r : Reg) (w : Word) (s : State) : (sfrStore r w s).seq = s.seq := rfl
@[simp] theorem sfrStore_seqi (r : Reg) (w : Word) (s : State) : (sfrStore r w s).seqi = s.seqi := rfl
@[simp] theorem sfrStore_ustep (r : Reg) (w : Word) (s : State) : (sfrStore r w s).ustep = s.ustep := rfl
@[simp] theorem sfrStore_savedTrap (r : Reg) (w : Word) (s : State) : (sfrStore r w s).savedTrap = s.savedTrap := rfl
@[simp] theorem sfrStore_heldCpu (r : Reg) (w : Word) (s : State) : (sfrStore r w s).heldCpu = s.heldCpu := rfl
@[simp] theorem sfrStore_heldSafety (r : Reg) (w : Word) (s : State) : (sfrStore r w s).heldSafety = s.heldSafety := rfl
@[simp] theorem sfrStore_pwCpu (r : Reg) (w : Word) (s : State) : (sfrStore r w s).pwCpu = s.pwCpu := rfl
@[simp] theorem sfrStore_pwSafety (r : Reg) (w : Word) (s : State) : (sfrStore r w s).pwSafety = s.pwSafety := rfl
@[simp] theorem sfrStore_oscok (r : Reg) (w : Word) (s : State) : (sfrStore r w s).oscok = s.oscok := rfl
@[simp] theorem sfrStore_elockok (r : Reg) (w : Word) (s : State) : (sfrStore r w s).elockok = s.elockok := rfl
@[simp] theorem sfrStore_loopi (r : Reg) (w : Word) (s : State) : (sfrStore r w s).loopi = s.loopi := rfl
@[simp] theorem sfrStore_pollcnt (r : Reg) (w : Word) (s : State) : (sfrStore r w s).pollcnt = s.pollcnt := rfl
@[simp] theorem sfrStore_wstart (r : Reg) (w : Word) (s : State) : (sfrStore r w s).wstart = s.wstart := rfl
@[simp] theorem sfrStore_wtarget (r : Reg) (w : Word) (s : State) : (sfrStore r w s).wtarget = s.wtarget := rfl
@[simp] theorem sfrStore_cfg (r : Reg) (w : Word) (s : State) : (sfrStore r w s).cfg = s.cfg := rfl
@[simp] theorem sfrStore_ecfg (r : Reg) (w : Word) (s : State) : (sfrStore r w s).ecfg = s.ecfg := rfl
@[simp] theorem sfrStore_ext (r : Reg) (w : Word) (s : State) : (sfrStore r w s).ext = { s.ext with sfr := sfrSet s.ext.sfr r (writtenWord r (sfrGet s.ext.sfr r) w) } := rfl
@[simp] theorem sfrStore_phase (r : Reg) (w : Word) (s : State) : (sfrStore r w s).phase = s.phase := rfl
@[simp] theorem sfrStore_port (r : Reg) (w : Word) (s : State) : (sfrStore r w s).port = .write r w :: s.port := rfl
@[simp] theorem sfrStore_agenda (r : Reg) (w : Word) (s : State) : (sfrStore r w s).agenda = s.agenda := rfl
@[simp] theorem sfrStore_tick (r : Reg) (w : Word) (s : State) : (sfrStore r w s).tick = s.tick := rfl
@[simp] theorem sfrStore_draws (r : Reg) (w : Word) (s : State) : (sfrStore r w s).draws = s.draws := rfl
@[simp] theorem sfrStore_between (r : Reg) (w : Word) (s : State) : (sfrStore r w s).between = s.between := rfl

/-! ### acquire -/

@[simp] theorem acquire_cmd (d : Domain) (s : State) : (acquire d s).cmd = s.cmd := by cases d <;> simp [acquire, emit, offeredPassword]
@[simp] theorem acquire_busy (d : Domain) (s : State) : (acquire d s).busy = s.busy := by cases d <;> simp [acquire, emit, offeredPassword]
@[simp] theorem acquire_fail (d : Domain) (s : State) : (acquire d s).fail = s.fail := by cases d <;> simp [acquire, emit, offeredPassword]
@[simp] theorem acquire_err (d : Domain) (s : State) : (acquire d s).err = s.err := by cases d <;> simp [acquire, emit, offeredPassword]
@[simp] theorem acquire_res (d : Domain) (s : State) : (acquire d s).res = s.res := by cases d <;> simp [acquire, emit, offeredPassword]
@[simp] theorem acquire_seq (d : Domain) (s : State) : (acquire d s).seq = s.seq := by cases d <;> simp [acquire, emit, offeredPassword]
@[simp] theorem acquire_seqi (d : Domain) (s : State) : (acquire d s).seqi = s.seqi := by cases d <;> simp [acquire, emit, offeredPassword]
@[simp] theorem acquire_ustep (d : Domain) (s : State) : (acquire d s).ustep = s.ustep := by cases d <;> simp [acquire, emit, offeredPassword]
@[simp] theorem acquire_savedTrap (d : Domain) (s : State) : (acquire d s).savedTrap = s.savedTrap := by cases d <;> simp [acquire, emit, offeredPassword]
@[simp] theorem acquire_heldCpu (d : Domain) (s : State) : (acquire d s).heldCpu = (s.heldCpu || decide (d = .cpu)) := by cases d <;> simp [acquire, emit, offeredPassword]
@[simp] theorem acquire_heldSafety (d : Domain) (s : State) : (acquire d s).heldSafety = (s.heldSafety || decide (d = .safety)) := by cases d <;> simp [acquire, emit, offeredPassword]
@[simp] theorem acquire_pwCpu (d : Domain) (s : State) : (acquire d s).pwCpu = (if d = .cpu then s.ext.pwCpu else s.pwCpu) := by cases d <;> simp [acquire, emit, offeredPassword]
@[simp] theorem acquire_pwSafety (d : Domain) (s : State) : (acquire d s).pwSafety = (if d = .safety then s.ext.pwSafety else s.pwSafety) := by cases d <;> simp [acquire, emit, offeredPassword]
@[simp] theorem acquire_oscok (d : Domain) (s : State) : (acquire d s).oscok = s.oscok := by cases d <;> simp [acquire, emit, offeredPassword]
@[simp] theorem acquire_elockok (d : Domain) (s : State) : (acquire d s).elockok = s.elockok := by cases d <;> simp [acquire, emit, offeredPassword]
@[simp] theorem acquire_loopi (d : Domain) (s : State) : (acquire d s).loopi = s.loopi := by cases d <;> simp [acquire, emit, offeredPassword]
@[simp] theorem acquire_pollcnt (d : Domain) (s : State) : (acquire d s).pollcnt = s.pollcnt := by cases d <;> simp [acquire, emit, offeredPassword]
@[simp] theorem acquire_wstart (d : Domain) (s : State) : (acquire d s).wstart = s.wstart := by cases d <;> simp [acquire, emit, offeredPassword]
@[simp] theorem acquire_wtarget (d : Domain) (s : State) : (acquire d s).wtarget = s.wtarget := by cases d <;> simp [acquire, emit, offeredPassword]
@[simp] theorem acquire_cfg (d : Domain) (s : State) : (acquire d s).cfg = s.cfg := by cases d <;> simp [acquire, emit, offeredPassword]
@[simp] theorem acquire_ecfg (d : Domain) (s : State) : (acquire d s).ecfg = s.ecfg := by cases d <;> simp [acquire, emit, offeredPassword]
@[simp] theorem acquire_ext (d : Domain) (s : State) : (acquire d s).ext = s.ext := by cases d <;> simp [acquire, emit, offeredPassword]
@[simp] theorem acquire_phase (d : Domain) (s : State) : (acquire d s).phase = s.phase := by cases d <;> simp [acquire, emit, offeredPassword]
@[simp] theorem acquire_port (d : Domain) (s : State) : (acquire d s).port = .acquire d (offeredPassword s d) :: .password d (offeredPassword s d) :: s.port := by cases d <;> simp [acquire, emit, offeredPassword]
@[simp] theorem acquire_agenda (d : Domain) (s : State) : (acquire d s).agenda = s.agenda := by cases d <;> simp [acquire, emit, offeredPassword]
@[simp] theorem acquire_tick (d : Domain) (s : State) : (acquire d s).tick = s.tick := by cases d <;> simp [acquire, emit, offeredPassword]
@[simp] theorem acquire_draws (d : Domain) (s : State) : (acquire d s).draws = s.draws := by cases d <;> simp [acquire, emit, offeredPassword]
@[simp] theorem acquire_between (d : Domain) (s : State) : (acquire d s).between = s.between := by cases d <;> simp [acquire, emit, offeredPassword]

/-! ### release -/

@[simp] theorem release_cmd (d : Domain) (s : State) : (release d s).cmd = s.cmd := by cases d <;> simp [release, emit]
@[simp] theorem release_busy (d : Domain) (s : State) : (release d s).busy = s.busy := by cases d <;> simp [release, emit]
@[simp] theorem release_fail (d : Domain) (s : State) : (release d s).fail = s.fail := by cases d <;> simp [release, emit]
@[simp] theorem release_err (d : Domain) (s : State) : (release d s).err = s.err := by cases d <;> simp [release, emit]
@[simp] theorem release_res (d : Domain) (s : State) : (release d s).res = s.res := by cases d <;> simp [release, emit]
@[simp] theorem release_seq (d : Domain) (s : State) : (release d s).seq = s.seq := by cases d <;> simp [release, emit]
@[simp] theorem release_seqi (d : Domain) (s : State) : (release d s).seqi = s.seqi := by cases d <;> simp [release, emit]
@[simp] theorem release_ustep (d : Domain) (s : State) : (release d s).ustep = s.ustep := by cases d <;> simp [release, emit]
@[simp] theorem release_savedTrap (d : Domain) (s : State) : (release d s).savedTrap = s.savedTrap := by cases d <;> simp [release, emit]
@[simp] theorem release_heldCpu (d : Domain) (s : State) : (release d s).heldCpu = (s.heldCpu && decide (d ≠ .cpu)) := by cases d <;> simp [release, emit]
@[simp] theorem release_heldSafety (d : Domain) (s : State) : (release d s).heldSafety = (s.heldSafety && decide (d ≠ .safety)) := by cases d <;> simp [release, emit]
@[simp] theorem release_pwCpu (d : Domain) (s : State) : (release d s).pwCpu = s.pwCpu := by cases d <;> simp [release, emit]
@[simp] theorem release_pwSafety (d : Domain) (s : State) : (release d s).pwSafety = s.pwSafety := by cases d <;> simp [release, emit]
@[simp] theorem release_oscok (d : Domain) (s : State) : (release d s).oscok = s.oscok := by cases d <;> simp [release, emit]
@[simp] theorem release_elockok (d : Domain) (s : State) : (release d s).elockok = s.elockok := by cases d <;> simp [release, emit]
@[simp] theorem release_loopi (d : Domain) (s : State) : (release d s).loopi = s.loopi := by cases d <;> simp [release, emit]
@[simp] theorem release_pollcnt (d : Domain) (s : State) : (release d s).pollcnt = s.pollcnt := by cases d <;> simp [release, emit]
@[simp] theorem release_wstart (d : Domain) (s : State) : (release d s).wstart = s.wstart := by cases d <;> simp [release, emit]
@[simp] theorem release_wtarget (d : Domain) (s : State) : (release d s).wtarget = s.wtarget := by cases d <;> simp [release, emit]
@[simp] theorem release_cfg (d : Domain) (s : State) : (release d s).cfg = s.cfg := by cases d <;> simp [release, emit]
@[simp] theorem release_ecfg (d : Domain) (s : State) : (release d s).ecfg = s.ecfg := by cases d <;> simp [release, emit]
@[simp] theorem release_ext (d : Domain) (s : State) : (release d s).ext = s.ext := by cases d <;> simp [release, emit]
@[simp] theorem release_phase (d : Domain) (s : State) : (release d s).phase = s.phase := by cases d <;> simp [release, emit]
@[simp] theorem release_port (d : Domain) (s : State) : (release d s).port = .release d (fetchedPassword s d) :: s.port := by cases d <;> simp [release, emit]
@[simp] theorem release_agenda (d : Domain) (s : State) : (release d s).agenda = s.agenda := by cases d <;> simp [release, emit]
@[simp] theorem release_tick (d : Domain) (s : State) : (release d s).tick = s.tick := by cases d <;> simp [release, emit]
@[simp] theorem release_draws (d : Domain) (s : State) : (release d s).draws = s.draws := by cases d <;> simp [release, emit]
@[simp] theorem release_between (d : Domain) (s : State) : (release d s).between = s.between := by cases d <;> simp [release, emit]

/-! ### setResult -/

@[simp] theorem setResult_cmd (e : BitVec 3) (s : State) : (setResult e s).cmd = s.cmd := rfl
@[simp] theorem setResult_busy (e : BitVec 3) (s : State) : (setResult e s).busy = s.busy := rfl
@[simp] theorem setResult_fail (e : BitVec 3) (s : State) : (setResult e s).fail = decide (e ≠ errOk) := rfl
@[simp] theorem setResult_err (e : BitVec 3) (s : State) : (setResult e s).err = e := rfl
@[simp] theorem setResult_res (e : BitVec 3) (s : State) : (setResult e s).res = s.res := rfl
@[simp] theorem setResult_seq (e : BitVec 3) (s : State) : (setResult e s).seq = s.seq := rfl
@[simp] theorem setResult_seqi (e : BitVec 3) (s : State) : (setResult e s).seqi = s.seqi := rfl
@[simp] theorem setResult_ustep (e : BitVec 3) (s : State) : (setResult e s).ustep = s.ustep := rfl
@[simp] theorem setResult_savedTrap (e : BitVec 3) (s : State) : (setResult e s).savedTrap = s.savedTrap := rfl
@[simp] theorem setResult_heldCpu (e : BitVec 3) (s : State) : (setResult e s).heldCpu = s.heldCpu := rfl
@[simp] theorem setResult_heldSafety (e : BitVec 3) (s : State) : (setResult e s).heldSafety = s.heldSafety := rfl
@[simp] theorem setResult_pwCpu (e : BitVec 3) (s : State) : (setResult e s).pwCpu = s.pwCpu := rfl
@[simp] theorem setResult_pwSafety (e : BitVec 3) (s : State) : (setResult e s).pwSafety = s.pwSafety := rfl
@[simp] theorem setResult_oscok (e : BitVec 3) (s : State) : (setResult e s).oscok = s.oscok := rfl
@[simp] theorem setResult_elockok (e : BitVec 3) (s : State) : (setResult e s).elockok = s.elockok := rfl
@[simp] theorem setResult_loopi (e : BitVec 3) (s : State) : (setResult e s).loopi = s.loopi := rfl
@[simp] theorem setResult_pollcnt (e : BitVec 3) (s : State) : (setResult e s).pollcnt = s.pollcnt := rfl
@[simp] theorem setResult_wstart (e : BitVec 3) (s : State) : (setResult e s).wstart = s.wstart := rfl
@[simp] theorem setResult_wtarget (e : BitVec 3) (s : State) : (setResult e s).wtarget = s.wtarget := rfl
@[simp] theorem setResult_cfg (e : BitVec 3) (s : State) : (setResult e s).cfg = s.cfg := rfl
@[simp] theorem setResult_ecfg (e : BitVec 3) (s : State) : (setResult e s).ecfg = s.ecfg := rfl
@[simp] theorem setResult_ext (e : BitVec 3) (s : State) : (setResult e s).ext = s.ext := rfl
@[simp] theorem setResult_phase (e : BitVec 3) (s : State) : (setResult e s).phase = s.phase := rfl
@[simp] theorem setResult_port (e : BitVec 3) (s : State) : (setResult e s).port = s.port := rfl
@[simp] theorem setResult_agenda (e : BitVec 3) (s : State) : (setResult e s).agenda = s.agenda := rfl
@[simp] theorem setResult_tick (e : BitVec 3) (s : State) : (setResult e s).tick = s.tick := rfl
@[simp] theorem setResult_draws (e : BitVec 3) (s : State) : (setResult e s).draws = s.draws := rfl
@[simp] theorem setResult_between (e : BitVec 3) (s : State) : (setResult e s).between = s.between := rfl

/-! ### finish -/

@[simp] theorem finish_cmd (e : BitVec 3) (s : State) : (finish e s).cmd = s.cmd := rfl
@[simp] theorem finish_busy (e : BitVec 3) (s : State) : (finish e s).busy = false := rfl
@[simp] theorem finish_fail (e : BitVec 3) (s : State) : (finish e s).fail = decide (e ≠ errOk) := rfl
@[simp] theorem finish_err (e : BitVec 3) (s : State) : (finish e s).err = e := rfl
@[simp] theorem finish_res (e : BitVec 3) (s : State) : (finish e s).res = s.res := rfl
@[simp] theorem finish_seq (e : BitVec 3) (s : State) : (finish e s).seq = s.seq := rfl
@[simp] theorem finish_seqi (e : BitVec 3) (s : State) : (finish e s).seqi = s.seqi := rfl
@[simp] theorem finish_ustep (e : BitVec 3) (s : State) : (finish e s).ustep = .idle := rfl
@[simp] theorem finish_savedTrap (e : BitVec 3) (s : State) : (finish e s).savedTrap = s.savedTrap := rfl
@[simp] theorem finish_heldCpu (e : BitVec 3) (s : State) : (finish e s).heldCpu = s.heldCpu := rfl
@[simp] theorem finish_heldSafety (e : BitVec 3) (s : State) : (finish e s).heldSafety = s.heldSafety := rfl
@[simp] theorem finish_pwCpu (e : BitVec 3) (s : State) : (finish e s).pwCpu = s.pwCpu := rfl
@[simp] theorem finish_pwSafety (e : BitVec 3) (s : State) : (finish e s).pwSafety = s.pwSafety := rfl
@[simp] theorem finish_oscok (e : BitVec 3) (s : State) : (finish e s).oscok = s.oscok := rfl
@[simp] theorem finish_elockok (e : BitVec 3) (s : State) : (finish e s).elockok = s.elockok := rfl
@[simp] theorem finish_loopi (e : BitVec 3) (s : State) : (finish e s).loopi = s.loopi := rfl
@[simp] theorem finish_pollcnt (e : BitVec 3) (s : State) : (finish e s).pollcnt = s.pollcnt := rfl
@[simp] theorem finish_wstart (e : BitVec 3) (s : State) : (finish e s).wstart = s.wstart := rfl
@[simp] theorem finish_wtarget (e : BitVec 3) (s : State) : (finish e s).wtarget = s.wtarget := rfl
@[simp] theorem finish_cfg (e : BitVec 3) (s : State) : (finish e s).cfg = s.cfg := rfl
@[simp] theorem finish_ecfg (e : BitVec 3) (s : State) : (finish e s).ecfg = s.ecfg := rfl
@[simp] theorem finish_ext (e : BitVec 3) (s : State) : (finish e s).ext = s.ext := rfl
@[simp] theorem finish_phase (e : BitVec 3) (s : State) : (finish e s).phase = .entry := rfl
@[simp] theorem finish_port (e : BitVec 3) (s : State) : (finish e s).port = s.port := rfl
@[simp] theorem finish_agenda (e : BitVec 3) (s : State) : (finish e s).agenda = s.agenda := rfl
@[simp] theorem finish_tick (e : BitVec 3) (s : State) : (finish e s).tick = s.tick := rfl
@[simp] theorem finish_draws (e : BitVec 3) (s : State) : (finish e s).draws = s.draws := rfl
@[simp] theorem finish_between (e : BitVec 3) (s : State) : (finish e s).between = s.between := rfl

/-! ### setOscok -/

@[simp] theorem setOscok_cmd (b : Bool) (s : State) : (setOscok b s).cmd = s.cmd := rfl
@[simp] theorem setOscok_busy (b : Bool) (s : State) : (setOscok b s).busy = s.busy := rfl
@[simp] theorem setOscok_fail (b : Bool) (s : State) : (setOscok b s).fail = s.fail := rfl
@[simp] theorem setOscok_err (b : Bool) (s : State) : (setOscok b s).err = s.err := rfl
@[simp] theorem setOscok_res (b : Bool) (s : State) : (setOscok b s).res = s.res := rfl
@[simp] theorem setOscok_seq (b : Bool) (s : State) : (setOscok b s).seq = s.seq := rfl
@[simp] theorem setOscok_seqi (b : Bool) (s : State) : (setOscok b s).seqi = s.seqi := rfl
@[simp] theorem setOscok_ustep (b : Bool) (s : State) : (setOscok b s).ustep = s.ustep := rfl
@[simp] theorem setOscok_savedTrap (b : Bool) (s : State) : (setOscok b s).savedTrap = s.savedTrap := rfl
@[simp] theorem setOscok_heldCpu (b : Bool) (s : State) : (setOscok b s).heldCpu = s.heldCpu := rfl
@[simp] theorem setOscok_heldSafety (b : Bool) (s : State) : (setOscok b s).heldSafety = s.heldSafety := rfl
@[simp] theorem setOscok_pwCpu (b : Bool) (s : State) : (setOscok b s).pwCpu = s.pwCpu := rfl
@[simp] theorem setOscok_pwSafety (b : Bool) (s : State) : (setOscok b s).pwSafety = s.pwSafety := rfl
@[simp] theorem setOscok_oscok (b : Bool) (s : State) : (setOscok b s).oscok = b := rfl
@[simp] theorem setOscok_elockok (b : Bool) (s : State) : (setOscok b s).elockok = s.elockok := rfl
@[simp] theorem setOscok_loopi (b : Bool) (s : State) : (setOscok b s).loopi = s.loopi := rfl
@[simp] theorem setOscok_pollcnt (b : Bool) (s : State) : (setOscok b s).pollcnt = s.pollcnt := rfl
@[simp] theorem setOscok_wstart (b : Bool) (s : State) : (setOscok b s).wstart = s.wstart := rfl
@[simp] theorem setOscok_wtarget (b : Bool) (s : State) : (setOscok b s).wtarget = s.wtarget := rfl
@[simp] theorem setOscok_cfg (b : Bool) (s : State) : (setOscok b s).cfg = s.cfg := rfl
@[simp] theorem setOscok_ecfg (b : Bool) (s : State) : (setOscok b s).ecfg = s.ecfg := rfl
@[simp] theorem setOscok_ext (b : Bool) (s : State) : (setOscok b s).ext = s.ext := rfl
@[simp] theorem setOscok_phase (b : Bool) (s : State) : (setOscok b s).phase = s.phase := rfl
@[simp] theorem setOscok_port (b : Bool) (s : State) : (setOscok b s).port = s.port := rfl
@[simp] theorem setOscok_agenda (b : Bool) (s : State) : (setOscok b s).agenda = s.agenda := rfl
@[simp] theorem setOscok_tick (b : Bool) (s : State) : (setOscok b s).tick = s.tick := rfl
@[simp] theorem setOscok_draws (b : Bool) (s : State) : (setOscok b s).draws = s.draws := rfl
@[simp] theorem setOscok_between (b : Bool) (s : State) : (setOscok b s).between = s.between := rfl

/-! ### setElockok -/

@[simp] theorem setElockok_cmd (b : Bool) (s : State) : (setElockok b s).cmd = s.cmd := rfl
@[simp] theorem setElockok_busy (b : Bool) (s : State) : (setElockok b s).busy = s.busy := rfl
@[simp] theorem setElockok_fail (b : Bool) (s : State) : (setElockok b s).fail = s.fail := rfl
@[simp] theorem setElockok_err (b : Bool) (s : State) : (setElockok b s).err = s.err := rfl
@[simp] theorem setElockok_res (b : Bool) (s : State) : (setElockok b s).res = s.res := rfl
@[simp] theorem setElockok_seq (b : Bool) (s : State) : (setElockok b s).seq = s.seq := rfl
@[simp] theorem setElockok_seqi (b : Bool) (s : State) : (setElockok b s).seqi = s.seqi := rfl
@[simp] theorem setElockok_ustep (b : Bool) (s : State) : (setElockok b s).ustep = s.ustep := rfl
@[simp] theorem setElockok_savedTrap (b : Bool) (s : State) : (setElockok b s).savedTrap = s.savedTrap := rfl
@[simp] theorem setElockok_heldCpu (b : Bool) (s : State) : (setElockok b s).heldCpu = s.heldCpu := rfl
@[simp] theorem setElockok_heldSafety (b : Bool) (s : State) : (setElockok b s).heldSafety = s.heldSafety := rfl
@[simp] theorem setElockok_pwCpu (b : Bool) (s : State) : (setElockok b s).pwCpu = s.pwCpu := rfl
@[simp] theorem setElockok_pwSafety (b : Bool) (s : State) : (setElockok b s).pwSafety = s.pwSafety := rfl
@[simp] theorem setElockok_oscok (b : Bool) (s : State) : (setElockok b s).oscok = s.oscok := rfl
@[simp] theorem setElockok_elockok (b : Bool) (s : State) : (setElockok b s).elockok = b := rfl
@[simp] theorem setElockok_loopi (b : Bool) (s : State) : (setElockok b s).loopi = s.loopi := rfl
@[simp] theorem setElockok_pollcnt (b : Bool) (s : State) : (setElockok b s).pollcnt = s.pollcnt := rfl
@[simp] theorem setElockok_wstart (b : Bool) (s : State) : (setElockok b s).wstart = s.wstart := rfl
@[simp] theorem setElockok_wtarget (b : Bool) (s : State) : (setElockok b s).wtarget = s.wtarget := rfl
@[simp] theorem setElockok_cfg (b : Bool) (s : State) : (setElockok b s).cfg = s.cfg := rfl
@[simp] theorem setElockok_ecfg (b : Bool) (s : State) : (setElockok b s).ecfg = s.ecfg := rfl
@[simp] theorem setElockok_ext (b : Bool) (s : State) : (setElockok b s).ext = s.ext := rfl
@[simp] theorem setElockok_phase (b : Bool) (s : State) : (setElockok b s).phase = s.phase := rfl
@[simp] theorem setElockok_port (b : Bool) (s : State) : (setElockok b s).port = s.port := rfl
@[simp] theorem setElockok_agenda (b : Bool) (s : State) : (setElockok b s).agenda = s.agenda := rfl
@[simp] theorem setElockok_tick (b : Bool) (s : State) : (setElockok b s).tick = s.tick := rfl
@[simp] theorem setElockok_draws (b : Bool) (s : State) : (setElockok b s).draws = s.draws := rfl
@[simp] theorem setElockok_between (b : Bool) (s : State) : (setElockok b s).between = s.between := rfl

/-! ### envTurn -/

@[simp] theorem envTurn_cmd (e : Ext) (s : State) : (envTurn e s).cmd = s.cmd := rfl
@[simp] theorem envTurn_busy (e : Ext) (s : State) : (envTurn e s).busy = s.busy := rfl
@[simp] theorem envTurn_fail (e : Ext) (s : State) : (envTurn e s).fail = s.fail := rfl
@[simp] theorem envTurn_err (e : Ext) (s : State) : (envTurn e s).err = s.err := rfl
@[simp] theorem envTurn_res (e : Ext) (s : State) : (envTurn e s).res = s.res := rfl
@[simp] theorem envTurn_seq (e : Ext) (s : State) : (envTurn e s).seq = s.seq := rfl
@[simp] theorem envTurn_seqi (e : Ext) (s : State) : (envTurn e s).seqi = s.seqi := rfl
@[simp] theorem envTurn_ustep (e : Ext) (s : State) : (envTurn e s).ustep = s.ustep := rfl
@[simp] theorem envTurn_savedTrap (e : Ext) (s : State) : (envTurn e s).savedTrap = s.savedTrap := rfl
@[simp] theorem envTurn_heldCpu (e : Ext) (s : State) : (envTurn e s).heldCpu = s.heldCpu := rfl
@[simp] theorem envTurn_heldSafety (e : Ext) (s : State) : (envTurn e s).heldSafety = s.heldSafety := rfl
@[simp] theorem envTurn_pwCpu (e : Ext) (s : State) : (envTurn e s).pwCpu = s.pwCpu := rfl
@[simp] theorem envTurn_pwSafety (e : Ext) (s : State) : (envTurn e s).pwSafety = s.pwSafety := rfl
@[simp] theorem envTurn_oscok (e : Ext) (s : State) : (envTurn e s).oscok = s.oscok := rfl
@[simp] theorem envTurn_elockok (e : Ext) (s : State) : (envTurn e s).elockok = s.elockok := rfl
@[simp] theorem envTurn_loopi (e : Ext) (s : State) : (envTurn e s).loopi = s.loopi := rfl
@[simp] theorem envTurn_pollcnt (e : Ext) (s : State) : (envTurn e s).pollcnt = s.pollcnt := rfl
@[simp] theorem envTurn_wstart (e : Ext) (s : State) : (envTurn e s).wstart = s.wstart := rfl
@[simp] theorem envTurn_wtarget (e : Ext) (s : State) : (envTurn e s).wtarget = s.wtarget := rfl
@[simp] theorem envTurn_cfg (e : Ext) (s : State) : (envTurn e s).cfg = s.cfg := rfl
@[simp] theorem envTurn_ecfg (e : Ext) (s : State) : (envTurn e s).ecfg = s.ecfg := rfl
@[simp] theorem envTurn_ext (e : Ext) (s : State) : (envTurn e s).ext = e := rfl
@[simp] theorem envTurn_phase (e : Ext) (s : State) : (envTurn e s).phase = s.phase := rfl
@[simp] theorem envTurn_port (e : Ext) (s : State) : (envTurn e s).port = s.port := rfl
@[simp] theorem envTurn_agenda (e : Ext) (s : State) : (envTurn e s).agenda = s.agenda := rfl
@[simp] theorem envTurn_tick (e : Ext) (s : State) : (envTurn e s).tick = s.tick := rfl
@[simp] theorem envTurn_draws (e : Ext) (s : State) : (envTurn e s).draws = s.draws := rfl
@[simp] theorem envTurn_between (e : Ext) (s : State) : (envTurn e s).between = s.between := rfl

/-! ### setPhase -/

@[simp] theorem setPhase_cmd (p : Phase) (s : State) : (setPhase p s).cmd = s.cmd := rfl
@[simp] theorem setPhase_busy (p : Phase) (s : State) : (setPhase p s).busy = s.busy := rfl
@[simp] theorem setPhase_fail (p : Phase) (s : State) : (setPhase p s).fail = s.fail := rfl
@[simp] theorem setPhase_err (p : Phase) (s : State) : (setPhase p s).err = s.err := rfl
@[simp] theorem setPhase_res (p : Phase) (s : State) : (setPhase p s).res = s.res := rfl
@[simp] theorem setPhase_seq (p : Phase) (s : State) : (setPhase p s).seq = s.seq := rfl
@[simp] theorem setPhase_seqi (p : Phase) (s : State) : (setPhase p s).seqi = s.seqi := rfl
@[simp] theorem setPhase_ustep (p : Phase) (s : State) : (setPhase p s).ustep = s.ustep := rfl
@[simp] theorem setPhase_savedTrap (p : Phase) (s : State) : (setPhase p s).savedTrap = s.savedTrap := rfl
@[simp] theorem setPhase_heldCpu (p : Phase) (s : State) : (setPhase p s).heldCpu = s.heldCpu := rfl
@[simp] theorem setPhase_heldSafety (p : Phase) (s : State) : (setPhase p s).heldSafety = s.heldSafety := rfl
@[simp] theorem setPhase_pwCpu (p : Phase) (s : State) : (setPhase p s).pwCpu = s.pwCpu := rfl
@[simp] theorem setPhase_pwSafety (p : Phase) (s : State) : (setPhase p s).pwSafety = s.pwSafety := rfl
@[simp] theorem setPhase_oscok (p : Phase) (s : State) : (setPhase p s).oscok = s.oscok := rfl
@[simp] theorem setPhase_elockok (p : Phase) (s : State) : (setPhase p s).elockok = s.elockok := rfl
@[simp] theorem setPhase_loopi (p : Phase) (s : State) : (setPhase p s).loopi = s.loopi := rfl
@[simp] theorem setPhase_pollcnt (p : Phase) (s : State) : (setPhase p s).pollcnt = s.pollcnt := rfl
@[simp] theorem setPhase_wstart (p : Phase) (s : State) : (setPhase p s).wstart = s.wstart := rfl
@[simp] theorem setPhase_wtarget (p : Phase) (s : State) : (setPhase p s).wtarget = s.wtarget := rfl
@[simp] theorem setPhase_cfg (p : Phase) (s : State) : (setPhase p s).cfg = s.cfg := rfl
@[simp] theorem setPhase_ecfg (p : Phase) (s : State) : (setPhase p s).ecfg = s.ecfg := rfl
@[simp] theorem setPhase_ext (p : Phase) (s : State) : (setPhase p s).ext = s.ext := rfl
@[simp] theorem setPhase_phase (p : Phase) (s : State) : (setPhase p s).phase = p := rfl
@[simp] theorem setPhase_port (p : Phase) (s : State) : (setPhase p s).port = s.port := rfl
@[simp] theorem setPhase_agenda (p : Phase) (s : State) : (setPhase p s).agenda = s.agenda := rfl
@[simp] theorem setPhase_tick (p : Phase) (s : State) : (setPhase p s).tick = s.tick := rfl
@[simp] theorem setPhase_draws (p : Phase) (s : State) : (setPhase p s).draws = s.draws := rfl
@[simp] theorem setPhase_between (p : Phase) (s : State) : (setPhase p s).between = s.between := rfl

/-! ### setPollcnt -/

@[simp] theorem setPollcnt_cmd (n : Nat) (s : State) : (setPollcnt n s).cmd = s.cmd := rfl
@[simp] theorem setPollcnt_busy (n : Nat) (s : State) : (setPollcnt n s).busy = s.busy := rfl
@[simp] theorem setPollcnt_fail (n : Nat) (s : State) : (setPollcnt n s).fail = s.fail := rfl
@[simp] theorem setPollcnt_err (n : Nat) (s : State) : (setPollcnt n s).err = s.err := rfl
@[simp] theorem setPollcnt_res (n : Nat) (s : State) : (setPollcnt n s).res = s.res := rfl
@[simp] theorem setPollcnt_seq (n : Nat) (s : State) : (setPollcnt n s).seq = s.seq := rfl
@[simp] theorem setPollcnt_seqi (n : Nat) (s : State) : (setPollcnt n s).seqi = s.seqi := rfl
@[simp] theorem setPollcnt_ustep (n : Nat) (s : State) : (setPollcnt n s).ustep = s.ustep := rfl
@[simp] theorem setPollcnt_savedTrap (n : Nat) (s : State) : (setPollcnt n s).savedTrap = s.savedTrap := rfl
@[simp] theorem setPollcnt_heldCpu (n : Nat) (s : State) : (setPollcnt n s).heldCpu = s.heldCpu := rfl
@[simp] theorem setPollcnt_heldSafety (n : Nat) (s : State) : (setPollcnt n s).heldSafety = s.heldSafety := rfl
@[simp] theorem setPollcnt_pwCpu (n : Nat) (s : State) : (setPollcnt n s).pwCpu = s.pwCpu := rfl
@[simp] theorem setPollcnt_pwSafety (n : Nat) (s : State) : (setPollcnt n s).pwSafety = s.pwSafety := rfl
@[simp] theorem setPollcnt_oscok (n : Nat) (s : State) : (setPollcnt n s).oscok = s.oscok := rfl
@[simp] theorem setPollcnt_elockok (n : Nat) (s : State) : (setPollcnt n s).elockok = s.elockok := rfl
@[simp] theorem setPollcnt_loopi (n : Nat) (s : State) : (setPollcnt n s).loopi = s.loopi := rfl
@[simp] theorem setPollcnt_pollcnt (n : Nat) (s : State) : (setPollcnt n s).pollcnt = n := rfl
@[simp] theorem setPollcnt_wstart (n : Nat) (s : State) : (setPollcnt n s).wstart = s.wstart := rfl
@[simp] theorem setPollcnt_wtarget (n : Nat) (s : State) : (setPollcnt n s).wtarget = s.wtarget := rfl
@[simp] theorem setPollcnt_cfg (n : Nat) (s : State) : (setPollcnt n s).cfg = s.cfg := rfl
@[simp] theorem setPollcnt_ecfg (n : Nat) (s : State) : (setPollcnt n s).ecfg = s.ecfg := rfl
@[simp] theorem setPollcnt_ext (n : Nat) (s : State) : (setPollcnt n s).ext = s.ext := rfl
@[simp] theorem setPollcnt_phase (n : Nat) (s : State) : (setPollcnt n s).phase = s.phase := rfl
@[simp] theorem setPollcnt_port (n : Nat) (s : State) : (setPollcnt n s).port = s.port := rfl
@[simp] theorem setPollcnt_agenda (n : Nat) (s : State) : (setPollcnt n s).agenda = s.agenda := rfl
@[simp] theorem setPollcnt_tick (n : Nat) (s : State) : (setPollcnt n s).tick = s.tick := rfl
@[simp] theorem setPollcnt_draws (n : Nat) (s : State) : (setPollcnt n s).draws = s.draws := rfl
@[simp] theorem setPollcnt_between (n : Nat) (s : State) : (setPollcnt n s).between = s.between := rfl

/-! ### setLoopi -/

@[simp] theorem setLoopi_cmd (n : Nat) (s : State) : (setLoopi n s).cmd = s.cmd := rfl
@[simp] theorem setLoopi_busy (n : Nat) (s : State) : (setLoopi n s).busy = s.busy := rfl
@[simp] theorem setLoopi_fail (n : Nat) (s : State) : (setLoopi n s).fail = s.fail := rfl
@[simp] theorem setLoopi_err (n : Nat) (s : State) : (setLoopi n s).err = s.err := rfl
@[simp] theorem setLoopi_res (n : Nat) (s : State) : (setLoopi n s).res = s.res := rfl
@[simp] theorem setLoopi_seq (n : Nat) (s : State) : (setLoopi n s).seq = s.seq := rfl
@[simp] theorem setLoopi_seqi (n : Nat) (s : State) : (setLoopi n s).seqi = s.seqi := rfl
@[simp] theorem setLoopi_ustep (n : Nat) (s : State) : (setLoopi n s).ustep = s.ustep := rfl
@[simp] theorem setLoopi_savedTrap (n : Nat) (s : State) : (setLoopi n s).savedTrap = s.savedTrap := rfl
@[simp] theorem setLoopi_heldCpu (n : Nat) (s : State) : (setLoopi n s).heldCpu = s.heldCpu := rfl
@[simp] theorem setLoopi_heldSafety (n : Nat) (s : State) : (setLoopi n s).heldSafety = s.heldSafety := rfl
@[simp] theorem setLoopi_pwCpu (n : Nat) (s : State) : (setLoopi n s).pwCpu = s.pwCpu := rfl
@[simp] theorem setLoopi_pwSafety (n : Nat) (s : State) : (setLoopi n s).pwSafety = s.pwSafety := rfl
@[simp] theorem setLoopi_oscok (n : Nat) (s : State) : (setLoopi n s).oscok = s.oscok := rfl
@[simp] theorem setLoopi_elockok (n : Nat) (s : State) : (setLoopi n s).elockok = s.elockok := rfl
@[simp] theorem setLoopi_loopi (n : Nat) (s : State) : (setLoopi n s).loopi = n := rfl
@[simp] theorem setLoopi_pollcnt (n : Nat) (s : State) : (setLoopi n s).pollcnt = s.pollcnt := rfl
@[simp] theorem setLoopi_wstart (n : Nat) (s : State) : (setLoopi n s).wstart = s.wstart := rfl
@[simp] theorem setLoopi_wtarget (n : Nat) (s : State) : (setLoopi n s).wtarget = s.wtarget := rfl
@[simp] theorem setLoopi_cfg (n : Nat) (s : State) : (setLoopi n s).cfg = s.cfg := rfl
@[simp] theorem setLoopi_ecfg (n : Nat) (s : State) : (setLoopi n s).ecfg = s.ecfg := rfl
@[simp] theorem setLoopi_ext (n : Nat) (s : State) : (setLoopi n s).ext = s.ext := rfl
@[simp] theorem setLoopi_phase (n : Nat) (s : State) : (setLoopi n s).phase = s.phase := rfl
@[simp] theorem setLoopi_port (n : Nat) (s : State) : (setLoopi n s).port = s.port := rfl
@[simp] theorem setLoopi_agenda (n : Nat) (s : State) : (setLoopi n s).agenda = s.agenda := rfl
@[simp] theorem setLoopi_tick (n : Nat) (s : State) : (setLoopi n s).tick = s.tick := rfl
@[simp] theorem setLoopi_draws (n : Nat) (s : State) : (setLoopi n s).draws = s.draws := rfl
@[simp] theorem setLoopi_between (n : Nat) (s : State) : (setLoopi n s).between = s.between := rfl

/-! ### takeTurn: only the script and its counter -/

@[simp] theorem takeTurn_cmd (s : State) : (takeTurn s).cmd = s.cmd := by
  unfold takeTurn; split <;> [split; skip] <;> rfl
@[simp] theorem takeTurn_busy (s : State) : (takeTurn s).busy = s.busy := by
  unfold takeTurn; split <;> [split; skip] <;> rfl
@[simp] theorem takeTurn_fail (s : State) : (takeTurn s).fail = s.fail := by
  unfold takeTurn; split <;> [split; skip] <;> rfl
@[simp] theorem takeTurn_err (s : State) : (takeTurn s).err = s.err := by
  unfold takeTurn; split <;> [split; skip] <;> rfl
@[simp] theorem takeTurn_res (s : State) : (takeTurn s).res = s.res := by
  unfold takeTurn; split <;> [split; skip] <;> rfl
@[simp] theorem takeTurn_seq (s : State) : (takeTurn s).seq = s.seq := by
  unfold takeTurn; split <;> [split; skip] <;> rfl
@[simp] theorem takeTurn_seqi (s : State) : (takeTurn s).seqi = s.seqi := by
  unfold takeTurn; split <;> [split; skip] <;> rfl
@[simp] theorem takeTurn_ustep (s : State) : (takeTurn s).ustep = s.ustep := by
  unfold takeTurn; split <;> [split; skip] <;> rfl
@[simp] theorem takeTurn_savedTrap (s : State) : (takeTurn s).savedTrap = s.savedTrap := by
  unfold takeTurn; split <;> [split; skip] <;> rfl
@[simp] theorem takeTurn_heldCpu (s : State) : (takeTurn s).heldCpu = s.heldCpu := by
  unfold takeTurn; split <;> [split; skip] <;> rfl
@[simp] theorem takeTurn_heldSafety (s : State) : (takeTurn s).heldSafety = s.heldSafety := by
  unfold takeTurn; split <;> [split; skip] <;> rfl
@[simp] theorem takeTurn_pwCpu (s : State) : (takeTurn s).pwCpu = s.pwCpu := by
  unfold takeTurn; split <;> [split; skip] <;> rfl
@[simp] theorem takeTurn_pwSafety (s : State) : (takeTurn s).pwSafety = s.pwSafety := by
  unfold takeTurn; split <;> [split; skip] <;> rfl
@[simp] theorem takeTurn_oscok (s : State) : (takeTurn s).oscok = s.oscok := by
  unfold takeTurn; split <;> [split; skip] <;> rfl
@[simp] theorem takeTurn_elockok (s : State) : (takeTurn s).elockok = s.elockok := by
  unfold takeTurn; split <;> [split; skip] <;> rfl
@[simp] theorem takeTurn_loopi (s : State) : (takeTurn s).loopi = s.loopi := by
  unfold takeTurn; split <;> [split; skip] <;> rfl
@[simp] theorem takeTurn_pollcnt (s : State) : (takeTurn s).pollcnt = s.pollcnt := by
  unfold takeTurn; split <;> [split; skip] <;> rfl
@[simp] theorem takeTurn_wstart (s : State) : (takeTurn s).wstart = s.wstart := by
  unfold takeTurn; split <;> [split; skip] <;> rfl
@[simp] theorem takeTurn_wtarget (s : State) : (takeTurn s).wtarget = s.wtarget := by
  unfold takeTurn; split <;> [split; skip] <;> rfl
@[simp] theorem takeTurn_cfg (s : State) : (takeTurn s).cfg = s.cfg := by
  unfold takeTurn; split <;> [split; skip] <;> rfl
@[simp] theorem takeTurn_ecfg (s : State) : (takeTurn s).ecfg = s.ecfg := by
  unfold takeTurn; split <;> [split; skip] <;> rfl
@[simp] theorem takeTurn_ext (s : State) : (takeTurn s).ext = s.ext := by
  unfold takeTurn; split <;> [split; skip] <;> rfl
@[simp] theorem takeTurn_phase (s : State) : (takeTurn s).phase = s.phase := by
  unfold takeTurn; split <;> [split; skip] <;> rfl
@[simp] theorem takeTurn_port (s : State) : (takeTurn s).port = s.port := by
  unfold takeTurn; split <;> [split; skip] <;> rfl
@[simp] theorem takeTurn_draws (s : State) : (takeTurn s).draws = s.draws := by
  unfold takeTurn; split <;> [split; skip] <;> rfl
@[simp] theorem takeTurn_between (s : State) : (takeTurn s).between = s.between := by
  unfold takeTurn; split <;> [split; skip] <;> rfl

/-! ### betweenTurn -/

@[simp] theorem betweenTurn_cmd (e : Ext) (s : State) : (betweenTurn e s).cmd = s.cmd := rfl
@[simp] theorem betweenTurn_busy (e : Ext) (s : State) : (betweenTurn e s).busy = s.busy := rfl
@[simp] theorem betweenTurn_fail (e : Ext) (s : State) : (betweenTurn e s).fail = s.fail := rfl
@[simp] theorem betweenTurn_err (e : Ext) (s : State) : (betweenTurn e s).err = s.err := rfl
@[simp] theorem betweenTurn_res (e : Ext) (s : State) : (betweenTurn e s).res = s.res := rfl
@[simp] theorem betweenTurn_seq (e : Ext) (s : State) : (betweenTurn e s).seq = s.seq := rfl
@[simp] theorem betweenTurn_seqi (e : Ext) (s : State) : (betweenTurn e s).seqi = s.seqi := rfl
@[simp] theorem betweenTurn_ustep (e : Ext) (s : State) : (betweenTurn e s).ustep = s.ustep := rfl
@[simp] theorem betweenTurn_savedTrap (e : Ext) (s : State) : (betweenTurn e s).savedTrap = s.savedTrap := rfl
@[simp] theorem betweenTurn_heldCpu (e : Ext) (s : State) : (betweenTurn e s).heldCpu = s.heldCpu := rfl
@[simp] theorem betweenTurn_heldSafety (e : Ext) (s : State) : (betweenTurn e s).heldSafety = s.heldSafety := rfl
@[simp] theorem betweenTurn_pwCpu (e : Ext) (s : State) : (betweenTurn e s).pwCpu = s.pwCpu := rfl
@[simp] theorem betweenTurn_pwSafety (e : Ext) (s : State) : (betweenTurn e s).pwSafety = s.pwSafety := rfl
@[simp] theorem betweenTurn_oscok (e : Ext) (s : State) : (betweenTurn e s).oscok = s.oscok := rfl
@[simp] theorem betweenTurn_elockok (e : Ext) (s : State) : (betweenTurn e s).elockok = s.elockok := rfl
@[simp] theorem betweenTurn_loopi (e : Ext) (s : State) : (betweenTurn e s).loopi = s.loopi := rfl
@[simp] theorem betweenTurn_pollcnt (e : Ext) (s : State) : (betweenTurn e s).pollcnt = s.pollcnt := rfl
@[simp] theorem betweenTurn_wstart (e : Ext) (s : State) : (betweenTurn e s).wstart = s.wstart := rfl
@[simp] theorem betweenTurn_wtarget (e : Ext) (s : State) : (betweenTurn e s).wtarget = s.wtarget := rfl
@[simp] theorem betweenTurn_cfg (e : Ext) (s : State) : (betweenTurn e s).cfg = s.cfg := rfl
@[simp] theorem betweenTurn_ecfg (e : Ext) (s : State) : (betweenTurn e s).ecfg = s.ecfg := rfl
@[simp] theorem betweenTurn_ext (e : Ext) (s : State) : (betweenTurn e s).ext = s.ext := rfl
@[simp] theorem betweenTurn_phase (e : Ext) (s : State) : (betweenTurn e s).phase = s.phase := rfl
@[simp] theorem betweenTurn_port (e : Ext) (s : State) : (betweenTurn e s).port = s.port := rfl
@[simp] theorem betweenTurn_agenda (e : Ext) (s : State) : (betweenTurn e s).agenda = s.agenda := rfl
@[simp] theorem betweenTurn_tick (e : Ext) (s : State) : (betweenTurn e s).tick = s.tick := rfl
@[simp] theorem betweenTurn_draws (e : Ext) (s : State) : (betweenTurn e s).draws = s.draws := rfl
@[simp] theorem betweenTurn_between (e : Ext) (s : State) : (betweenTurn e s).between = some e := rfl

/-! ### midway: only the external state, and the announcement it takes -/

@[simp] theorem midway_cmd (s : State) : (midway s).cmd = s.cmd := rfl
@[simp] theorem midway_busy (s : State) : (midway s).busy = s.busy := rfl
@[simp] theorem midway_fail (s : State) : (midway s).fail = s.fail := rfl
@[simp] theorem midway_err (s : State) : (midway s).err = s.err := rfl
@[simp] theorem midway_res (s : State) : (midway s).res = s.res := rfl
@[simp] theorem midway_seq (s : State) : (midway s).seq = s.seq := rfl
@[simp] theorem midway_seqi (s : State) : (midway s).seqi = s.seqi := rfl
@[simp] theorem midway_ustep (s : State) : (midway s).ustep = s.ustep := rfl
@[simp] theorem midway_savedTrap (s : State) : (midway s).savedTrap = s.savedTrap := rfl
@[simp] theorem midway_heldCpu (s : State) : (midway s).heldCpu = s.heldCpu := rfl
@[simp] theorem midway_heldSafety (s : State) : (midway s).heldSafety = s.heldSafety := rfl
@[simp] theorem midway_pwCpu (s : State) : (midway s).pwCpu = s.pwCpu := rfl
@[simp] theorem midway_pwSafety (s : State) : (midway s).pwSafety = s.pwSafety := rfl
@[simp] theorem midway_oscok (s : State) : (midway s).oscok = s.oscok := rfl
@[simp] theorem midway_elockok (s : State) : (midway s).elockok = s.elockok := rfl
@[simp] theorem midway_loopi (s : State) : (midway s).loopi = s.loopi := rfl
@[simp] theorem midway_pollcnt (s : State) : (midway s).pollcnt = s.pollcnt := rfl
@[simp] theorem midway_wstart (s : State) : (midway s).wstart = s.wstart := rfl
@[simp] theorem midway_wtarget (s : State) : (midway s).wtarget = s.wtarget := rfl
@[simp] theorem midway_cfg (s : State) : (midway s).cfg = s.cfg := rfl
@[simp] theorem midway_ecfg (s : State) : (midway s).ecfg = s.ecfg := rfl
@[simp] theorem midway_ext (s : State) : (midway s).ext = s.between.getD s.ext := rfl
@[simp] theorem midway_phase (s : State) : (midway s).phase = s.phase := rfl
@[simp] theorem midway_port (s : State) : (midway s).port = s.port := rfl
@[simp] theorem midway_agenda (s : State) : (midway s).agenda = s.agenda := rfl
@[simp] theorem midway_tick (s : State) : (midway s).tick = s.tick := rfl
@[simp] theorem midway_draws (s : State) : (midway s).draws = s.draws := rfl
@[simp] theorem midway_between (s : State) : (midway s).between = none := rfl

/-- With no change announced nothing happens between a read and its write. -/
theorem midway_of_none (s : State) (h : s.between = none) : midway s = s := by
  cases s; cases h; rfl

theorem midway_of_some (s : State) (e : Ext) (h : s.between = some e) :
    midway s = { s with ext := e, between := none } := by simp [midway, h]

/-! ### Values read: only the external register file counts -/

theorem sfrValue_congr (s t : State) (h : s.ext = t.ext) (r : Reg) : sfrValue s r = sfrValue t r := by
  simp [sfrValue, h]

theorem fieldValue_congr (s t : State) (h : s.ext = t.ext) (f : Field) : fieldValue s f = fieldValue t f := by
  simp [fieldValue, sfrValue, h]

@[simp] theorem sfrValue_goto (l : UStep) (s : State) (r : Reg) : sfrValue (goto l s) r = sfrValue s r := sfrValue_congr _ _ (by simp) r
@[simp] theorem fieldValue_goto (l : UStep) (s : State) (f : Field) : fieldValue (goto l s) f = fieldValue s f := fieldValue_congr _ _ (by simp) f
@[simp] theorem sfrValue_setSeq (n : SeqName) (s : State) (r : Reg) : sfrValue (setSeq n s) r = sfrValue s r := sfrValue_congr _ _ (by simp) r
@[simp] theorem fieldValue_setSeq (n : SeqName) (s : State) (f : Field) : fieldValue (setSeq n s) f = fieldValue s f := fieldValue_congr _ _ (by simp) f
@[simp] theorem sfrValue_setSeqAt (n : SeqName) (i : Nat) (s : State) (r : Reg) : sfrValue (setSeqAt n i s) r = sfrValue s r := sfrValue_congr _ _ (by simp) r
@[simp] theorem fieldValue_setSeqAt (n : SeqName) (i : Nat) (s : State) (f : Field) : fieldValue (setSeqAt n i s) f = fieldValue s f := fieldValue_congr _ _ (by simp) f
@[simp] theorem sfrValue_emit (e : PortEvent) (s : State) (r : Reg) : sfrValue (emit e s) r = sfrValue s r := sfrValue_congr _ _ (by simp) r
@[simp] theorem fieldValue_emit (e : PortEvent) (s : State) (f : Field) : fieldValue (emit e s) f = fieldValue s f := fieldValue_congr _ _ (by simp) f
@[simp] theorem sfrValue_sfrRead (q : Reg) (s : State) (r : Reg) : sfrValue (sfrRead q s) r = sfrValue s r := sfrValue_congr _ _ (by simp) r
@[simp] theorem fieldValue_sfrRead (q : Reg) (s : State) (f : Field) : fieldValue (sfrRead q s) f = fieldValue s f := fieldValue_congr _ _ (by simp) f
@[simp] theorem sfrValue_acquire (d : Domain) (s : State) (r : Reg) : sfrValue (acquire d s) r = sfrValue s r := sfrValue_congr _ _ (by simp) r
@[simp] theorem fieldValue_acquire (d : Domain) (s : State) (f : Field) : fieldValue (acquire d s) f = fieldValue s f := fieldValue_congr _ _ (by simp) f
@[simp] theorem sfrValue_release (d : Domain) (s : State) (r : Reg) : sfrValue (release d s) r = sfrValue s r := sfrValue_congr _ _ (by simp) r
@[simp] theorem fieldValue_release (d : Domain) (s : State) (f : Field) : fieldValue (release d s) f = fieldValue s f := fieldValue_congr _ _ (by simp) f
@[simp] theorem sfrValue_setResult (e : BitVec 3) (s : State) (r : Reg) : sfrValue (setResult e s) r = sfrValue s r := sfrValue_congr _ _ (by simp) r
@[simp] theorem fieldValue_setResult (e : BitVec 3) (s : State) (f : Field) : fieldValue (setResult e s) f = fieldValue s f := fieldValue_congr _ _ (by simp) f
@[simp] theorem sfrValue_finish (e : BitVec 3) (s : State) (r : Reg) : sfrValue (finish e s) r = sfrValue s r := sfrValue_congr _ _ (by simp) r
@[simp] theorem fieldValue_finish (e : BitVec 3) (s : State) (f : Field) : fieldValue (finish e s) f = fieldValue s f := fieldValue_congr _ _ (by simp) f
@[simp] theorem sfrValue_setOscok (b : Bool) (s : State) (r : Reg) : sfrValue (setOscok b s) r = sfrValue s r := sfrValue_congr _ _ (by simp) r
@[simp] theorem fieldValue_setOscok (b : Bool) (s : State) (f : Field) : fieldValue (setOscok b s) f = fieldValue s f := fieldValue_congr _ _ (by simp) f
@[simp] theorem sfrValue_setElockok (b : Bool) (s : State) (r : Reg) : sfrValue (setElockok b s) r = sfrValue s r := sfrValue_congr _ _ (by simp) r
@[simp] theorem fieldValue_setElockok (b : Bool) (s : State) (f : Field) : fieldValue (setElockok b s) f = fieldValue s f := fieldValue_congr _ _ (by simp) f
@[simp] theorem sfrValue_takeTurn (s : State) (r : Reg) : sfrValue (takeTurn s) r = sfrValue s r := sfrValue_congr _ _ (by simp) r
@[simp] theorem fieldValue_takeTurn (s : State) (f : Field) : fieldValue (takeTurn s) f = fieldValue s f := fieldValue_congr _ _ (by simp) f
@[simp] theorem sfrValue_setPhase (p : Phase) (s : State) (r : Reg) : sfrValue (setPhase p s) r = sfrValue s r := sfrValue_congr _ _ (by simp) r
@[simp] theorem fieldValue_setPhase (p : Phase) (s : State) (f : Field) : fieldValue (setPhase p s) f = fieldValue s f := fieldValue_congr _ _ (by simp) f
@[simp] theorem sfrValue_setPollcnt (n : Nat) (s : State) (r : Reg) : sfrValue (setPollcnt n s) r = sfrValue s r := sfrValue_congr _ _ (by simp) r
@[simp] theorem fieldValue_setPollcnt (n : Nat) (s : State) (f : Field) : fieldValue (setPollcnt n s) f = fieldValue s f := fieldValue_congr _ _ (by simp) f
@[simp] theorem sfrValue_setLoopi (n : Nat) (s : State) (r : Reg) : sfrValue (setLoopi n s) r = sfrValue s r := sfrValue_congr _ _ (by simp) r
@[simp] theorem fieldValue_setLoopi (n : Nat) (s : State) (f : Field) : fieldValue (setLoopi n s) f = fieldValue s f := fieldValue_congr _ _ (by simp) f
@[simp] theorem sfrValue_betweenTurn (e : Ext) (s : State) (r : Reg) : sfrValue (betweenTurn e s) r = sfrValue s r := sfrValue_congr _ _ (by simp) r
@[simp] theorem fieldValue_betweenTurn (e : Ext) (s : State) (f : Field) : fieldValue (betweenTurn e s) f = fieldValue s f := fieldValue_congr _ _ (by simp) f

/-- A value read after `midway` is the announced external state's, if there is one. -/
theorem sfrValue_midway (s : State) (r : Reg) :
    sfrValue (midway s) r = sfrGet (s.between.getD s.ext).sfr r &&& ~~~ classMask r .w1t := by
  simp [sfrValue]

/-- The read that opens a read-modify-write does not change what the environment does next. -/
theorem midway_sfrRead (r : Reg) (s : State) : midway (sfrRead r s) = emit (.read r (sfrValue s r)) (midway s) := rfl

end Sys2Proof.Machine
end

