-- ==== Sys2Proof/Laws/Ops.lean ====
section
/-! SUPPORT. For each shared operation, once, everything it can do: a µstep's proof cites these and does not unfold the
operation. -/

namespace Sys2Proof.Machine

/-! ## Sequencing of answers -/

theorem andThen_next_iff (o : Result) (k : State → State) (u : State) :
    andThen o k = .next u ↔ ∃ t, o = .next t ∧ u = k t := by
  cases o <;> simp [andThen, eq_comm]

@[simp] theorem andThen_next (s : State) (k : State → State) : andThen (.next s) k = .next (k s) := rfl

theorem andThen_fault_iff (o : Result) (k : State → State) (f : Fault) : andThen o k = .fault f ↔ o = .fault f := by
  cases o <;> simp [andThen]

theorem andThen_refused_iff (o : Result) (k : State → State) (r : Refusal) :
    andThen o k = .refused r ↔ o = .refused r := by
  cases o <;> simp [andThen]

/-! ## Register writes -/

/-- A write happens exactly when the register's domain is held, and then it is `sfrStore`. -/
theorem sfrWrite_next_iff (r : Reg) (w : Word) (s t : State) :
    sfrWrite r w s = .next t ↔ ∃ d, regDomain r = some d ∧ held s d = true ∧ t = sfrStore r w s := by
  unfold sfrWrite
  cases h : regDomain r with
  | none => simp
  | some d =>
    by_cases hh : held s d = true
    · simpa [hh] using eq_comm
    · simp [hh]

/-- A write under the right lock. -/
theorem sfrWrite_of_held (r : Reg) (w : Word) (s : State) (d : Domain) (hd : regDomain r = some d)
    (hh : held s d = true) : sfrWrite r w s = .next (sfrStore r w s) := by
  simp [sfrWrite, hd, hh]

/-- A write is never refused. -/
theorem sfrWrite_ne_refused (r : Reg) (w : Word) (s : State) (x : Refusal) : sfrWrite r w s ≠ .refused x := by
  unfold sfrWrite
  split
  · simp
  · split <;> simp

theorem held_sfrRead (r : Reg) (s : State) (d : Domain) : held (sfrRead r s) d = held s d := by cases d <;> rfl

theorem held_midway (s : State) (d : Domain) : held (midway s) d = held s d := by cases d <;> simp [held]

/-- A read-modify-write happens exactly when the register's domain is held; the environment's announced change falls
before its write (20_memory R66). -/
theorem rmw_next_iff (r : Reg) (g : Word → Word) (s t : State) :
    rmw r g s = .next t ↔
      ∃ d, regDomain r = some d ∧ held s d = true ∧ t = sfrStore r (g (sfrValue s r)) (midway (sfrRead r s)) := by
  simp [rmw, sfrWrite_next_iff, held_midway, held_sfrRead]

theorem rmw_of_held (r : Reg) (g : Word → Word) (s : State) (d : Domain) (hd : regDomain r = some d)
    (hh : held s d = true) : rmw r g s = .next (sfrStore r (g (sfrValue s r)) (midway (sfrRead r s))) :=
  (rmw_next_iff r g s _).mpr ⟨d, hd, hh, rfl⟩

/-- A field write under the right lock: the one read and the one write it performs. -/
theorem writeField_of_held (f : Field) (v : Word) (s : State) (d : Domain) (hd : regDomain (fieldReg f) = some d)
    (hh : held s d = true) :
    writeField f v s =
      .next (sfrStore (fieldReg f) (setField (sfrValue s (fieldReg f)) f v) (midway (sfrRead (fieldReg f) s))) :=
  rmw_of_held _ _ s d hd hh

/-- A field write that ends its µstep, under the right lock. -/
theorem writeFieldTo_of_held (f : Field) (v : Word) (l : UStep) (s : State) (d : Domain)
    (hd : regDomain (fieldReg f) = some d) (hh : held s d = true) :
    writeFieldTo f v l s =
      .next (goto l (sfrStore (fieldReg f) (setField (sfrValue s (fieldReg f)) f v) (midway (sfrRead (fieldReg f) s)))) := by
  rw [writeFieldTo, writeField_of_held f v s d hd hh, andThen_next]

/-- A write of several fields that ends its µstep, under the right lock. -/
theorem writeFieldsTo_of_held (r : Reg) (fs : List (Field × Word)) (l : UStep) (s : State) (d : Domain)
    (hd : regDomain r = some d) (hh : held s d = true) :
    writeFieldsTo r fs l s =
      .next (goto l (sfrStore r (setFields (sfrValue s r) fs) (midway (sfrRead r s)))) := by
  rw [writeFieldsTo, writeFields, rmw_of_held r _ s d hd hh, andThen_next]

/-- A masked merge that ends its µstep, under the right lock. -/
theorem mergeWriteTo_of_held (r : Reg) (p : Pair) (fs : List (Field × Word)) (l : UStep) (s : State) (d : Domain)
    (hd : regDomain r = some d) (hh : held s d = true) :
    mergeWriteTo r p fs l s =
      .next (goto l (sfrStore r (setFields (merge (sfrValue s r) p) fs) (midway (sfrRead r s)))) := by
  rw [mergeWriteTo, mergeWrite, rmw_of_held r _ s d hd hh, andThen_next]

/-- A whole-word write that ends its µstep, under the right lock. -/
theorem sfrWriteTo_of_held (r : Reg) (w : Word) (l : UStep) (s : State) (d : Domain)
    (hd : regDomain r = some d) (hh : held s d = true) :
    sfrWriteTo r w l s = .next (goto l (sfrStore r w s)) := by
  rw [sfrWriteTo, sfrWrite_of_held r w s d hd hh, andThen_next]

/-- If a field write that ends its µstep answers a next state, this is it. -/
theorem writeFieldTo_next (f : Field) (v : Word) (l : UStep) (s t : State) (h : writeFieldTo f v l s = .next t) :
    t = goto l (sfrStore (fieldReg f) (setField (sfrValue s (fieldReg f)) f v) (midway (sfrRead (fieldReg f) s))) := by
  rw [writeFieldTo, andThen_next_iff] at h
  obtain ⟨u, hu, rfl⟩ := h
  rw [writeField, rmw_next_iff] at hu
  obtain ⟨_, _, _, rfl⟩ := hu
  rfl

theorem writeFieldsTo_next (r : Reg) (fs : List (Field × Word)) (l : UStep) (s t : State)
    (h : writeFieldsTo r fs l s = .next t) :
    t = goto l (sfrStore r (setFields (sfrValue s r) fs) (midway (sfrRead r s))) := by
  rw [writeFieldsTo, andThen_next_iff] at h
  obtain ⟨u, hu, rfl⟩ := h
  rw [writeFields, rmw_next_iff] at hu
  obtain ⟨_, _, _, rfl⟩ := hu
  rfl

theorem mergeWriteTo_next (r : Reg) (p : Pair) (fs : List (Field × Word)) (l : UStep) (s t : State)
    (h : mergeWriteTo r p fs l s = .next t) :
    t = goto l (sfrStore r (setFields (merge (sfrValue s r) p) fs) (midway (sfrRead r s))) := by
  rw [mergeWriteTo, andThen_next_iff] at h
  obtain ⟨u, hu, rfl⟩ := h
  rw [mergeWrite, rmw_next_iff] at hu
  obtain ⟨_, _, _, rfl⟩ := hu
  rfl

theorem sfrWriteTo_next (r : Reg) (w : Word) (l : UStep) (s t : State) (h : sfrWriteTo r w l s = .next t) :
    t = goto l (sfrStore r w s) := by
  rw [sfrWriteTo, andThen_next_iff] at h
  obtain ⟨u, hu, rfl⟩ := h
  rw [sfrWrite_next_iff] at hu
  obtain ⟨_, _, _, rfl⟩ := hu
  rfl

/-! ## What a write leaves to read -/

theorem sfrValue_sfrStore_other (r r' : Reg) (w : Word) (s : State) (h : r' ≠ r) :
    sfrValue (sfrStore r w s) r' = sfrValue s r' := by
  simp [sfrValue, sfrGet_sfrSet_other _ _ _ _ h]

theorem sfrValue_sfrStore_same (r : Reg) (w : Word) (s : State) :
    sfrValue (sfrStore r w s) r = writtenWord r (sfrGet s.ext.sfr r) w &&& ~~~ classMask r .w1t := by
  simp [sfrValue, sfrGet_sfrSet_same]

theorem fieldValue_eq (s : State) (f : Field) :
    fieldValue s f = if fieldClass f = .w1t then 0 else getField (sfrGet s.ext.sfr (fieldReg f)) f := by
  have key : getField (~~~ classMask (fieldReg f) .w1t) f =
      if fieldClass f = .w1t then 0 else lowMask (Config.layout f).width := by
    cases f <;> decide
  rw [fieldValue, sfrValue, getField_and, key]
  by_cases h : fieldClass f = .w1t <;> simp [h, getField_and_lowMask]

/-- A field after a register write (20_memory R61): rw fields of the register from the word, all else as before. -/
theorem fieldValue_sfrStore (r : Reg) (w : Word) (s : State) (f : Field) :
    fieldValue (sfrStore r w s) f =
      if fieldReg f = r ∧ fieldClass f = .rw then getField w f else fieldValue s f := by
  by_cases hr : fieldReg f = r
  · subst hr
    rw [fieldValue_eq, fieldValue_eq]
    simp only [sfrStore_ext, sfrGet_sfrSet_same, getField_writtenWord]
    cases h : fieldClass f <;> simp
  · simp [hr, fieldValue, sfrValue_sfrStore_other _ _ _ _ hr]

/-! ## Polls, waits, hooks -/

/-- A poll sample: it leaves when the field shows the value, and otherwise only reads. -/
theorem pollUntil_cases (f : Field) (v : Word) (k : State → State) (s t : State) (h : pollUntil f v k s = .next t) :
    (fieldValue s f = v ∧ t = k (sfrRead (fieldReg f) s)) ∨ (fieldValue s f ≠ v ∧ t = sfrRead (fieldReg f) s) := by
  unfold pollUntil at h
  by_cases hv : fieldValue s f = v
  · simp [hv] at h; exact .inl ⟨hv, h.symm⟩
  · simp [hv] at h; exact .inr ⟨hv, h.symm⟩

theorem pollUntil_leaves (f : Field) (v : Word) (k : State → State) (s : State) (h : fieldValue s f = v) :
    pollUntil f v k s = .next (k (sfrRead (fieldReg f) s)) := by simp [pollUntil, h]

theorem pollUntil_stays (f : Field) (v : Word) (k : State → State) (s : State) (h : fieldValue s f ≠ v) :
    pollUntil f v k s = .next (sfrRead (fieldReg f) s) := by simp [pollUntil, h]

/-- A pass of a bounded poll: it leaves with a verdict, or counts one more failed sample. -/
theorem boundedPoll_cases (r : Reg) (ok : Word → Bool) (budget : Nat) (record : Bool → State → State) (l : UStep)
    (s t : State) (h : boundedPoll r ok budget record l s = .next t) :
    (ok (sfrValue s r) = true ∧ t = goto l (record true (setPollcnt (failedPolls s) (sfrRead r s)))) ∨
    (ok (sfrValue s r) = false ∧ failedPolls s + 1 = budget ∧
      t = goto l (record false (setPollcnt (failedPolls s + 1) (sfrRead r s)))) ∨
    (ok (sfrValue s r) = false ∧ failedPolls s + 1 ≠ budget ∧
      t = setPhase .looping (setPollcnt (failedPolls s + 1) (sfrRead r s))) := by
  unfold boundedPoll at h
  cases hok : ok (sfrValue s r)
  · by_cases hb : failedPolls s + 1 = budget
    · simp only [hok, hb, if_true, Bool.false_eq_true, if_false, Host.Outcome.next.injEq] at h
      exact .inr (.inl ⟨rfl, hb, by rw [← h, hb]⟩)
    · simp only [hok, hb, Bool.false_eq_true, if_false, Host.Outcome.next.injEq] at h
      exact .inr (.inr ⟨rfl, hb, h.symm⟩)
  · simp only [hok, if_true, Host.Outcome.next.injEq] at h
    exact .inl ⟨rfl, h.symm⟩

/-- One µstep of a wait: it starts, leaves, or samples once more. -/
theorem wait_cases (t : Q) (l : UStep) (s : State) :
    (s.phase ≠ .looping ∧ wait t l s = waitStart t s) ∨
    (s.phase = .looping ∧ s.wtarget ≤ elapsedTicks s ∧ wait t l s = goto l (emit (.timer s.ext.timer) s)) ∨
    (s.phase = .looping ∧ ¬ s.wtarget ≤ elapsedTicks s ∧ wait t l s = emit (.timer s.ext.timer) s) := by
  by_cases h : s.phase = .looping
  · by_cases h2 : s.wtarget ≤ elapsedTicks s
    · exact .inr (.inl ⟨h, h2, by simp [wait, waitSample, h, h2]⟩)
    · exact .inr (.inr ⟨h, h2, by simp [wait, waitSample, h, h2]⟩)
  · exact .inl ⟨h, by simp [wait, h]⟩

/-- The running hook is the one the phase names. -/
theorem runningHook_eq_some (s : State) (h : HookId) : runningHook s = some h ↔ s.phase = .inHook h := by
  unfold runningHook; split <;> simp_all

/-- The sequencer at a hook: it stands still, goes on at once, or calls the hook. -/
theorem hookStep_cases (o : Option HookId) (k : State → State) (s : State) :
    (∃ h, s.phase = .inHook h ∧ hookStep o k s = s) ∨
    (runningHook s = none ∧ o = none ∧ hookStep o k s = k s) ∨
    (∃ h, runningHook s = none ∧ o = some h ∧ hookStep o k s = setPhase (.inHook h) (emit (.hook h) s)) := by
  cases hr : runningHook s with
  | some h => exact .inl ⟨h, (runningHook_eq_some s h).mp hr, by simp [hookStep, hr]⟩
  | none =>
    cases o with
    | none => exact .inr (.inl ⟨rfl, rfl, by simp [hookStep, hr]⟩)
    | some h => exact .inr (.inr ⟨h, rfl, rfl, by simp [hookStep, hr]⟩)

/-! ## Queries -/

theorem mem_allRegs (r : Reg) : r ∈ allRegs := by cases r <;> decide

/-- A query reads the registers of fSource and of the way to the tap, and no other. -/
theorem mem_queryRegs (s : State) (t : Tap) (r : Reg) :
    r ∈ queryRegs s t ↔ r ∈ sourceRegs s ∨ r ∈ pathRegs Config.tapDepth t := by
  simp [queryRegs, mem_allRegs]

/-- No register is read twice. -/
theorem queryRegs_nodup (s : State) (t : Tap) : (queryRegs s t).Nodup := List.Nodup.filter _ (by decide)

/-- Reads one after the other only add their events. -/
theorem foldl_sfrRead (l : List Reg) (s : State) :
    l.foldl (fun u r => sfrRead r u) s =
      { s with port := (l.map fun r => .read r (sfrValue s r)).reverse ++ s.port } := by
  induction l generalizing s with
  | nil => rfl
  | cons r l ih => rw [List.foldl_cons, ih]; simp [sfrRead, emit]; intros; rfl

/-- All that a query changes. -/
theorem query_eq (t : Tap) (s : State) :
    query t s = { s with
      res := tapHz Config.tapDepth s t,
      port := ((queryRegs s t).reverse.map fun r => .read r (sfrValue s r)) ++ s.port,
      fail := false, err := 0, ustep := .idle, phase := .entry, busy := false } := by
  rw [query, foldl_sfrRead]; simp [finish, setResult, errOk]

/-! ## Turns -/

/-- A hook's turn can be made exactly when that hook runs and HOOK_EFFECT admits what it leaves. -/
theorem enabled_hook (s : State) (e : Ext) :
    enabled s (.hook e) = true ↔ ∃ h, s.phase = .inHook h ∧ Config.hookEffect h s.ext e = true := by
  simp only [enabled, ← runningHook_eq_some]
  cases runningHook s <;> simp

/-- The turn taken is one its agent can make. -/
theorem enabled_currentTurn (s : State) : enabled s (currentTurn s) = true := by
  unfold currentTurn
  split
  · assumption
  · rfl

/-- What a step can be: a turn of one of the four agents, each only when it can be made; the environment's turn acts now
or between a later read and its write. -/
theorem step_cases (s : State) :
    (currentTurn s = .seq ∧ step s = sequencerTurn (takeTurn s)) ∨
    (∃ m, currentTurn s = .host m ∧ s.busy = false ∧ step s = hostTurn m (takeTurn s)) ∨
    (∃ e, currentTurn s = .env e ∧ step s = .next (envTurn e (takeTurn s))) ∨
    (∃ e, currentTurn s = .between e ∧ step s = .next (betweenTurn e (takeTurn s))) ∨
    (∃ e h, currentTurn s = .hook e ∧ s.phase = .inHook h ∧ Config.hookEffect h s.ext e = true ∧
      step s = .next (hookReturn e (takeTurn s))) := by
  have hen := enabled_currentTurn s
  cases h : currentTurn s with
  | seq => exact .inl ⟨rfl, by simp [step, h]⟩
  | host m =>
    rw [h] at hen
    exact .inr (.inl ⟨m, rfl, by simpa [enabled] using hen, by simp [step, h]⟩)
  | env e => exact .inr (.inr (.inl ⟨e, rfl, by simp [step, h]⟩))
  | between e => exact .inr (.inr (.inr (.inl ⟨e, rfl, by simp [step, h]⟩)))
  | hook e =>
    rw [h, enabled_hook] at hen
    obtain ⟨k, hk, he⟩ := hen
    exact .inr (.inr (.inr (.inr ⟨e, k, rfl, hk, he, by simp [step, h]⟩)))

end Sys2Proof.Machine
end

