-- ==== Sys2Proof/Laws/PerInstr.lean ====
section
/-! SUPPORT. A statement for every instruction, one lemma for each constructor: the encoder's word matches the instruction's
row of spec/opcode_table.json (match and mask). -/

namespace Sys2Proof.Laws

/-- `match` of the instruction's row. -/
def rowMatch : Instr → BitVec 64
  | .nop => 0x0 | .solve _ => 0x1 | .init => 0x2 | .swbackup => 0x3 | .initeray => 0x4
  | .qsri => 0x10 | .qspb => 0x11 | .qbaud _ => 0x12 | .qcpu _ => 0x13 | .qgtm => 0x14 | .qfsi => 0x15 | .qmod => 0x16

/-- `mask` of the instruction's row. -/
def rowMask : Instr → BitVec 64
  | .solve _ => 0x00000000FFFFFFFF
  | .qbaud _ | .qcpu _ => 0xFFFFFFFFFFFF00FF
  | .nop | .init | .swbackup | .initeray | .qsri | .qspb | .qgtm | .qfsi | .qmod => 0xFFFFFFFFFFFFFFFF

def EncodeMatchesRow.Statement (i : Instr) : Prop := encode i &&& rowMask i = rowMatch i

theorem EncodeMatchesRow.nop : EncodeMatchesRow.Statement .nop := by unfold EncodeMatchesRow.Statement; decide
theorem EncodeMatchesRow.init : EncodeMatchesRow.Statement .init := by unfold EncodeMatchesRow.Statement; decide
theorem EncodeMatchesRow.swbackup : EncodeMatchesRow.Statement .swbackup := by unfold EncodeMatchesRow.Statement; decide
theorem EncodeMatchesRow.initeray : EncodeMatchesRow.Statement .initeray := by unfold EncodeMatchesRow.Statement; decide
theorem EncodeMatchesRow.qsri : EncodeMatchesRow.Statement .qsri := by unfold EncodeMatchesRow.Statement; decide
theorem EncodeMatchesRow.qspb : EncodeMatchesRow.Statement .qspb := by unfold EncodeMatchesRow.Statement; decide
theorem EncodeMatchesRow.qgtm : EncodeMatchesRow.Statement .qgtm := by unfold EncodeMatchesRow.Statement; decide
theorem EncodeMatchesRow.qfsi : EncodeMatchesRow.Statement .qfsi := by unfold EncodeMatchesRow.Statement; decide
theorem EncodeMatchesRow.qmod : EncodeMatchesRow.Statement .qmod := by unfold EncodeMatchesRow.Statement; decide

theorem EncodeMatchesRow.solve (fPll : BitVec 32) : EncodeMatchesRow.Statement (.solve fPll) := by
  apply BitVec.eq_of_getLsbD_eq
  intro i hi
  simp only [encode, immOf, argOf, opcode, rowMask, rowMatch, BitVec.getLsbD_and, BitVec.getLsbD_append]
  interval_cases i <;> simp

theorem EncodeMatchesRow.qbaud (g : BitVec 8) : EncodeMatchesRow.Statement (.qbaud g) := by
  apply BitVec.eq_of_getLsbD_eq
  intro i hi
  simp only [encode, immOf, argOf, opcode, rowMask, rowMatch, BitVec.getLsbD_and, BitVec.getLsbD_append]
  interval_cases i <;> simp

theorem EncodeMatchesRow.qcpu (c : BitVec 8) : EncodeMatchesRow.Statement (.qcpu c) := by
  apply BitVec.eq_of_getLsbD_eq
  intro i hi
  simp only [encode, immOf, argOf, opcode, rowMask, rowMatch, BitVec.getLsbD_and, BitVec.getLsbD_append]
  interval_cases i <;> simp

end Sys2Proof.Laws
end

