-- ==== Sys2Proof/Laws/Rational.lean ====
section
/-! SUPPORT. The exact arithmetic of Q as arithmetic of ℚ. -/

namespace Sys2Proof.Q

@[simp] theorem zero_val : zero.val = 0 := rfl
@[simp] theorem ofNat_val (n : Nat) : (ofNat n).val = (n : ℚ) := rfl
@[simp] theorem mul_val (a b : Q) : (a.mul b).val = a.val * b.val := rfl
@[simp] theorem divNat_val (a : Q) (k : Nat) : (a.divNat k).val = a.val / (k : ℚ) := rfl
@[simp] theorem ofPos_val (a : PosQ) : (ofPos a).val = a.val := rfl

/-- `floor` is the largest natural number not above the rational. -/
theorem le_floor_iff (a : Q) (n : Nat) : n ≤ a.floor ↔ (n : ℚ) ≤ a.val := by
  have h0 : 0 ≤ a.val.floor := Rat.le_floor_iff.mpr (by simpa using a.property)
  rw [floor, Int.le_toNat h0, Rat.le_floor_iff]
  simp

theorem zero_divNat (k : Nat) : zero.divNat k = zero := Subtype.ext (by simp)

end Sys2Proof.Q
end

