-- ==== Sys2Proof/Tests/Slice0.lean ====
section
/-! SUPPORT. Tests: the decoder and the well-formedness check on words written from the encoding tables, single steps
against the vectors of 95_test_vectors, and, for every statement with hypotheses, a state and operands that meet them. -/

namespace Sys2Proof.Tests

open Sys2Proof.Machine

/-! ## Well-formedness -/

/-- Each check refuses a term outside its range and accepts both ends of it (30_encoding R82). -/
theorem test_wf_refuses_ill_formed_terms :
    (Instr.qbaud 0).wf = false ∧ (Instr.qbaud 3).wf = false ∧ (Instr.qbaud 1).wf = true ∧
    (Instr.qbaud 2).wf = true ∧ (Instr.qcpu 3).wf = false ∧ (Instr.qcpu 0).wf = true ∧ (Instr.qcpu 2).wf = true := by
  decide

/-! ## Decoding: words written out from 30_encoding R80 and R83 (IMM32, ZERO, ARG, OPC) -/

theorem test_decode_nop : decode (0x00000000#32 ++ 0x0000#16 ++ 0x00#8 ++ 0b00000000#8) = .ok .nop := rfl
theorem test_decode_solve : decode (0x0BEBC200#32 ++ 0x0000#16 ++ 0x00#8 ++ 0b00000001#8) = .ok (.solve 200000000) := rfl
theorem test_decode_init : decode (0x00000000#32 ++ 0x0000#16 ++ 0x00#8 ++ 0b00000010#8) = .ok .init := rfl
theorem test_decode_swbackup : decode (0x00000000#32 ++ 0x0000#16 ++ 0x00#8 ++ 0b00000011#8) = .ok .swbackup := rfl
theorem test_decode_initeray : decode (0x00000000#32 ++ 0x0000#16 ++ 0x00#8 ++ 0b00000100#8) = .ok .initeray := rfl
theorem test_decode_qsri : decode (0x00000000#32 ++ 0x0000#16 ++ 0x00#8 ++ 0b00010000#8) = .ok .qsri := rfl
theorem test_decode_qspb : decode (0x00000000#32 ++ 0x0000#16 ++ 0x00#8 ++ 0b00010001#8) = .ok .qspb := rfl
theorem test_decode_qbaud : decode (0x00000000#32 ++ 0x0000#16 ++ 0x02#8 ++ 0b00010010#8) = .ok (.qbaud 2) := rfl
theorem test_decode_qcpu : decode (0x00000000#32 ++ 0x0000#16 ++ 0x02#8 ++ 0b00010011#8) = .ok (.qcpu 2) := rfl
theorem test_decode_qgtm : decode (0x00000000#32 ++ 0x0000#16 ++ 0x00#8 ++ 0b00010100#8) = .ok .qgtm := rfl
theorem test_decode_qfsi : decode (0x00000000#32 ++ 0x0000#16 ++ 0x00#8 ++ 0b00010101#8) = .ok .qfsi := rfl
theorem test_decode_qmod : decode (0x00000000#32 ++ 0x0000#16 ++ 0x00#8 ++ 0b00010110#8) = .ok .qmod := rfl

/-- The illegal words of 95_test_vectors section 2.8, each with the test of 30_encoding R84 that catches it. -/
theorem test_decode_illegal_words :
    decode 0x0000000000010002 = .error .zeroField ∧ decode 0x0000000000000005 = .error .reservedOpcode ∧
    decode 0x00000000000000FF = .error .reservedOpcode ∧ decode 0x0000000100000002 = .error .fixedField ∧
    decode 0x0BEBC20000000101 = .error .fixedField ∧ decode 0x0000000000000012 = .error .argRange ∧
    decode 0x0000000000000312 = .error .argRange ∧ decode 0x0000000000000313 = .error .argRange ∧
    decode 0x0000000000000110 = .error .fixedField :=
  ⟨rfl, rfl, rfl, rfl, rfl, rfl, rfl, rfl, rfl⟩

/-! ## Small states -/

/-- A command in progress at a µstep, with the locks its list says are held there. -/
def atStep (u : UStep) : State :=
  { State.reset with busy := true, ustep := u, heldCpu := cpuHeldAt u, heldSafety := safetyHeldAt u }

/-- A register holding a word. -/
def holding (r : Reg) (w : Word) (s : State) : State := { s with ext := { s.ext with sfr := sfrSet s.ext.sfr r w } }

/-- A field showing a value. -/
def showing (f : Field) (v : Word) (s : State) : State :=
  holding (fieldReg f) (setField (sfrGet s.ext.sfr (fieldReg f)) f v) s

/-- A turn at the head of the script. -/
def scripted (t : Turn) (s : State) : State := { s with agenda := [t] }

/-- A test of the next state. -/
def after (o : Result) (p : State → Bool) : Bool :=
  match o with
  | .next t => p t
  | .fault _ | .refused _ => false

/-- The PLL, both oscillator flags and the secondary PLL showing every awaited value (environment E0 of 95 section 0). -/
def ready (s : State) : State :=
  showing .k2rdy 1 (showing .vcolock 1 (showing .plllv 1 (showing .pllhv 1
    (showing .erayK2rdy 1 (showing .erayVcolock 1 s)))))

/-- A ramp step without hook and wait. -/
def quickStep (k2 : BitVec 7) : RampStep := { k2 := k2, wait := Q.zero, hook := none }

/-! ## One step against the vectors -/

theorem test_nop_clears_the_result :
    after (exec .nop { atStep .idle with fail := true, err := 1 }) (fun t => !t.fail && t.err == 0 && !t.busy) = true := by
  decide

/-- V-S1: the source's scenario. -/
theorem test_solve_stores_encoded_dividers :
    after (exec (.solve 300000000) { atStep .idle with cfg := { Cfg.reset with xtal := 20000000 } })
      (fun t => t.cfg.initP == 1 && t.cfg.initN == 59 && t.cfg.initK2 == 1 && !t.fail) = true := by
  decide +kernel

/-- V-S16: an error of exactly 2% fails. -/
theorem test_solve_refuses_exactly_two_percent :
    after (exec (.solve 250000000) { atStep .idle with cfg := { Cfg.reset with xtal := 15000000 } })
      (fun t => t.fail && t.err == 1) = true := by
  decide +kernel

/-- V-M1, the merge of I29 in program P1. -/
theorem test_init_merges_ccucon0 :
    after (exec .init (holding .ccucon0 0x11110100
        { atStep (.init .I29) with cfg := { Cfg.reset with ccucon0 := ⟨0x02020111, 0x030F7FFF⟩ } }))
      (fun t => t.port == [.write .ccucon0 0x52120111, .read .ccucon0 0x11110100]) = true := by
  decide +kernel

/-- V-M5: a trigger bit is written as 1 and reads back as 0. -/
theorem test_init_requests_lock_detection :
    after (exec .init (holding .pllcon0 0x01014E41 (atStep (.init .I23))))
      (fun t => t.port == [.write .pllcon0 0x01054E41, .read .pllcon0 0x01014E41] &&
        sfrValue t .pllcon0 == 0x01014E41 && t.seq == .pllLocking) = true := by
  decide +kernel

/-- V-M3: with mask 0 the value is ignored and the forced fields are still written. -/
theorem test_merge_with_empty_mask :
    setFields (merge 0x10001000 ⟨0xFFFFFFFF, 0⟩) [(.insel, Config.encOsc), (.up1, 1)] = 0x50001000 := by decide

/-- V-M4: the flash wait states. -/
theorem test_merge_flash : merge 0x00001234 ⟨0x00000105, 0x00003F3F⟩ = 0x00000105 := by decide

/-- V-I5, first sample: one flag alone is a failed sample. -/
theorem test_osc_check_needs_both_flags :
    after (oscCheck 3 (.init .I12) (showing .plllv 1 (atStep (.init .I11))))
      (fun t => t.ustep == .init .I11 && t.pollcnt == 1) = true := by decide

/-- V-I5 with budget 2: the second failed sample ends the check. -/
theorem test_osc_check_budget_exhausted :
    after (oscCheck 2 (.init .I12) { showing .pllhv 1 (atStep (.init .I11)) with phase := .looping, pollcnt := 1 })
      (fun t => t.ustep == .init .I12 && t.pollcnt == 2 && !t.oscok) = true := by decide

/-- V-W2: the elapsed ticks across a wrap-around of the timer. -/
theorem test_wait_across_wrap_around :
    elapsedTicks { State.reset with wstart := 0xFFFFFFFE, ext := { Ext.reset with timer := 0 } } = 2 := by decide

/-- V-W3: 2.9999 ticks are 2. -/
theorem test_tick_round_is_floor : Config.tickRound ((Q.ofNat 29999).divNat 10000) = 2 := by
  simp only [Config.tickRound, Q.floor, Q.divNat_val, Q.ofNat_val]
  norm_num [Rat.floor_def]
  rfl

/-- V-B1: on the backup clock the first µstep reads CCUCON0 once and goes to the end. -/
theorem test_swbackup_on_backup_clock :
    after (exec .swbackup (atStep .idle)) (fun t => t.ustep == .back .B20 && t.port == [.read .ccucon0 0]) = true := by
  decide +kernel

/-- V-M6: the selection of the backup clock; the sampled lock-busy flag is written back without effect. -/
theorem test_swbackup_selects_backup :
    after (exec .swbackup (holding .ccucon0 0x81110100 (atStep (.back .B14))))
      (fun t => t.port == [.write .ccucon0 0xC1110100, .read .ccucon0 0x81110100] &&
        sfrValue t .ccucon0 == 0x81110100) = true := by
  decide +kernel

/-- 93 U25: the environment raises NDIV and the sampled lock of PLLSTAT between the read and the write of I3; NDIV's change is
not in I3's register and stays. The same change inside I17, a field write of PLLCON0, is lost: NDIV ends as read. -/
theorem test_change_between_read_and_write_is_lost :
    let e := (showing .ndiv 59 (showing .vcolock 1 State.reset)).ext
    after (exec .init { atStep (.init .I3) with between := some e })
      (fun t => fieldValue t .ndiv == 59 && fieldValue t .vcolock == 1 && t.between == none) = true ∧
    after (exec .init { showing .ndiv 7 (atStep (.init .I17)) with between := some e })
      (fun t => fieldValue t .ndiv == 7 && fieldValue t .vcolock == 1 && t.between == none) = true := by
  decide +kernel

/-- V-E3: with budget 1 one failed sample ends the poll. -/
theorem test_eray_poll_budget_one :
    after (erayLockPoll 1 (.eray .E9) { atStep (.eray .E8) with elockok := true })
      (fun t => t.ustep == .eray .E9 && t.pollcnt == 1 && !t.elockok) = true := by decide

/-- V-E1: a failed lock poll leaves the bypass alone and reports ERR = 3. -/
theorem test_eray_failure :
    after (exec .initeray (atStep (.eray .E9))) (fun t => t.ustep == .eray .E10 && t.port == []) = true ∧
    after (exec .initeray (atStep (.eray .E11))) (fun t => t.fail && t.err == 3 && !t.busy) = true := by decide +kernel

/-- The registers program P1 ends with, as far as the queries need them (95 section 3): SRIDIV = 1, SPBDIV = 2, GTMDIV = 2,
FSIDIV = 2, BAUD1DIV = BAUD2DIV = 1, CPUDIV = 1, 2, 1. -/
def endOfP1 : State :=
  holding .ccucon0 0x12120111 (holding .ccucon1 0x10002000 (holding .ccucon6 1 (holding .ccucon7 2
    (holding .ccucon8 1 State.reset))))

theorem test_qsri_at_end_of_p1 :
    ∃ t, exec .qsri endOfP1 = .next t ∧ t.res = (fSource endOfP1).divNat 1 := ⟨_, rfl, rfl⟩
theorem test_qspb_at_end_of_p1 :
    ∃ t, exec .qspb endOfP1 = .next t ∧ t.res = (fSource endOfP1).divNat 2 := ⟨_, rfl, rfl⟩
theorem test_qbaud_at_end_of_p1 :
    ∃ t, exec (.qbaud 2) endOfP1 = .next t ∧ t.res = (fSource endOfP1).divNat 1 := ⟨_, rfl, rfl⟩
theorem test_qcpu_at_end_of_p1 :
    ∃ t, exec (.qcpu 1) endOfP1 = .next t ∧ t.res = ((fSource endOfP1).divNat 1).divNat 2 := ⟨_, rfl, rfl⟩
theorem test_qgtm_at_end_of_p1 :
    ∃ t, exec .qgtm endOfP1 = .next t ∧ t.res = (fSource endOfP1).divNat 2 := ⟨_, rfl, rfl⟩
theorem test_qfsi_at_end_of_p1 :
    ∃ t, exec .qfsi endOfP1 = .next t ∧ t.res = ((fSource endOfP1).divNat 1).divNat 2 := ⟨_, rfl, rfl⟩

/-- QMOD needs the whole register file, each register once: MOD_DIV is a function of it. -/
theorem test_qmod_reads_every_register_once :
    (queryRegs endOfP1 .modTap).Nodup ∧ (∀ r ∈ allRegs, r ∈ queryRegs endOfP1 .modTap) ∧
    (queryRegs endOfP1 .modTap).length = 16 := by decide +kernel

/-- V-Q5: an unrecognized clock selection gives 0. -/
theorem test_qmod_unrecognized_source :
    fSource (holding .ccucon0 0x20020100 State.reset) = Q.zero := rfl

/-- V-Q4: in low-power mode 2 the field is not consulted. -/
theorem test_low_power_ignores_a_zero_field :
    tapFreq (Q.ofNat 200000000) 0 true 2 = (Q.ofNat 200000000).divNat 60 := rfl

/-- A query's word placed for the fetch runs as the next step. -/
theorem test_fetched_word_runs :
    after (step (State.reset.withFetchWord 64 2)) (fun t => t.ustep == .init .I2 && t.busy) = true := by decide +kernel

/-! ## For every statement with hypotheses, states and operands that meet them

Each theorem names its statement (Certificates/Slice0/Obligations.lean); where the statement ranges over rows or clauses, the
theorem goes through them. -/

theorem witness_DecodeInvertsEncode :
    (Instr.solve 0xFFFFFFFF).wf = true ∧ (Instr.qbaud 1).wf = true ∧ (Instr.qbaud 2).wf = true ∧
    (Instr.qcpu 0).wf = true ∧ (Instr.qcpu 2).wf = true ∧ Instr.qmod.wf = true := by decide

theorem witness_EveryWordIsOneCommandOrIllegal :
    (decode 0xFFFFFFFF00000001 = .ok (.solve 0xFFFFFFFF) ∧ encode (.solve 0xFFFFFFFF) = 0xFFFFFFFF00000001) ∧
    decode 0x0000000000000017 = .error .reservedOpcode := ⟨⟨rfl, rfl⟩, rfl⟩

theorem witness_IllegalCommandsByOrderedTests :
    let s := scripted .seq { atStep .idle with cmd := 0x0000000000000012 }
    currentTurn s = .seq ∧ s.busy = true ∧ s.ustep = .idle ∧ decode s.cmd = .error .argRange := ⟨rfl, rfl, rfl, rfl⟩

theorem witness_StepRunsTheDecodedCommand :
    let s := State.reset.withFetchWord 64 2
    currentTurn s = .seq ∧ s.busy = true ∧ s.ustep = .idle ∧ decode s.cmd = .ok .init := ⟨rfl, rfl, rfl, rfl⟩

theorem witness_StepContinuesTheRunningSequence (u : UStep) :
    currentTurn (scripted .seq (atStep u)) = .seq ∧ (scripted .seq (atStep u)).busy = true ∧
    (scripted .seq (atStep u)).ustep = u := ⟨rfl, rfl, rfl⟩

theorem witness_ResetValues :
    (scripted .seq State.reset).busy = false ∧ currentTurn (scripted .seq State.reset) = .seq := ⟨rfl, rfl⟩

/-- A state in the middle of INIT meets the invariant. -/
theorem test_invariant_holds_inside_init : Machine.Inv (scripted .seq (atStep (.init .I2))) := by
  refine ⟨⟨rfl, rfl⟩, ⟨?_, ?_⟩, ⟨rfl, by decide⟩, ⟨Nat.zero_le _, Nat.zero_le _, rfl⟩, Nat.zero_le _, ?_, ?_, ?_⟩ <;>
    simp [scripted, atStep, State.reset]

theorem witness_EveryStepKeepsTheInvariant :
    Machine.Inv (scripted .seq (atStep (.init .I2))) ∧ ∃ t, step (scripted .seq (atStep (.init .I2))) = .next t :=
  ⟨test_invariant_holds_inside_init, _, rfl⟩

theorem witness_NoStepWritesWithoutItsLock : Machine.Inv (scripted .seq (atStep (.init .I2))) :=
  test_invariant_holds_inside_init

theorem witness_ConfigurationStableWhileBusy :
    let s := scripted .seq (atStep (.back .B9))
    s.busy = true ∧ s.ustep ≠ .idle ∧ ∃ t, step s = .next t := ⟨rfl, by decide, _, rfl⟩

theorem witness_HostMovesOnlyWhileIdle :
    (scripted (.host (.command 2)) (atStep (.init .I7))).busy = true ∧
    (scripted (.host (.command 2)) State.reset).busy = false ∧
    (scripted (.host (.command 2)) State.reset).agenda = [.host (.command 2)] := ⟨rfl, rfl, rfl⟩

/-- Both ends of the two bounds: NSTEPS = MAXSTEPS is written, MAXSTEPS + 1 refused; STEP[MAXSTEPS] refused. -/
theorem witness_HostWritesOneConfigurationField :
    (scripted (.host (.cfg (.nsteps Config.maxSteps))) State.reset).busy = false ∧
    cfgWriteOk (.nsteps Config.maxSteps) = true ∧ cfgWriteOk (.nsteps (Config.maxSteps + 1)) = false ∧
    cfgWriteOk (.step Config.maxSteps (quickStep 1)) = false ∧
    (∀ n, CfgWrite.xtal 20000000 ≠ .nsteps n) ∧ (∀ i v, CfgWrite.xtal 20000000 ≠ .step i v) ∧
    (scripted (.host (.ecfg (.n 31))) State.reset).busy = false := by
  simp [cfgWriteOk, scripted, State.reset]

theorem witness_EnvironmentTurnLeavesTheBlock :
    (scripted (.env (ready State.reset).ext) (atStep (.init .I7))).agenda = [.env (ready State.reset).ext] ∧
    (scripted (.between (ready State.reset).ext) (atStep (.init .I8))).agenda = [.between (ready State.reset).ext] :=
  ⟨rfl, rfl⟩

theorem witness_RegisterReadAndWrite :
    fieldClass .up0 = .w1t ∧
    (regDomain .fcon = some .cpu ∧ held (atStep (.init .I42)) .cpu = true) ∧
    (regDomain .ccucon0 = some .safety ∧ held (atStep (.init .I6)) .safety = true) := by decide

/-- The largest value of the field; a trigger field too; a change announced for the middle of the write, of a bit of the
register outside the field. -/
theorem witness_FieldWriteIsReadModifyWrite :
    (fieldClass .k2div ≠ .rh ∧ regDomain (fieldReg .k2div) = some .safety ∧
      held (atStep (.init .I16)) .safety = true ∧ (127#32).toNat < 2 ^ (Config.layout .k2div).width) ∧
    (fieldClass .resld ≠ .rh ∧ regDomain (fieldReg .resld) = some .safety ∧
      (1#32).toNat < 2 ^ (Config.layout .resld).width) ∧
    (atStep (.init .I16)).between = none ∧
    (let s := { atStep (.init .I23) with between := some (showing .ndiv 64 State.reset).ext }
     held s .safety = true ∧ s.between = some (showing .ndiv 64 State.reset).ext ∧
      (rwMask .pllcon0).getLsbD 15 = true ∧ ¬ InField .resld 15 ∧
      (sfrValue s .pllcon0).getLsbD 15 = false ∧ (sfrGet (showing .ndiv 64 State.reset).ext.sfr .pllcon0).getLsbD 15 = true) := by
  decide +kernel

/-- A bit inside the mask and one outside it, at the two ends of the word. -/
theorem witness_MaskedMergeBitByBit :
    0 < Config.regWidth ∧ 31 < Config.regWidth ∧ (0x80000000#32).getLsbD 31 = true ∧ (0x80000000#32).getLsbD 0 = false := by
  decide

/-- V-S5: the largest accepted target above 200 MHz. -/
theorem witness_SolveStoresAnAcceptedPlan :
    let s := { State.reset with cfg := { Cfg.reset with xtal := 20000000 } }
    solve s.cfg.xtal.toNat (204081632#32).toNat = some ⟨2, 40, 2, 4081632⟩ ∧ 100 * 4081632 < 2 * (204081632#32).toNat := by
  decide +kernel

/-- V-S6: one more Hertz and no plan is accepted; V-S13: no candidate at all. -/
theorem witness_SolveFailureLeavesUnspecifiedPlan :
    solve (20000000#32).toNat (204081633#32).toNat = some ⟨2, 40, 2, 4081633⟩ ∧
    ¬ 100 * 4081633 < 2 * (204081633#32).toNat ∧ solve (20000000#32).toNat (800000001#32).toNat = none := by
  decide +kernel

/-- V-S13 and V-S2. -/
theorem witness_SolverReturnsFirstLeastError :
    solve 20000000 800000001 = none ∧ solve 20000000 200000000 = some ⟨2, 40, 2, 0⟩ := by decide +kernel

/-- V-S8 and V-S9: the two sides of the fine-step threshold. -/
theorem witness_SolverResultInRange :
    solve 20000000 240000000 = some ⟨2, 48, 2, 0⟩ ∧ 240000000 ≤ 240000000 ∧
    solve 20000000 240000001 = some ⟨2, 48, 2, 1⟩ := by decide +kernel

/-- V-S12: the upper end of the VCO window; V-S10: the lower end of the reference window. -/
theorem witness_SolverFindsAnExactMatch :
    (1 ∈ k2Values 800000000 ∧ 8000000 ≤ 20000000 / 2 ∧ 20000000 / 2 ≤ 24000000 ∧ 400000000 ≤ 800000000 * 1 ∧
      800000000 * 1 ≤ 800000000 ∧ 80 / (2 * 1) * 20000000 = 800000000) ∧
    (2 ∈ k2Values 200000000 ∧ 8000000 ≤ 8000000 / 1 ∧ 8000000 / 1 ≤ 24000000 ∧ 400000000 ≤ 200000000 * 2 ∧
      200000000 * 2 ≤ 800000000 ∧ 50 / (1 * 2) * 8000000 = 200000000) := by decide +kernel

theorem witness_SolveSucceedsOnlyNearAMultiple :
    solve 20000000 204081632 = some ⟨2, 40, 2, 4081632⟩ ∧ accepted 204081632 ⟨2, 40, 2, 4081632⟩ = true := by
  decide +kernel

/-- Each bound of the corner cases just outside its window, both ends of the fine range, and V-S16's exact 2%. -/
theorem witness_SolverCornerCases :
    solve 20000000 0 = none ∧ solve 0 200000000 = none ∧ solve 7999999 200000000 = none ∧
    solve 384000016 768000032 = none ∧ solve 20000000 3124999 = none ∧ solve 20000000 800000001 = none ∧
    (k2Values 400000000).head? = some 1 ∧ (k2Values 800000000).head? = some 1 ∧
    100 * (⟨1, 34, 2, 5000000⟩ : Candidate).err = 2 * 250000000 := by
  decide +kernel

theorem witness_InitStartsBySamplingTheTrap :
    (atStep .idle).ustep = .idle ∧ (atStep (.init .I1)).ustep = .init .I1 := ⟨rfl, rfl⟩

theorem witness_InitFieldWriteSteps :
    ∀ l ∈ ([.I3, .I8, .I16, .I17, .I18, .I19, .I20, .I21, .I22, .I26, .I47, .I53, .I54] : List InitStep),
      (atStep (.init l)).ustep = .init l ∧ (atStep (.init l)).heldSafety = true := by decide

theorem witness_InitSelectSteps :
    ∀ l ∈ ([.I6, .I9, .I27] : List InitStep),
      (atStep (.init l)).ustep = .init l ∧ (atStep (.init l)).heldSafety = true := by decide

theorem witness_InitMergeSteps :
    ∀ q ∈ ([(.I29, .safety), (.I31, .safety), (.I33, .safety), (.I35, .safety), (.I42, .cpu)] : List (InitStep × Domain)),
      (atStep (.init q.1)).ustep = .init q.1 ∧ held (atStep (.init q.1)) q.2 = true := by decide

theorem witness_InitOverwriteSteps :
    ∀ l ∈ ([.I37, .I38, .I39] : List InitStep),
      (atStep (.init l)).ustep = .init l ∧ (atStep (.init l)).heldSafety = true := by decide

theorem witness_InitRestartsLockDetection :
    (atStep (.init .I23)).ustep = .init .I23 ∧ (atStep (.init .I23)).heldSafety = true := by decide

/-- Each poll with the awaited value shown and with the other value shown. -/
theorem witness_InitPollSteps :
    ∀ q ∈ ([(.I7, .lck0, 0, 1), (.I10, .lck1, 0, 1), (.I15, .k2rdy, 1, 0), (.I25, .vcolock, 1, 0), (.I28, .lck0, 0, 1),
        (.I30, .lck0, 0, 1), (.I32, .lck1, 0, 1), (.I34, .lck2, 0, 1), (.I36, .lck5, 0, 1), (.I46, .k2rdy, 1, 0)] :
        List (InitStep × Field × Word × Word)),
      (atStep (.init q.1)).ustep = .init q.1 ∧
      fieldValue (showing q.2.1 q.2.2.1 (atStep (.init q.1))) q.2.1 = q.2.2.1 ∧
      fieldValue (showing q.2.1 q.2.2.2 (atStep (.init q.1))) q.2.1 ≠ q.2.2.1 := by decide +kernel

theorem witness_InitLockSteps :
    ∀ l ∈ ([.I2, .I4, .I5, .I12, .I14, .I40, .I41, .I43, .I45, .I48, .I52, .I55] : List InitStep),
      (atStep (.init l)).ustep = .init l := by decide

theorem witness_InitBranchSteps :
    ∀ l ∈ ([.I13, .I44, .I51] : List InitStep), (atStep (.init l)).ustep = .init l := by decide

/-- Both flags shown; a failed sample that reaches the budget; a failed sample that does not. -/
theorem witness_InitOscillatorCheck :
    (fieldValue (ready (atStep (.init .I11))) .plllv = 1 ∧ fieldValue (ready (atStep (.init .I11))) .pllhv = 1) ∧
    (let s := { showing .plllv 1 (atStep (.init .I11)) with
        phase := .looping, pollcnt := Config.oscStableBudgetLessOne }
     fieldValue s .pllhv ≠ 1 ∧ s.pollcnt + 1 = Config.oscStableBudget) ∧
    (let s := { atStep (.init .I11) with phase := .looping, pollcnt := Config.oscStableBudget }
     fieldValue s .plllv ≠ 1 ∧ s.pollcnt + 1 ≠ Config.oscStableBudget) := by
  refine ⟨by decide +kernel, ⟨?_, rfl⟩, ?_, Nat.succ_ne_self _⟩
  · show fieldValue (showing .plllv 1 (atStep (.init .I11))) .pllhv ≠ 1
    decide +kernel
  · show fieldValue (atStep (.init .I11)) .plllv ≠ 1
    decide +kernel

/-- The first µstep of each wait; a later one that leaves exactly at the target, across a wrap-around; one tick too early. -/
theorem witness_WaitSteps :
    ∀ u ∈ ([.init .I24, .init .I50, .back .B7, .eray .E7] : List UStep),
      let s := { atStep u with phase := .looping, wstart := 0xFFFFFFFE, wtarget := 2 }
      let early := { s with ext := { s.ext with timer := 0xFFFFFFFF } }
      (atStep u).ustep = u ∧ (atStep u).phase ≠ .looping ∧ s.phase = .looping ∧
      (s.ext.timer.toNat + 2 ^ Config.timerWidth - s.wstart.toNat) % 2 ^ Config.timerWidth ≥ s.wtarget ∧
      (early.ext.timer.toNat + 2 ^ Config.timerWidth - early.wstart.toNat) % 2 ^ Config.timerWidth < early.wtarget := by decide +kernel

theorem witness_TooLongAWaitNeverLeaves :
    let s := { atStep (.init .I24) with phase := .looping, wtarget := 2 ^ Config.timerWidth }
    s.ustep = .init .I24 ∧ s.phase = .looping ∧ 2 ^ Config.timerWidth ≤ s.wtarget := ⟨rfl, rfl, le_rfl⟩

/-- No hook; a hook not yet called; a hook running; its return, with any effect allowed. -/
theorem witness_HookIsCalledOnce :
    let s := atStep (.init .I49)
    let h := { s with cfg := { s.cfg with nsteps := 1, steps := [⟨1, Q.zero, some 7⟩] } }
    let r := scripted (.hook (ready s).ext) { h with phase := .inHook 7 }
    s.ustep = .init .I49 ∧ (∀ k, s.phase ≠ .inHook k) ∧ (rampStep s.cfg s.loopi).hook = none ∧
    (rampStep h.cfg h.loopi).hook = some 7 ∧ r.phase = .inHook 7 ∧ r.agenda = [.hook (ready s).ext] ∧
    Config.hookEffect 7 r.ext (ready s).ext = true :=
  ⟨rfl, fun _ => by simp [atStep, State.reset], rfl, rfl, rfl, rfl, rfl⟩

theorem witness_InitResultStep :
    (atStep (.init .I56)).oscok = false ∧ ({ atStep (.init .I56) with oscok := true } : State).ustep = .init .I56 := ⟨rfl, rfl⟩

/-- A wait of no time has no tick. -/
theorem test_zero_wait_has_no_tick (s : State) : NoWait s Q.zero := by
  simp [NoWait, Config.tickRound, Q.floor, Rat.floor_def]

theorem witness_InitReachesSteadyState :
    let s := ready State.reset
    s.ustep = .idle ∧ NoLockHeld s ∧ NoChangeBetween s ∧ s.cfg.nsteps = 0 ∧ NoWait s s.cfg.initWait ∧ DistributionIdle s ∧ PllReady s ∧
    OscStable s := by
  refine ⟨rfl, ⟨rfl, rfl⟩, rfl, rfl, test_zero_wait_has_no_tick _, ?_, ?_, ?_⟩ <;>
    simp only [DistributionIdle, PllReady, OscStable] <;> decide +kernel

theorem witness_InitFailsCleanlyWhenOscillatorUnstable :
    let s := showing .plllv 1 State.reset
    s.ustep = .idle ∧ NoLockHeld s ∧ NoChangeBetween s ∧ DistributionIdle s ∧ ¬ OscStable s := by
  refine ⟨rfl, ⟨rfl, rfl⟩, rfl, ?_, ?_⟩ <;> simp only [DistributionIdle, OscStable] <;> decide +kernel

theorem witness_RampUpVisitsEveryStep :
    let s := ready (atStep (.init .I44))
    let r := { s with cfg := { s.cfg with nsteps := 2, steps := [quickStep 3, quickStep 1] } }
    r.ustep = .init .I44 ∧ NoLockHeld r ∧ NoChangeBetween r ∧ 0 < r.cfg.nsteps ∧ fieldValue r .k2rdy = 1 ∧
    ∀ i, i < r.cfg.nsteps → (rampStep r.cfg i).hook = none ∧ NoWait r (rampStep r.cfg i).wait := by
  refine ⟨rfl, ⟨rfl, rfl⟩, rfl, Nat.zero_lt_two, by decide +kernel, ?_⟩
  intro i hi
  match i, hi with
  | 0, _ => exact ⟨rfl, test_zero_wait_has_no_tick _⟩
  | 1, _ => exact ⟨rfl, test_zero_wait_has_no_tick _⟩

theorem witness_UnboundedPollsSpinForEver :
    ∀ q ∈ ([(.init .I7, .lck0, 0, 1), (.init .I10, .lck1, 0, 1), (.init .I15, .k2rdy, 1, 0), (.init .I25, .vcolock, 1, 0),
        (.init .I28, .lck0, 0, 1), (.init .I30, .lck0, 0, 1), (.init .I32, .lck1, 0, 1), (.init .I34, .lck2, 0, 1),
        (.init .I36, .lck5, 0, 1), (.init .I46, .k2rdy, 1, 0), (.back .B4, .k2rdy, 1, 0), (.back .B15, .lck0, 0, 1),
        (.eray .E2, .erayK2rdy, 1, 0)] : List (UStep × Field × Word × Word)),
      (atStep q.1).ustep = q.1 ∧ fieldValue (showing q.2.1 q.2.2.2 (atStep q.1)) q.2.1 ≠ q.2.2.1 := by decide +kernel

theorem witness_EveryMicrostepCompletesUnderItsLocks (u : UStep) : LocksMatch (atStep u) ∧ (atStep u).ustep = u :=
  ⟨⟨rfl, rfl⟩, rfl⟩

theorem witness_BackupIsANoOpOnBackupClock :
    State.reset.ustep = .idle ∧ fieldValue State.reset .clksel = Config.encBackup := by decide +kernel

theorem witness_BackupFieldWriteSteps :
    ∀ l ∈ ([.B5, .B11, .B16, .B17, .B18] : List BackStep),
      (atStep (.back l)).ustep = .back l ∧ (atStep (.back l)).heldSafety = true := by decide

theorem witness_BackupControlSteps :
    ∀ l ∈ ([.B1, .B2, .B3, .B6, .B8, .B9, .B10, .B12, .B13, .B19] : List BackStep),
      (atStep (.back l)).ustep = .back l := by decide

/-- B1 on the backup clock; B20 as it is reached from B1. -/
theorem witness_BackupControlSteps_from_B1 :
    fieldValue (atStep (.back .B1)) .clksel = Config.encBackup ∧
    (atStep (.back .B20)).ustep = .back .B20 ∧ (atStep (.back .B20)).phase ≠ .fullPath := by decide +kernel

/-- V-B1: reached from B1, B20 leaves SEQ as it was. -/
theorem test_swbackup_keeps_seq_from_b1 :
    after (exec .swbackup { atStep (.back .B20) with seq := .steadyState })
      (fun t => t.seq == .steadyState && !t.fail && !t.busy) = true := by decide +kernel

theorem witness_BackupSelectAndPollSteps :
    (atStep (.back .B14)).heldSafety = true ∧
    fieldValue (ready (atStep (.back .B4))) .k2rdy = 1 ∧ fieldValue (atStep (.back .B4)) .k2rdy ≠ 1 ∧
    fieldValue (atStep (.back .B15)) .lck0 = 0 ∧ fieldValue (showing .lck0 1 (atStep (.back .B15))) .lck0 ≠ 0 := by
  decide +kernel

/-- V-B2 (no ramp step) with the reserved selection code of V-B3, and a ramp of two steps on the PLL. -/
theorem witness_BackupRampsDownToBackupClock :
    (let s := showing .clksel 2 (ready State.reset)
     s.ustep = .idle ∧ NoLockHeld s ∧ NoChangeBetween s ∧ fieldValue s .clksel ≠ Config.encBackup ∧ fieldValue s .k2rdy = 1 ∧
      fieldValue s .lck0 = 0 ∧ ∀ i, i < s.cfg.nsteps → NoWait s (rampStep s.cfg i).wait) ∧
    (let s := showing .clksel 1 (ready State.reset)
     let r := { s with cfg := { s.cfg with nsteps := 2, steps := [quickStep 3, quickStep 1] } }
     r.ustep = .idle ∧ NoLockHeld r ∧ NoChangeBetween r ∧ fieldValue r .clksel ≠ Config.encBackup ∧ fieldValue r .k2rdy = 1 ∧
      fieldValue r .lck0 = 0 ∧ ∀ i, i < r.cfg.nsteps → NoWait r (rampStep r.cfg i).wait) := by
  refine ⟨⟨rfl, ⟨rfl, rfl⟩, rfl, by decide +kernel, by decide +kernel, by decide +kernel, ?_⟩,
    ⟨rfl, ⟨rfl, rfl⟩, rfl, by decide +kernel, by decide +kernel, by decide +kernel, ?_⟩⟩ <;> intro i hi
  · exact absurd hi (Nat.not_lt_zero i)
  · match i, hi with
    | 0, _ => exact test_zero_wait_has_no_tick _
    | 1, _ => exact test_zero_wait_has_no_tick _

theorem witness_ErayMicrosteps :
    (∀ l ∈ ([.E3, .E4, .E5, .E6, .E9] : List ErayStep),
      (atStep (.eray l)).ustep = .eray l ∧ (atStep (.eray l)).heldSafety = true) ∧
    (∀ l ∈ ([.E1, .E10, .E11] : List ErayStep), (atStep (.eray l)).ustep = .eray l) ∧
    ({ atStep (.eray .E9) with elockok := true } : State).heldSafety = true ∧ (atStep (.eray .E9)).elockok = false ∧
    fieldValue (ready (atStep (.eray .E2))) .erayK2rdy = 1 ∧ fieldValue (atStep (.eray .E2)) .erayK2rdy ≠ 1 := by
  decide +kernel

theorem witness_ErayBoundedLockPoll :
    fieldValue (ready (atStep (.eray .E8))) .erayVcolock = 1 ∧
    (let s := { atStep (.eray .E8) with phase := .looping, pollcnt := Config.erayLockBudgetLessOne }
     fieldValue s .erayVcolock ≠ 1 ∧ s.pollcnt + 1 = Config.erayLockBudget) ∧
    (let s := { atStep (.eray .E8) with phase := .looping, pollcnt := Config.erayLockBudget }
     fieldValue s .erayVcolock ≠ 1 ∧ s.pollcnt + 1 ≠ Config.erayLockBudget) := by
  refine ⟨by decide +kernel, ⟨?_, rfl⟩, ?_, Nat.succ_ne_self _⟩ <;>
    exact (by decide +kernel : fieldValue (atStep (.eray .E8)) .erayVcolock ≠ 1)

theorem witness_ErayLocksAndClearsTheBypass :
    let s := ready State.reset
    s.ustep = .idle ∧ NoLockHeld s ∧ NoChangeBetween s ∧ fieldValue s .erayK2rdy = 1 ∧ fieldValue s .erayVcolock = 1 ∧
    NoWait s s.ecfg.wait :=
  ⟨rfl, ⟨rfl, rfl⟩, rfl, by decide +kernel, by decide +kernel, test_zero_wait_has_no_tick _⟩

theorem witness_ErayTimesOutAfterItsBudget :
    let s := showing .erayVcolock 0 (ready State.reset)
    s.ustep = .idle ∧ NoLockHeld s ∧ NoChangeBetween s ∧ fieldValue s .erayK2rdy = 1 ∧ fieldValue s .erayVcolock ≠ 1 ∧
    NoWait s s.ecfg.wait :=
  ⟨rfl, ⟨rfl, rfl⟩, rfl, by decide +kernel, by decide +kernel, test_zero_wait_has_no_tick _⟩

/-- Backup clock; PLL in normal mode; PLL bypassed; an unrecognized selection. -/
theorem witness_SourceFrequency :
    fieldValue State.reset .clksel = Config.encBackup ∧
    (let s := showing .clksel 1 State.reset
     fieldValue s .clksel = Config.encPll ∧ fieldValue s .vcobyst = 0 ∧ fieldValue s .findis = 0) ∧
    (let s := showing .findis 1 (showing .clksel 1 State.reset)
     fieldValue s .clksel = Config.encPll ∧ ¬ (fieldValue s .vcobyst = 0 ∧ fieldValue s .findis = 0)) ∧
    (let s := showing .clksel 3 State.reset
     fieldValue s .clksel ≠ Config.encBackup ∧ fieldValue s .clksel ≠ Config.encPll) := by decide +kernel

/-- Both ends of the unrecognized low-power modes. -/
theorem witness_TapComputation : 5 ≤ 5 ∧ 5 ≤ 7 ∧ 7 ≤ 7 := by decide

/-- A tap of fSource, one fed by the SRI tap and one fed by the SPB tap; and a state that reads the same in every register
and differs elsewhere. -/
theorem witness_QueriesAnswerTheirTaps :
    let s := endOfP1
    let lp := (fieldValue s .lpdiv).toNat
    let sri := tapFreq (fSource s) (fieldValue s .sridiv).toNat true lp
    let spb := tapFreq (fSource s) (fieldValue s .spbdiv).toNat true lp
    let rows : List (Instr × Q) := [
       (.qsri, sri), (.qspb, spb),
       (.qbaud 1, tapFreq (fSource s) (fieldValue s .baud1div).toNat false lp),
       (.qbaud 2, tapFreq (fSource s) (fieldValue s .baud2div).toNat false lp),
       (.qcpu 0, tapFreq sri (fieldValue s .cpudiv6).toNat false lp),
       (.qcpu 1, tapFreq sri (fieldValue s .cpudiv7).toNat false lp),
       (.qcpu 2, tapFreq sri (fieldValue s .cpudiv8).toNat false lp),
       (.qgtm, tapFreq (fSource s) (fieldValue s .gtmdiv).toNat false lp),
       (.qfsi, tapFreq sri (fieldValue s .fsidiv).toNat false lp),
       (.qmod, tapFreq spb (Config.modDiv (readableFile s)) false lp)]
    (.qbaud 2, tapFreq (fSource s) (fieldValue s .baud2div).toNat false lp) ∈ rows ∧
    (.qcpu 1, tapFreq sri (fieldValue s .cpudiv7).toNat false lp) ∈ rows ∧
    (.qmod, tapFreq spb (Config.modDiv (readableFile s)) false lp) ∈ rows ∧
    ∀ r, sfrValue { s with busy := true } r = sfrValue s r := by
  refine ⟨?_, ?_, ?_, fun _ => rfl⟩ <;> simp

/-- The five rows of the table, each with the two divisors the statement takes. -/
theorem witness_LowPowerTableIsExact :
    ((fieldValue endOfP1 .lpdiv).toNat = 0 ∧ (fieldValue endOfP1 .sridiv).toNat = 1 ∧
      (fieldValue endOfP1 .spbdiv).toNat = 2) ∧
    ((fieldValue State.reset .lpdiv).toNat = 0 ∧ (fieldValue State.reset .sridiv).toNat = 0) ∧
    (∀ q ∈ ([(1, 30), (2, 60), (3, 120), (4, 240)] : List (ℕ × ℕ)),
      (fieldValue (showing .lpdiv (BitVec.ofNat Config.regWidth q.1) endOfP1) .lpdiv).toNat = q.1) ∧
    fieldValue (showing .cpudiv6 63 State.reset) .cpudiv6 ≠ 0 ∧ fieldValue (showing .fsidiv 3 State.reset) .fsidiv ≠ 0 := by
  decide +kernel

/-- Every zero field, and both ends of the unrecognized low-power modes over fields that are not zero. (That MOD_DIV is 0
cannot be shown of any state: the parameter has no body, log 6.) -/
theorem witness_ZeroDividerGivesZero :
    (∀ f ∈ ([.baud1div, .baud2div, .cpudiv6, .cpudiv7, .cpudiv8, .gtmdiv, .fsidiv] : List Field),
      fieldValue State.reset f = 0) ∧
    fieldValue State.reset .lpdiv = 0 ∧ fieldValue State.reset .sridiv = 0 ∧ fieldValue State.reset .spbdiv = 0 ∧
    ∀ k ∈ ([5, 7] : List ℕ),
      5 ≤ (fieldValue (showing .lpdiv (BitVec.ofNat Config.regWidth k) endOfP1) .lpdiv).toNat ∧
      fieldValue (showing .lpdiv (BitVec.ofNat Config.regWidth k) endOfP1) .sridiv ≠ 0 := by
  decide +kernel

theorem witness_MissingTapIsIllegal :
    (3#8).toNat > Config.nBaud ∧ (255#8).toNat > Config.nBaud ∧ (3#8).toNat ≥ Config.nCores := by decide

end Sys2Proof.Tests
end

section
/-! The turn named first in the script, and the environment's two turns (00_scope R2, 20_memory R66). -/

namespace Sys2Proof.Machine

variable {s : State} {t : Turn} {rest : List Turn}

/-- A scripted turn is the one taken if its agent can make it. -/
theorem currentTurn_of_agenda (ha : s.agenda = t :: rest) (hen : enabled s t = true) : currentTurn s = t := by
  have hnamed : namedTurn s = t := by simp [namedTurn, ha]
  simp [currentTurn, hnamed, hen]

/-- A scripted turn that is made leaves the script and nothing else. -/
theorem takeTurn_of_agenda (ha : s.agenda = t :: rest) (hen : enabled s t = true) :
    takeTurn s = { s with agenda := rest } := by
  simp [takeTurn, ha, hen]

/-- The environment can move in every state, so its scripted turn is always made (00_scope R2). -/
theorem step_of_agenda_env (e : Ext) (ha : s.agenda = .env e :: rest) :
    step s = .next (envTurn e { s with agenda := rest }) := by
  have hen : enabled s (.env e) = true := rfl
  simp [step, currentTurn_of_agenda ha hen, takeTurn_of_agenda ha hen]

/-- A scripted announcement is likewise always made (log 33). -/
theorem step_of_agenda_between (e : Ext) (ha : s.agenda = .between e :: rest) :
    step s = .next (betweenTurn e { s with agenda := rest }) := by
  have hen : enabled s (.between e) = true := rfl
  simp [step, currentTurn_of_agenda ha hen, takeTurn_of_agenda ha hen]

/-- Settles O14: the environment's turn is always enabled, so the step is that turn with its entry gone from the script. -/
theorem environmentTurnLeavesTheBlock : Obligations.EnvironmentTurnLeavesTheBlock :=
  ⟨fun _ e _ ha => step_of_agenda_env e ha, fun _ e _ ha => step_of_agenda_between e ha⟩

end Sys2Proof.Machine
end

section
/-! The running sequence, the fields of the two configuration banks, and the invariant at reset (10_state R21 to R26, R46). -/

namespace Sys2Proof.Machine

/-- The sequencer's turn while BUSY = 1 and a sequence is in progress: the command is the label's, whatever CMD holds. -/
theorem step_of_running {s : State} {i : Instr} (hturn : currentTurn s = .seq) (hbusy : s.busy = true)
    (hlabel : (∃ l, s.ustep = .init l ∧ i = .init) ∨ (∃ l, s.ustep = .back l ∧ i = .swbackup) ∨
      (∃ l, s.ustep = .eray l ∧ i = .initeray)) :
    step s = exec i (takeTurn s) := by
  have hstep : step s = sequencerTurn (takeTurn s) := by simp [step, hturn]
  rw [hstep, sequencerTurn, takeTurn_busy, takeTurn_ustep, if_pos hbusy]
  obtain ⟨l, hu, rfl⟩ | ⟨l, hu, rfl⟩ | ⟨l, hu, rfl⟩ := hlabel <;> rw [hu]

/-- Settles O6: the sequencer's turn dispatches on the µstep label alone once a sequence is in progress. -/
theorem stepContinuesTheRunningSequence : Obligations.StepContinuesTheRunningSequence := fun _ hturn hbusy =>
  ⟨fun l hu => step_of_running hturn hbusy (.inl ⟨l, hu, rfl⟩),
    fun l hu => step_of_running hturn hbusy (.inr (.inl ⟨l, hu, rfl⟩)),
    fun l hu => step_of_running hturn hbusy (.inr (.inr ⟨l, hu, rfl⟩))⟩

/-- A scripted host move is made while BUSY = 0 (10_state R21). -/
theorem step_of_agenda_host {s : State} {rest : List Turn} (m : HostMove) (ha : s.agenda = .host m :: rest)
    (hidle : s.busy = false) : step s = hostTurn m { s with agenda := rest } := by
  have hen : enabled s (.host m) = true := by simp [enabled, hidle]
  simp [step, currentTurn_of_agenda ha hen, takeTurn_of_agenda ha hen]

theorem cfgWriteOk_nsteps (n : Nat) : cfgWriteOk (.nsteps n) = true ↔ n ≤ Config.maxSteps := decide_eq_true_iff

theorem cfgWriteOk_step (i : Nat) (v : RampStep) : cfgWriteOk (.step i v) = true ↔ i < Config.maxSteps :=
  decide_eq_true_iff

/-- Only the two bounded fields can be refused. -/
theorem cfgWriteOk_of_unbounded (w : CfgWrite) (hn : ∀ n, w ≠ .nsteps n) (hs : ∀ i v, w ≠ .step i v) :
    cfgWriteOk w = true := by
  cases w with
  | nsteps n => exact absurd rfl (hn n)
  | step i v => exact absurd rfl (hs i v)
  | _ => rfl

theorem rampStep_writeCfg_step (c : Cfg) (i j : Nat) (v : RampStep) :
    rampStep (writeCfg (.step i v) c) j = if j = i then v else rampStep c j :=
  getD_writeStep c.steps i j v

/-- Settles O13: the turn is the host's move (`step_of_agenda_host`); a ramp-step write is the bank's law. -/
theorem hostWritesOneConfigurationField : Obligations.HostWritesOneConfigurationField := by
  refine ⟨fun s w rest ha hidle => ⟨fun hok => ?_, fun hbad => ?_⟩, fun s w rest ha hidle => ?_,
    fun n v => ⟨cfgWriteOk_nsteps n, cfgWriteOk_step n v⟩, cfgWriteOk_of_unbounded, fun c => ?_,
    fun c i v => ⟨rfl, fun j => rampStep_writeCfg_step c i j v⟩, fun e => ?_⟩
  · rw [step_of_agenda_host _ ha hidle, hostTurn, if_pos hok]
  · rw [step_of_agenda_host _ ha hidle, hostTurn, if_neg (by simp [hbad])]
  · rw [step_of_agenda_host _ ha hidle, hostTurn]
  · refine ⟨?_, ?_, ?_, ?_, ?_, ?_, ?_, ?_, ?_, ?_, ?_, ?_, ?_, ?_⟩ <;> exact fun _ => rfl
  · exact ⟨fun _ => rfl, fun _ => rfl, fun _ => rfl, fun _ => rfl⟩

/-- Settles O8: at reset USTEP is IDLE and no lock is held, ERR is OK, and the banks are empty (log 8). -/
theorem invariantHoldsAtReset : Obligations.InvariantHoldsAtReset where
  locks := ⟨rfl, rfl⟩
  idle := ⟨fun _ => rfl, fun _ => rfl⟩
  flags := ⟨rfl, Nat.zero_le _⟩
  bank := ⟨Nat.zero_le _, Nat.zero_le _, rfl⟩
  ramp := by
    refine ⟨Nat.zero_le _, ?_, ?_, ?_⟩ <;> simp [State.reset]

end Sys2Proof.Machine
end

section
/-! The invariant, one rule for each operation a µstep is made of. Inside a µstep the state changes before its label does, so
the rules speak of `RunningAt l`: the invariant with the label `l` in the place of USTEP. -/

namespace Sys2Proof.Machine

/-! ## The invariant at a label -/

/-- The µsteps of the ramp up, where LOOPI is below NSTEPS. -/
abbrev rampUp : List UStep :=
  [.init .I45, .init .I46, .init .I47, .init .I48, .init .I49, .init .I50, .init .I51]

/-- The µsteps of the ramp down, where LOOPI is positive and at most NSTEPS. -/
abbrev rampDown : List UStep := [.back .B3, .back .B4, .back .B5, .back .B6, .back .B7, .back .B8]

/-- A command runs and the state is fit for the µstep label `l`. -/
structure RunningAt (l : UStep) (s : State) : Prop where
  busy   : s.busy = true
  cpu    : s.heldCpu = cpuHeldAt l
  safety : s.heldSafety = safetyHeldAt l
  flags  : FlagsAgree s
  bank   : CfgInRange s
  loopi  : s.loopi ≤ Config.maxSteps
  up     : l ∈ rampUp → s.loopi < s.cfg.nsteps
  down   : l ∈ rampDown → 0 < s.loopi ∧ s.loopi ≤ s.cfg.nsteps
  seqi   : s.seq = .steppingUp ∨ s.seq = .steppingDown → s.seqi < Config.maxSteps

/-- `t` agrees with `s` on all that the invariant reads but USTEP and the place inside the µstep. -/
structure Agrees (s t : State) : Prop where
  busy   : t.busy = s.busy
  fail   : t.fail = s.fail
  err    : t.err = s.err
  seq    : t.seq = s.seq
  seqi   : t.seqi = s.seqi
  cpu    : t.heldCpu = s.heldCpu
  safety : t.heldSafety = s.heldSafety
  loopi  : t.loopi = s.loopi
  cfg    : t.cfg = s.cfg

/-- The ramp's bounds at `l'` are those at `l`, or none. -/
abbrev RampFollows (l l' : UStep) : Prop := (l' ∈ rampUp → l ∈ rampUp) ∧ (l' ∈ rampDown → l ∈ rampDown)

/-- The lock flags the µstep lists give for `l'` are those for `l`. -/
abbrev SameLocks (l l' : UStep) : Prop := cpuHeldAt l' = cpuHeldAt l ∧ safetyHeldAt l' = safetyHeldAt l

/-- The lock flags the µstep lists give for `l'` are those for `l` but for domain `d`, whose flag is `b`. -/
abbrev Relocks (d : Domain) (b : Bool) (l l' : UStep) : Prop :=
  cpuHeldAt l' = (if d = .cpu then b else cpuHeldAt l) ∧
  safetyHeldAt l' = (if d = .safety then b else safetyHeldAt l)

variable {s t : State} {l l' : UStep}

theorem Agrees.refl (s : State) : Agrees s s := by constructor <;> rfl

theorem Inv.runningAt (h : Inv s) (hbusy : s.busy = true) : RunningAt s.ustep s := by
  obtain ⟨⟨hcpu, hsafety⟩, _, hflags, hbank, hmax, hup, hdown, hseqi⟩ := h
  exact ⟨hbusy, hcpu, hsafety, hflags, hbank, hmax, hup, hdown, hseqi⟩

/-- At a label that is not IDLE nothing else is asked. -/
theorem RunningAt.inv (h : RunningAt l s) (hu : s.ustep = l) (hne : l ≠ .idle) : Inv s := by
  subst hu
  exact {
    locks := ⟨h.cpu, h.safety⟩
    idle := ⟨fun hb => absurd (h.busy.symm.trans hb) (by decide), fun hi => absurd hi hne⟩
    flags := h.flags
    bank := h.bank
    ramp := ⟨h.loopi, h.up, h.down, h.seqi⟩ }

/-- A µstep that goes on to the label the state is fit for. -/
theorem RunningAt.inv_goto (h : RunningAt l s) : Inv (goto l s) where
  locks := ⟨h.cpu, h.safety⟩
  idle := ⟨fun hb => absurd (h.busy.symm.trans hb) (by decide), fun _ => rfl⟩
  flags := h.flags
  bank := h.bank
  ramp := ⟨h.loopi, h.up, h.down, h.seqi⟩

theorem RunningAt.of_agrees (h : RunningAt l s) (ha : Agrees s t) : RunningAt l t where
  busy := ha.busy.trans h.busy
  cpu := ha.cpu.trans h.cpu
  safety := ha.safety.trans h.safety
  flags := by simpa only [FlagsAgree, ha.fail, ha.err] using h.flags
  bank := by simpa only [CfgInRange, ha.cfg] using h.bank
  loopi := by simpa only [ha.loopi] using h.loopi
  up := by simpa only [ha.loopi, ha.cfg] using h.up
  down := by simpa only [ha.loopi, ha.cfg] using h.down
  seqi := by simpa only [ha.seq, ha.seqi] using h.seqi

theorem Inv.of_agrees (h : Inv s) (ha : Agrees s t) (hu : t.ustep = s.ustep) (hp : t.phase = s.phase) : Inv t where
  locks := by simpa only [LocksMatch, ha.cpu, ha.safety, hu] using h.locks
  idle := by simpa only [IdleWhenNotBusy, ha.busy, hu, hp] using h.idle
  flags := by simpa only [FlagsAgree, ha.fail, ha.err] using h.flags
  bank := by simpa only [CfgInRange, ha.cfg] using h.bank
  ramp := by simpa only [RampInRange, ha.loopi, ha.cfg, ha.seq, ha.seqi, hu] using h.ramp

/-! ## What changes the label's demands, or meets them -/

/-- A label with the same locks and no new bound on LOOPI. -/
theorem RunningAt.follow (h : RunningAt l s) (hl : SameLocks l l') (hr : RampFollows l l') : RunningAt l' s :=
  { h with
    cpu := h.cpu.trans hl.1.symm
    safety := h.safety.trans hl.2.symm
    up := fun hm => h.up (hr.1 hm)
    down := fun hm => h.down (hr.2 hm) }

theorem RunningAt.acquired (h : RunningAt l s) (d : Domain) (hl : Relocks d true l l') (hr : RampFollows l l') :
    RunningAt l' (acquire d s) := by
  cases d <;> exact { h with
    cpu := by simp [hl.1, h.cpu]
    safety := by simp [hl.2, h.safety]
    up := fun hm => h.up (hr.1 hm)
    down := fun hm => h.down (hr.2 hm) }

theorem RunningAt.released (h : RunningAt l s) (d : Domain) (hl : Relocks d false l l') (hr : RampFollows l l') :
    RunningAt l' (release d s) := by
  cases d <;> exact { h with
    cpu := by simp [hl.1, h.cpu]
    safety := by simp [hl.2, h.safety]
    up := fun hm => h.up (hr.1 hm)
    down := fun hm => h.down (hr.2 hm) }

/-- SEQ in a state without an index asks nothing of SEQI (10_state R22). -/
theorem RunningAt.setSeq (h : RunningAt l s) (n : SeqName) (hn : n ≠ .steppingUp ∧ n ≠ .steppingDown) :
    RunningAt l (setSeq n s) :=
  { h with seqi := fun hm => absurd hm (not_or.mpr hn) }

theorem RunningAt.setSeqAt (h : RunningAt l s) (n : SeqName) (i : Nat) (hi : i < Config.maxSteps) :
    RunningAt l (setSeqAt n i s) :=
  { h with seqi := fun _ => hi }

theorem RunningAt.setLoopi (h : RunningAt l s) (n : Nat) (hl : SameLocks l l') (hn : n ≤ Config.maxSteps)
    (hup : l' ∈ rampUp → n < s.cfg.nsteps) (hdown : l' ∈ rampDown → 0 < n ∧ n ≤ s.cfg.nsteps) :
    RunningAt l' (setLoopi n s) :=
  { h with
    cpu := h.cpu.trans hl.1.symm
    safety := h.safety.trans hl.2.symm
    loopi := hn
    up := hup
    down := hdown }

theorem RunningAt.nsteps_le (h : RunningAt l s) : s.cfg.nsteps ≤ Config.maxSteps := h.bank.1

/-- The end of a command: no lock is held any more, and the code is one of the five (60_exceptions R270). -/
theorem RunningAt.inv_finish (h : RunningAt l s) (e : BitVec 3) (hl : SameLocks l .idle) (he : e.toNat ≤ 4) :
    Inv (finish e s) where
  locks := ⟨h.cpu.trans hl.1.symm, h.safety.trans hl.2.symm⟩
  idle := ⟨fun _ => rfl, fun _ => rfl⟩
  flags := ⟨rfl, he⟩
  bank := h.bank
  ramp := ⟨h.loopi, fun hm => absurd hm (by simp), fun hm => absurd hm (by simp), h.seqi⟩

/-- A change of CFG inside its types while USTEP is IDLE. -/
theorem Inv.withCfg (h : Inv s) (hidle : s.ustep = .idle) (c : Cfg) (hc : CfgInRange { s with cfg := c }) :
    Inv { s with cfg := c } := by
  obtain ⟨hmax, _, _, hseqi⟩ := h.ramp
  exact { h with bank := hc, ramp := ⟨hmax, by simp [hidle], by simp [hidle], hseqi⟩ }

/-! ## The shared operations -/

/-- Every next state the answer can be meets the invariant. -/
def EndsInInv (o : Result) : Prop := ∀ t, o = .next t → Inv t

theorem endsInInv_next (h : Inv s) : EndsInInv (.next s) := by
  rintro t ⟨⟩; exact h

theorem endsInInv_refused (r : Refusal) : EndsInInv (.refused r) := by
  rintro t ⟨⟩

/-- The state stands at the label `l` of a sequence and meets the invariant. -/
structure Inside (l : UStep) (s : State) : Prop where
  at_label : RunningAt l s
  ustep    : s.ustep = l
  ne_idle  : l ≠ .idle

theorem Inv.inside (h : Inv s) (hu : s.ustep = l) (hne : l ≠ .idle) : Inside l s where
  at_label := by
    subst hu
    refine h.runningAt ?_
    cases hb : s.busy with
    | true => rfl
    | false => exact absurd (h.idle.1 hb) hne
  ustep := hu
  ne_idle := hne

/-- A µstep that repeats its label, at whatever place inside it. -/
theorem Inside.stay (h : Inside l s) (ha : Agrees s t) (hu : t.ustep = s.ustep) : Inv t :=
  (h.at_label.of_agrees ha).inv (hu.trans h.ustep) h.ne_idle

theorem RunningAt.endsInInv_rmw (h : RunningAt l s) (r : Reg) (g : Word → Word) (k : State → State)
    (hk : ∀ u, RunningAt l u → Inv (k u)) : EndsInInv (andThen (rmw r g s) k) := by
  intro t ht
  obtain ⟨u, hu, rfl⟩ := (andThen_next_iff _ _ _).mp ht
  obtain ⟨_, _, _, rfl⟩ := (rmw_next_iff _ _ _ _).mp hu
  exact hk _ (h.of_agrees (by constructor <;> rfl))

theorem RunningAt.endsInInv_writeFieldTo (h : RunningAt l s) (f : Field) (v : Word) (hl : SameLocks l l')
    (hr : RampFollows l l') : EndsInInv (writeFieldTo f v l' s) :=
  h.endsInInv_rmw _ _ _ fun _ hu => (hu.follow hl hr).inv_goto

theorem RunningAt.endsInInv_writeFieldsTo (h : RunningAt l s) (r : Reg) (fs : List (Field × Word))
    (hl : SameLocks l l') (hr : RampFollows l l') : EndsInInv (writeFieldsTo r fs l' s) :=
  h.endsInInv_rmw _ _ _ fun _ hu => (hu.follow hl hr).inv_goto

theorem RunningAt.endsInInv_mergeWriteTo (h : RunningAt l s) (r : Reg) (p : Pair) (fs : List (Field × Word))
    (hl : SameLocks l l') (hr : RampFollows l l') : EndsInInv (mergeWriteTo r p fs l' s) :=
  h.endsInInv_rmw _ _ _ fun _ hu => (hu.follow hl hr).inv_goto

theorem RunningAt.endsInInv_sfrWriteTo (h : RunningAt l s) (r : Reg) (w : Word) (hl : SameLocks l l')
    (hr : RampFollows l l') : EndsInInv (sfrWriteTo r w l' s) := by
  intro t ht
  rw [sfrWriteTo_next _ _ _ _ _ ht]
  exact ((h.follow hl hr).of_agrees (by constructor <;> rfl)).inv_goto

theorem RunningAt.inv_saveTrap (h : RunningAt l s) (hl : SameLocks l l') (hr : RampFollows l l') :
    Inv (saveTrap l' s) :=
  ((h.follow hl hr).of_agrees (by constructor <;> rfl)).inv_goto

theorem Inside.endsInInv_pollUntil (h : Inside l s) (f : Field) (v : Word) (k : State → State)
    (hk : ∀ u, RunningAt l u → Inv (k u)) : EndsInInv (pollUntil f v k s) := by
  intro t ht
  have hread : Agrees s (sfrRead (fieldReg f) s) := by constructor <;> rfl
  obtain ⟨_, rfl⟩ | ⟨_, rfl⟩ := pollUntil_cases f v k s t ht
  · exact hk _ (h.at_label.of_agrees hread)
  · exact h.stay hread rfl

/-- A poll whose exit only goes on to the next label. -/
theorem Inside.endsInInv_pollTo (h : Inside l s) (f : Field) (v : Word) (hl : SameLocks l l')
    (hr : RampFollows l l') : EndsInInv (pollUntil f v (goto l') s) :=
  h.endsInInv_pollUntil f v _ fun _ hu => (hu.follow hl hr).inv_goto

/-- A poll whose exit writes SEQ with a state without an index. -/
theorem Inside.endsInInv_pollSetSeq (h : Inside l s) (f : Field) (v : Word) (n : SeqName)
    (hn : n ≠ .steppingUp ∧ n ≠ .steppingDown) (hl : SameLocks l l') (hr : RampFollows l l') :
    EndsInInv (pollUntil f v (fun u => goto l' (setSeq n u)) s) :=
  h.endsInInv_pollUntil f v _ fun _ hu => ((hu.setSeq n hn).follow hl hr).inv_goto

theorem Inside.endsInInv_boundedPoll (h : Inside l s) (r : Reg) (ok : Word → Bool) (budget : Nat)
    (record : Bool → State → State) (hrec : ∀ b u, Agrees u (record b u)) (hl : SameLocks l l')
    (hr : RampFollows l l') : EndsInInv (boundedPoll r ok budget record l' s) := by
  intro t ht
  have hcount : ∀ n, Agrees s (setPollcnt n (sfrRead r s)) := fun n => by constructor <;> rfl
  have hleave : ∀ b n, Inv (goto l' (record b (setPollcnt n (sfrRead r s)))) := fun b n =>
    (((h.at_label.of_agrees (hcount n)).of_agrees (hrec b _)).follow hl hr).inv_goto
  obtain ⟨_, rfl⟩ | ⟨_, _, rfl⟩ | ⟨_, _, rfl⟩ := boundedPoll_cases r ok budget record l' s t ht
  · exact hleave _ _
  · exact hleave _ _
  · exact h.stay (by constructor <;> rfl) rfl

theorem Inside.inv_wait (h : Inside l s) (q : Q) (hl : SameLocks l l') (hr : RampFollows l l') :
    Inv (wait q l' s) := by
  obtain ⟨_, hw⟩ | ⟨_, _, hw⟩ | ⟨_, _, hw⟩ := wait_cases q l' s <;> rw [hw]
  · exact h.stay (by constructor <;> rfl) rfl
  · exact ((h.at_label.follow hl hr).of_agrees (by constructor <;> rfl)).inv_goto
  · exact h.stay (by constructor <;> rfl) rfl

theorem Inside.inv_hookStep (h : Inside l s) (o : Option HookId) (k : State → State) (hk : Inv (k s)) :
    Inv (hookStep o k s) := by
  obtain ⟨_, _, hw⟩ | ⟨_, _, hw⟩ | ⟨_, _, _, hw⟩ := hookStep_cases o k s <;> rw [hw]
  · exact h.stay (Agrees.refl s) rfl
  · exact hk
  · exact h.stay (by constructor <;> rfl) rfl

end Sys2Proof.Machine
end

section
/-! Every step keeps the invariant (10_state R21 to R24, 20_memory R68, 41_sequencer_init R190): each µstep of the three
sequences by the rule of the operation it is, then the commands of one step, then the turns of the four agents. -/

namespace Sys2Proof.Machine

variable {s : State}

/-! ## INIT -/

theorem inv_initResult (h : RunningAt (.init .I56) s) : Inv (initResult s) := by
  unfold initResult
  split
  · exact (h.setSeq .steadyState (by decide)).inv_finish _ (by decide) (by decide)
  · exact h.inv_finish _ (by decide) (by decide)

/-- I44 enters the ramp with LOOPI = 0 only if there is a ramp step. -/
theorem inv_initRampStart (h : RunningAt (.init .I44) s) : Inv (initRampStart s) := by
  unfold initRampStart
  split
  next => exact (h.setLoopi 0 (by decide) (Nat.zero_le _) (by simp) (by simp)).inv_goto
  next hn => exact (h.setLoopi 0 (by decide) (Nat.zero_le _) (fun _ => Nat.pos_of_ne_zero hn) (by simp)).inv_goto

/-- I51 enters the next pass only if its index is below NSTEPS. -/
theorem inv_initRampNext (h : RunningAt (.init .I51) s) : Inv (initRampNext s) := by
  have hle : s.loopi + 1 ≤ Config.maxSteps := le_trans (h.up (by decide)) h.nsteps_le
  unfold initRampNext
  split
  next hlt => exact (h.setLoopi _ (by decide) hle (fun _ => hlt) (by simp)).inv_goto
  next => exact (h.setLoopi _ (by decide) hle (by simp) (by simp)).inv_goto

/-- I45 takes the lock and names the ramp step in SEQI. -/
theorem inv_initRampEnter (h : RunningAt (.init .I45) s) :
    Inv (goto (.init .I46) (setSeqAt .steppingUp s.loopi (acquire .safety s))) :=
  have hlt : s.loopi < Config.maxSteps := lt_of_lt_of_le (h.up (by decide)) h.nsteps_le
  ((h.acquired .safety (by decide) (by decide)).setSeqAt _ _ hlt).inv_goto

theorem endsInInv_initStep (l : InitStep) (h : Inside (.init l) s) : EndsInInv (initStep l s) := by
  have hat := h.at_label
  cases l with
  | I1 => exact endsInInv_next (hat.inv_saveTrap (by decide) (by decide))
  | I2 | I5 | I14 | I52 => exact endsInInv_next (hat.acquired .safety (by decide) (by decide)).inv_goto
  | I41 => exact endsInInv_next (hat.acquired .cpu (by decide) (by decide)).inv_goto
  | I4 | I12 | I48 | I55 => exact endsInInv_next (hat.released .safety (by decide) (by decide)).inv_goto
  | I43 => exact endsInInv_next (hat.released .cpu (by decide) (by decide)).inv_goto
  | I3 | I8 | I16 | I17 | I18 | I19 | I20 | I21 | I22 | I26 | I47 | I53 | I54 =>
    exact hat.endsInInv_writeFieldTo _ _ (by decide) (by decide)
  | I6 | I9 | I27 => exact hat.endsInInv_writeFieldsTo _ _ (by decide) (by decide)
  | I29 | I31 | I33 | I35 | I42 => exact hat.endsInInv_mergeWriteTo _ _ _ (by decide) (by decide)
  | I37 | I38 | I39 => exact hat.endsInInv_sfrWriteTo _ _ (by decide) (by decide)
  | I7 | I10 | I25 => exact h.endsInInv_pollSetSeq _ _ _ (by decide) (by decide) (by decide)
  | I15 | I28 | I30 | I32 | I34 | I36 | I46 => exact h.endsInInv_pollTo _ _ (by decide) (by decide)
  | I11 =>
    exact h.endsInInv_boundedPoll _ _ _ _ (fun _ _ => by constructor <;> rfl) (by decide) (by decide)
  | I13 =>
    refine endsInInv_next (RunningAt.inv_goto ?_)
    split <;> exact hat.follow (by decide) (by decide)
  | I23 =>
    exact hat.endsInInv_rmw _ _ _ fun _ hu =>
      ((hu.setSeq .pllLocking (by decide)).follow (by decide) (by decide)).inv_goto
  | I24 | I50 => exact endsInInv_next (h.inv_wait _ (by decide) (by decide))
  | I40 =>
    exact endsInInv_next ((hat.released .safety (by decide) (by decide)).setSeq _ (by decide)).inv_goto
  | I44 => exact endsInInv_next (inv_initRampStart hat)
  | I45 => exact endsInInv_next (inv_initRampEnter hat)
  | I49 => exact endsInInv_next (h.inv_hookStep _ _ (hat.follow (by decide) (by decide)).inv_goto)
  | I51 => exact endsInInv_next (inv_initRampNext hat)
  | I56 => exact endsInInv_next (inv_initResult hat)

/-- INIT starts at I1 or goes on where it stands. -/
theorem endsInInv_execInit (h : Inv s) (hbusy : s.busy = true) (hu : s.ustep = .idle ∨ ∃ l, s.ustep = .init l) :
    EndsInInv (execInit s) := by
  obtain hidle | ⟨l, hl⟩ := hu
  · have hat := h.runningAt hbusy
    rw [hidle] at hat
    rw [execInit, hidle]
    exact endsInInv_next (hat.inv_saveTrap (by decide) (by decide))
  · rw [execInit, hl]
    exact endsInInv_initStep l (h.inside hl (by simp))

/-! ## SWBACKUP -/

/-- B1, also as the start from IDLE: both labels it can go on to ask nothing. -/
theorem inv_backupTest (h : RunningAt .idle s) : Inv (backupTest s) := by
  have hread := h.of_agrees (t := sfrRead .ccucon0 s) (by constructor <;> rfl)
  unfold backupTest
  refine RunningAt.inv_goto ?_
  split <;> exact hread.follow (by decide) (by decide)

/-- B2 enters the ramp with LOOPI = NSTEPS only if there is a ramp step. -/
theorem inv_backupRampStart (h : RunningAt (.back .B2) s) : Inv (backupRampStart s) := by
  unfold backupRampStart
  split
  next => exact (h.setLoopi _ (by decide) h.nsteps_le (by simp) (by simp)).inv_goto
  next hn =>
    exact (h.setLoopi _ (by decide) h.nsteps_le (by simp) fun _ => ⟨Nat.pos_of_ne_zero hn, le_rfl⟩).inv_goto

/-- B8 enters the next pass only if LOOPI is still positive. -/
theorem inv_backupRampNext (h : RunningAt (.back .B8) s) : Inv (backupRampNext s) := by
  obtain ⟨_, hle⟩ := h.down (by decide)
  have hmax : s.loopi - 1 ≤ Config.maxSteps := le_trans (Nat.sub_le _ _) h.loopi
  unfold backupRampNext
  split
  next hpos =>
    exact (h.setLoopi _ (by decide) hmax (by simp) fun _ => ⟨hpos, le_trans (Nat.sub_le _ _) hle⟩).inv_goto
  next => exact (h.setLoopi _ (by decide) hmax (by simp) (by simp)).inv_goto

/-- B3 takes the lock and names the ramp step LOOPI - 1 in SEQI. -/
theorem inv_backupRampEnter (h : RunningAt (.back .B3) s) :
    Inv (goto (.back .B4) (setSeqAt .steppingDown (s.loopi - 1) (acquire .safety s))) :=
  have hlt : s.loopi - 1 < Config.maxSteps :=
    lt_of_lt_of_le (Nat.sub_one_lt_of_lt (h.down (by decide)).1) h.loopi
  ((h.acquired .safety (by decide) (by decide)).setSeqAt _ _ hlt).inv_goto

/-- B7 for both values of REVERSE_HOOKS. -/
theorem inv_backupWait (hooks : Bool) (h : Inside (.back .B7) s) : Inv (backupWait hooks s) := by
  unfold backupWait
  split
  · exact h.inv_hookStep _ _ (h.stay (by constructor <;> rfl) rfl)
  · exact h.inv_wait _ (by decide) (by decide)

theorem inv_backupRelease (h : RunningAt (.back .B19) s) : Inv (backupRelease s) :=
  have hrel : RunningAt (.back .B20) (release .safety s) := h.released .safety (by decide) (by decide)
  (hrel.of_agrees (by constructor <;> rfl)).inv rfl (by simp)

theorem inv_backupResult (h : RunningAt (.back .B20) s) : Inv (backupResult s) := by
  unfold backupResult
  split
  · exact (h.setSeq .backupClock (by decide)).inv_finish _ (by decide) (by decide)
  · exact h.inv_finish _ (by decide) (by decide)

theorem endsInInv_backStep (l : BackStep) (h : Inside (.back l) s) : EndsInInv (backStep l s) := by
  have hat := h.at_label
  cases l with
  | B1 => exact endsInInv_next (inv_backupTest (hat.follow (by decide) (by decide)))
  | B2 => exact endsInInv_next (inv_backupRampStart hat)
  | B3 => exact endsInInv_next (inv_backupRampEnter hat)
  | B4 | B15 => exact h.endsInInv_pollTo _ _ (by decide) (by decide)
  | B5 | B11 | B16 | B17 | B18 => exact hat.endsInInv_writeFieldTo _ _ (by decide) (by decide)
  | B6 | B12 => exact endsInInv_next (hat.released .safety (by decide) (by decide)).inv_goto
  | B7 => exact endsInInv_next (inv_backupWait _ h)
  | B8 => exact endsInInv_next (inv_backupRampNext hat)
  | B9 => exact endsInInv_next (hat.inv_saveTrap (by decide) (by decide))
  | B10 | B13 => exact endsInInv_next (hat.acquired .safety (by decide) (by decide)).inv_goto
  | B14 => exact hat.endsInInv_writeFieldsTo _ _ (by decide) (by decide)
  | B19 => exact endsInInv_next (inv_backupRelease hat)
  | B20 => exact endsInInv_next (inv_backupResult hat)

/-- SWBACKUP starts at B1 or goes on where it stands. -/
theorem endsInInv_execSwbackup (h : Inv s) (hbusy : s.busy = true)
    (hu : s.ustep = .idle ∨ ∃ l, s.ustep = .back l) : EndsInInv (execSwbackup s) := by
  obtain hidle | ⟨l, hl⟩ := hu
  · have hat := h.runningAt hbusy
    rw [hidle] at hat
    rw [execSwbackup, hidle]
    exact endsInInv_next (inv_backupTest hat)
  · rw [execSwbackup, hl]
    exact endsInInv_backStep l (h.inside hl (by simp))

/-! ## INITERAY -/

theorem endsInInv_erayBypassClear (h : RunningAt (.eray .E9) s) : EndsInInv (erayBypassClear s) := by
  unfold erayBypassClear
  split
  · exact h.endsInInv_writeFieldTo _ _ (by decide) (by decide)
  · exact endsInInv_next (h.follow (by decide) (by decide)).inv_goto

theorem inv_erayResult (h : RunningAt (.eray .E11) s) : Inv (erayResult s) :=
  h.inv_finish _ (by decide) (by split <;> decide)

theorem endsInInv_erayStep (l : ErayStep) (h : Inside (.eray l) s) : EndsInInv (erayStep l s) := by
  have hat := h.at_label
  cases l with
  | E1 => exact endsInInv_next (hat.acquired .safety (by decide) (by decide)).inv_goto
  | E2 => exact h.endsInInv_pollTo _ _ (by decide) (by decide)
  | E3 | E4 | E5 | E6 => exact hat.endsInInv_writeFieldTo _ _ (by decide) (by decide)
  | E7 => exact endsInInv_next (h.inv_wait _ (by decide) (by decide))
  | E8 =>
    exact h.endsInInv_boundedPoll _ _ _ _ (fun _ _ => by constructor <;> rfl) (by decide) (by decide)
  | E9 => exact endsInInv_erayBypassClear hat
  | E10 => exact endsInInv_next (hat.released .safety (by decide) (by decide)).inv_goto
  | E11 => exact endsInInv_next (inv_erayResult hat)

/-- INITERAY starts at E1 or goes on where it stands. -/
theorem endsInInv_execIniteray (h : Inv s) (hbusy : s.busy = true)
    (hu : s.ustep = .idle ∨ ∃ l, s.ustep = .eray l) : EndsInInv (execIniteray s) := by
  obtain hidle | ⟨l, hl⟩ := hu
  · have hat := h.runningAt hbusy
    rw [hidle] at hat
    rw [execIniteray, hidle]
    exact endsInInv_next (hat.acquired .safety (by decide) (by decide)).inv_goto
  · rw [execIniteray, hl]
    exact endsInInv_erayStep l (h.inside hl (by simp))

/-! ## The commands of one step -/

theorem inv_illegalCommand (h : RunningAt .idle s) : Inv (illegalCommand s) :=
  h.inv_finish _ (by decide) (by decide)

theorem inv_query (h : RunningAt .idle s) (t : Tap) : Inv (query t s) := by
  rw [query, foldl_sfrRead]
  exact (h.of_agrees (by constructor <;> rfl)).inv_finish _ (by decide) (by decide)

theorem inv_queryOrIllegal (h : RunningAt .idle s) (t : Option Tap) : Inv (queryOrIllegal t s) := by
  cases t with
  | none => exact inv_illegalCommand h
  | some t => exact inv_query h t

/-- The draw of NSTEPS after a failed SOLVE is inside its type. -/
theorem freeNsteps_le (n : Nat) : Config.freeNsteps n ≤ Config.maxSteps :=
  Nat.le_of_lt_succ (Nat.mod_lt _ (Nat.succ_pos _))

/-- SOLVE writes NSTEPS with 0 or with a draw of its type, and no ramp step (40_solver R109, R110). -/
theorem endsInInv_execSolve (h : Inv s) (hbusy : s.busy = true) (hidle : s.ustep = .idle) (fPll : BitVec 32) :
    EndsInInv (execSolve fPll s) := by
  have hend : ∀ (e : BitVec 3) (c : Cfg) (n : Nat), e.toNat ≤ 4 → CfgInRange { s with cfg := c } →
      Inv (finish e { s with cfg := c, draws := n }) := fun e c n he hc => by
    have hat := (h.withCfg hidle c hc).runningAt hbusy
    exact (hat.of_agrees (t := { s with cfg := c, draws := n }) (by constructor <;> rfl)).inv_finish e
      (by rw [hidle]; decide) he
  obtain ⟨_, hlen, hwf⟩ := h.bank
  unfold execSolve
  split
  · exact endsInInv_next (hend _ _ s.draws (by decide) ⟨Nat.zero_le _, hlen, hwf⟩)
  · exact endsInInv_next (hend _ _ _ (by decide) ⟨freeNsteps_le _, hlen, hwf⟩)

/-- A command taken from CMD. -/
theorem endsInInv_exec (h : Inv s) (hbusy : s.busy = true) (hidle : s.ustep = .idle) (i : Instr) :
    EndsInInv (exec i s) := by
  have hat := h.runningAt hbusy
  rw [hidle] at hat
  cases i with
  | nop => exact endsInInv_next (hat.inv_finish _ (by decide) (by decide))
  | solve fPll => exact endsInInv_execSolve h hbusy hidle fPll
  | init => exact endsInInv_execInit h hbusy (.inl hidle)
  | swbackup => exact endsInInv_execSwbackup h hbusy (.inl hidle)
  | initeray => exact endsInInv_execIniteray h hbusy (.inl hidle)
  | qsri | qspb | qgtm | qfsi | qmod => exact endsInInv_next (inv_query hat _)
  | qbaud | qcpu => exact endsInInv_next (inv_queryOrIllegal hat _)

/-! ## The turns -/

theorem endsInInv_sequencerTurn (h : Inv s) : EndsInInv (sequencerTurn s) := by
  unfold sequencerTurn
  split
  next hbusy =>
    split
    next hidle =>
      split
      · exact endsInInv_exec h hbusy hidle _
      · have hat := h.runningAt hbusy
        rw [hidle] at hat
        exact endsInInv_next (inv_illegalCommand hat)
    next l hu => exact endsInInv_execInit h hbusy (.inr ⟨l, hu⟩)
    next l hu => exact endsInInv_execSwbackup h hbusy (.inr ⟨l, hu⟩)
    next l hu => exact endsInInv_execIniteray h hbusy (.inr ⟨l, hu⟩)
  next => exact endsInInv_next h

/-- An accepted write of CFG keeps it inside its types and its list canonical. -/
theorem cfgInRange_writeCfg (h : CfgInRange s) (w : CfgWrite) (hok : cfgWriteOk w = true) :
    CfgInRange { s with cfg := writeCfg w s.cfg } := by
  obtain ⟨hn, hlen, hwf⟩ := h
  cases w with
  | nsteps n => exact ⟨(cfgWriteOk_nsteps n).mp hok, hlen, hwf⟩
  | step i v =>
    exact ⟨hn, length_writeStep _ _ _ _ hlen ((cfgWriteOk_step i v).mp hok), stepsWf_writeStep _ _ _ hwf⟩
  | _ => exact ⟨hn, hlen, hwf⟩

theorem endsInInv_hostTurn (h : Inv s) (hbusy : s.busy = false) (m : HostMove) : EndsInInv (hostTurn m s) := by
  have hidle : s.ustep = .idle := h.idle.1 hbusy
  cases m with
  | command w => exact endsInInv_next { h with idle := ⟨fun _ => hidle, h.idle.2⟩ }
  | cfg w =>
    by_cases hok : cfgWriteOk w = true
    · rw [hostTurn, if_pos hok]
      exact endsInInv_next (h.withCfg hidle _ (cfgInRange_writeCfg h.bank w hok))
    · rw [hostTurn, if_neg hok]
      exact endsInInv_refused _
  | ecfg w => exact endsInInv_next (h.of_agrees (by constructor <;> rfl) rfl rfl)

/-- A hook runs only inside a µstep, so its return leaves I49 or stays in its label. -/
theorem inv_hookReturn (h : Inv s) (e : Ext) {k : HookId} (hp : s.phase = .inHook k) : Inv (hookReturn e s) := by
  have hne : s.ustep ≠ .idle := fun hi => absurd (hp.symm.trans (h.idle.2 hi)) (by simp)
  unfold hookReturn
  split
  next hu =>
    have hat := (h.inside hu (by simp)).at_label
    exact ((hat.follow (by decide) (by decide)).of_agrees (by constructor <;> rfl)).inv_goto
  next => exact (h.inside rfl hne).stay (by constructor <;> rfl) rfl

theorem inv_envTurn (h : Inv s) (e : Ext) : Inv (envTurn e s) :=
  h.of_agrees (by constructor <;> rfl) rfl rfl

theorem inv_betweenTurn (h : Inv s) (e : Ext) : Inv (betweenTurn e s) :=
  h.of_agrees (by constructor <;> rfl) rfl rfl

theorem inv_takeTurn (h : Inv s) : Inv (takeTurn s) :=
  h.of_agrees (by constructor <;> simp) (by simp) (by simp)

/-- Settles O9: the turn of each agent keeps the invariant, the sequencer's µstep by µstep (`endsInInv_initStep`,
`endsInInv_backStep`, `endsInInv_erayStep`). -/
theorem everyStepKeepsTheInvariant : Obligations.EveryStepKeepsTheInvariant := by
  intro s t hs ht
  have hu := inv_takeTurn hs
  suffices hstep : EndsInInv (step s) from hstep t ht
  obtain ⟨_, hw⟩ | ⟨m, _, hbusy, hw⟩ | ⟨e, _, hw⟩ | ⟨e, _, hw⟩ | ⟨e, k, _, hp, _, hw⟩ := step_cases s <;> rw [hw]
  · exact endsInInv_sequencerTurn hu
  · exact endsInInv_hostTurn hu (by simpa using hbusy) m
  · exact endsInInv_next (inv_envTurn hu e)
  · exact endsInInv_next (inv_betweenTurn hu e)
  · exact endsInInv_next (inv_hookReturn hu e (k := k) (by simpa using hp))

end Sys2Proof.Machine
end

section
/-! Register access and the masked merge, bit by bit (20_memory R61 to R63, R66): what a write under the lock leaves to read, and
what one read and one write of a register amount to when the environment moves in between. -/

namespace Sys2Proof.Machine

/-! ## The masked merge -/

/-- `merge` bit by bit: inside the mask the value, outside it the old word. -/
theorem getLsbD_merge (w : Word) (p : Pair) (i : Nat) (hi : i < Config.regWidth) :
    (merge w p).getLsbD i = if p.mask.getLsbD i then p.value.getLsbD i else w.getLsbD i := by
  simp only [merge, BitVec.getLsbD_or, BitVec.getLsbD_and, BitVec.getLsbD_not, hi]
  cases p.mask.getLsbD i <;> simp

theorem merge_mask_zero (w v : Word) : merge w ⟨v, 0⟩ = w :=
  BitVec.eq_of_getLsbD_eq fun i hi => by simp [getLsbD_merge w _ i hi]

/-- Settles O17, by the bits of the merge. -/
theorem maskedMergeBitByBit : Obligations.MaskedMergeBitByBit := ⟨getLsbD_merge, merge_mask_zero⟩

/-! ## One write -/

/-- A trigger field reads 0 whatever the file holds at its place (log 28). -/
theorem fieldValue_of_w1t {f : Field} (s : State) (hf : fieldClass f = .w1t) : fieldValue s f = 0 := by
  rw [fieldValue_eq, if_pos hf]

/-- A permitted write as a reader sees it. A bit that is not rw is rh and kept, or w1t and reads 0 before and after. -/
theorem wordWritten_sfrStore (r : Reg) (w : Word) (s : State) : WordWritten r w s (sfrStore r w s) := by
  refine ⟨fun q hq => sfrGet_sfrSet_other _ _ _ _ hq, fun i hi => ?_⟩
  rw [sfrValue_sfrStore_same]
  simp only [sfrValue, writtenWord, rwMask, BitVec.getLsbD_and, BitVec.getLsbD_or, BitVec.getLsbD_not, hi]
  cases (classMask r .w1t).getLsbD i <;> cases (classMask r .rh).getLsbD i <;> simp

/-- Settles O15: under the lock the write is `sfrStore`. -/
theorem registerReadAndWrite : Obligations.RegisterReadAndWrite :=
  ⟨fun s _ hf => fieldValue_of_w1t s hf, fun s r w d hd hh =>
    ⟨sfrStore r w s, sfrWrite_of_held r w s d hd hh, wordWritten_sfrStore r w s, rfl⟩⟩

/-! ## One read and one write -/

/-- A value of a field's width has no bit beyond it. -/
theorem and_lowMask_of_lt (v : Word) (n : Nat) (hv : v.toNat < 2 ^ n) : v &&& lowMask n = v := by
  refine BitVec.eq_of_getLsbD_eq fun i hi => ?_
  rw [BitVec.getLsbD_and, getLsbD_lowMask]
  by_cases hin : i < n
  · simp [hi, hin]
  · have hbit : v.getLsbD i = false :=
      Nat.testBit_lt_two_pow (hv.trans_le (Nat.pow_le_pow_right two_pos (not_lt.mp hin)))
    simp [hbit]

/-- A field of register `r` that a write acts on, with a value of the field's width. -/
abbrev Writable (r : Reg) (q : Field × Word) : Prop :=
  fieldReg q.1 = r ∧ fieldClass q.1 ≠ .rh ∧ q.2.toNat < 2 ^ (Config.layout q.1).width

/-- After a write an rw field reads as in the word and a w1t field as 0. -/
theorem fieldValue_sfrStore_of_ne_rh (f : Field) (w : Word) (s : State) (hf : fieldClass f ≠ .rh) :
    fieldValue (sfrStore (fieldReg f) w s) f = if fieldClass f = .w1t then 0 else getField w f := by
  cases hc : fieldClass f with
  | rw => simp [fieldValue_sfrStore, hc]
  | rh => exact absurd hc hf
  | w1t => simp [fieldValue_of_w1t _ hc]

/-- One read and one write of a register with the listed fields set over `w`, whose bits are `bits`. -/
theorem rewritten_sfrStore {r : Reg} {fs : List (Field × Word)} {bits : Nat → Bool} {w : Word} (s : State)
    (hfs : ∀ q ∈ fs, Writable r q) (hnodup : (fs.map Prod.fst).Nodup)
    (hbits : ∀ i, i < Config.regWidth → w.getLsbD i = bits i) :
    Rewritten r bits fs s (sfrStore r (setFields w fs) (midway (sfrRead r s))) := by
  refine ⟨setFields w fs, rfl, wordWritten_sfrStore r _ _, fun q hq => ?_, fun i hi hout => ?_⟩
  · obtain ⟨rfl, hclass, hfits⟩ := hfs q hq
    have hget : getField (setFields w fs) q.1 = q.2 := by
      rw [getField_setFields_of_mem _ fs w (fun p hp => (hfs p hp).1) hnodup q hq, and_lowMask_of_lt _ _ hfits]
    exact ⟨hget, by rw [fieldValue_sfrStore_of_ne_rh _ _ _ hclass, hget]⟩
  · rw [getLsbD_setFields_outside fs w i hout, hbits i hi]

/-- A read-modify-write changes the register file and the record, and takes what the environment announced. -/
theorem sfrStore_midway_frame (r : Reg) (w : Word) (s : State) :
    let t := sfrStore r w (midway (sfrRead r s))
    t = { midway s with ext := { (midway s).ext with sfr := t.ext.sfr }, port := t.port } := rfl

/-- Settles O16: the word comes from the read of `s` and lands on `midway s`, so an rw bit changed in between is lost. -/
theorem fieldWriteIsReadModifyWrite : Obligations.FieldWriteIsReadModifyWrite := by
  intro s f v d hclass hd hh hv
  have hw : Writable (fieldReg f) (f, v) := ⟨rfl, hclass, hv⟩
  have hframe := sfrStore_midway_frame (fieldReg f) (setField (sfrValue s (fieldReg f)) f v) s
  refine ⟨_, writeField_of_held f v s d hd hh, rewritten_sfrStore (fs := [(f, v)]) s (by simpa using hw) (by simp)
    fun _ _ => rfl, fun hnone => ?_, fun e hsome => ⟨?_, ?_⟩⟩
  · rwa [midway_of_none s hnone] at hframe
  · rwa [midway_of_some s e hsome] at hframe
  · have hext : (midway s).ext = e := by simp [hsome]
    obtain ⟨hothers, hbits⟩ : WordWritten (fieldReg f) (setField (sfrValue s (fieldReg f)) f v) (midway s) _ :=
      wordWritten_sfrStore (fieldReg f) _ (midway (sfrRead (fieldReg f) s))
    refine ⟨fun q hq => by rw [hothers q hq, hext], fun i hi hout => ?_⟩
    rw [hbits i hi, getLsbD_setField, if_neg hout, sfrValue_congr _ { s with ext := e } hext]

end Sys2Proof.Machine
end

section
/-! What the sequencer's turn runs (20_memory R71, 30_encoding R84). -/

namespace Sys2Proof.Machine

/-- The sequencer's turn: idle, a command that starts, a word that is none, or the next µstep of the running sequence. -/
theorem sequencerTurn_cases (s : State) :
    (s.busy = false ∧ sequencerTurn s = .next s) ∨
    (s.busy = true ∧ s.ustep = .idle ∧
      ((∃ i, decode s.cmd = .ok i ∧ sequencerTurn s = exec i s) ∨
        (∃ e, decode s.cmd = .error e ∧ sequencerTurn s = .next (illegalCommand s)))) ∨
    (s.busy = true ∧
      ((∃ l, s.ustep = .init l ∧ sequencerTurn s = initStep l s) ∨
        (∃ l, s.ustep = .back l ∧ sequencerTurn s = backStep l s) ∨
        (∃ l, s.ustep = .eray l ∧ sequencerTurn s = erayStep l s))) := by
  cases hbusy : s.busy with
  | false => exact .inl ⟨rfl, by simp [sequencerTurn, hbusy]⟩
  | true =>
    cases hu : s.ustep with
    | idle =>
      cases hd : decode s.cmd with
      | ok i => exact .inr (.inl ⟨rfl, rfl, .inl ⟨i, rfl, by simp [sequencerTurn, hbusy, hu, fetch, hd]⟩⟩)
      | error e => exact .inr (.inl ⟨rfl, rfl, .inr ⟨e, rfl, by simp [sequencerTurn, hbusy, hu, fetch, hd]⟩⟩)
    | init l =>
      exact .inr (.inr ⟨rfl, .inl ⟨l, rfl, by simp [sequencerTurn, hbusy, hu, exec, execInit, initLabel]⟩⟩)
    | back l =>
      exact .inr (.inr ⟨rfl, .inr (.inl ⟨l, rfl, by simp [sequencerTurn, hbusy, hu, exec, execSwbackup, backLabel]⟩)⟩)
    | eray l =>
      exact .inr (.inr ⟨rfl, .inr (.inr ⟨l, rfl, by simp [sequencerTurn, hbusy, hu, exec, execIniteray, erayLabel]⟩)⟩)

/-- Settles O5: the turn taken from the script leaves CMD, and at IDLE the sequencer's turn dispatches on its word. -/
theorem stepRunsTheDecodedCommand : Obligations.StepRunsTheDecodedCommand := by
  intro s i hturn hbusy hidle hdecode
  have hstep : step s = sequencerTurn (takeTurn s) := by simp [step, hturn]
  have hfetch : fetch (takeTurn s) = .ok i := by simpa [fetch] using hdecode
  simp [hstep, sequencerTurn, hbusy, hidle, hfetch]

end Sys2Proof.Machine
end

section
/-! No step writes without its lock (20_memory R68): under the lock flags the µstep lists give, every µstep answers a next
state. -/

namespace Sys2Proof.Machine

variable {s : State}

/-! ## Every µstep answers under its locks -/

/-- The lock flag of a domain before the µstep a label names (41_sequencer_init R190). -/
def heldAt (d : Domain) (l : UStep) : Bool :=
  match d with
  | .cpu => cpuHeldAt l
  | .safety => safetyHeldAt l

theorem LocksMatch.held_eq (h : LocksMatch s) (d : Domain) : held s d = heldAt d s.ustep := by
  cases d with
  | cpu => exact h.1
  | safety => exact h.2

/-- The answer is a next state. -/
def Answers (o : Result) : Prop := ∃ t, o = .next t

theorem answers_next (s : State) : Answers (.next s) := ⟨s, rfl⟩

theorem Answers.ne_fault {o : Result} (h : Answers o) (f : Fault) : o ≠ .fault f := by
  obtain ⟨t, rfl⟩ := h
  simp

/-- Every register write of a µstep but a whole-word one has this form. -/
theorem answers_rmw (r : Reg) (g : Word → Word) (k : State → State) (d : Domain) (hd : regDomain r = some d)
    (hh : held s d = true) : Answers (andThen (rmw r g s) k) :=
  ⟨_, by rw [rmw_of_held r g s d hd hh, andThen_next]⟩

theorem answers_pollUntil (f : Field) (v : Word) (k : State → State) : Answers (pollUntil f v k s) := by
  unfold pollUntil
  split <;> exact answers_next _

theorem answers_boundedPoll (r : Reg) (ok : Word → Bool) (budget : Nat) (record : Bool → State → State) (l : UStep) :
    Answers (boundedPoll r ok budget record l s) := by
  unfold boundedPoll
  dsimp only
  split
  · exact answers_next _
  · split <;> exact answers_next _

/-- The writes of INIT are under the safety lock, the one of FCON under the CPU lock; the µsteps not named write nothing. -/
theorem answers_initStep (l : InitStep) (h : ∀ d, held s d = heldAt d (.init l)) : Answers (initStep l s) := by
  cases l with
  | I3 | I6 | I8 | I9 | I16 | I17 | I18 | I19 | I20 | I21 | I22 | I23 | I26 | I27 | I29 | I31 | I33 | I35 | I47
  | I53 | I54 => exact answers_rmw _ _ _ .safety rfl (h .safety)
  | I42 => exact answers_rmw _ _ _ .cpu rfl (h .cpu)
  | I37 | I38 | I39 => exact ⟨_, sfrWriteTo_of_held _ _ _ s .safety rfl (h .safety)⟩
  | I7 | I10 | I25 => exact answers_pollUntil _ _ fun u => goto _ (setSeq _ u)
  | I15 | I28 | I30 | I32 | I34 | I36 | I46 => exact answers_pollUntil _ _ _
  | I11 => exact answers_boundedPoll _ _ _ _ _
  | _ => exact answers_next _

theorem answers_backStep (l : BackStep) (h : ∀ d, held s d = heldAt d (.back l)) : Answers (backStep l s) := by
  cases l with
  | B5 | B11 | B14 | B16 | B17 | B18 => exact answers_rmw _ _ _ .safety rfl (h .safety)
  | B4 | B15 => exact answers_pollUntil _ _ _
  | _ => exact answers_next _

/-- E9 writes only if the lock was seen. -/
theorem answers_erayBypassClear (h : held s .safety = true) : Answers (erayBypassClear s) := by
  unfold erayBypassClear
  split
  · exact answers_rmw _ _ _ .safety rfl h
  · exact answers_next _

theorem answers_erayStep (l : ErayStep) (h : ∀ d, held s d = heldAt d (.eray l)) : Answers (erayStep l s) := by
  cases l with
  | E3 | E4 | E5 | E6 => exact answers_rmw _ _ _ .safety rfl (h .safety)
  | E9 => exact answers_erayBypassClear (h .safety)
  | E2 => exact answers_pollUntil _ _ _
  | E8 => exact answers_boundedPoll _ _ _ _ _
  | _ => exact answers_next _

/-- A command that starts answers: the first µstep of each sequence writes no register. -/
theorem answers_exec_of_idle (hidle : s.ustep = .idle) (i : Instr) : Answers (exec i s) := by
  cases i with
  | init => rw [exec, execInit, hidle]; exact answers_next _
  | swbackup => rw [exec, execSwbackup, hidle]; exact answers_next _
  | initeray => rw [exec, execIniteray, hidle]; exact answers_next _
  | solve fPll =>
    rw [exec, execSolve]
    split <;> exact answers_next _
  | _ => exact answers_next _

/-! ## No step faults -/

theorem answers_sequencerTurn (h : LocksMatch s) : Answers (sequencerTurn s) := by
  obtain ⟨_, hw⟩ | ⟨_, hidle, ⟨i, _, hw⟩ | ⟨_, _, hw⟩⟩ | ⟨_, ⟨l, hu, hw⟩ | ⟨l, hu, hw⟩ | ⟨l, hu, hw⟩⟩ :=
    sequencerTurn_cases s <;> rw [hw]
  · exact answers_next _
  · exact answers_exec_of_idle hidle i
  · exact answers_next _
  · exact answers_initStep l (hu ▸ h.held_eq)
  · exact answers_backStep l (hu ▸ h.held_eq)
  · exact answers_erayStep l (hu ▸ h.held_eq)

theorem hostTurn_ne_fault (m : HostMove) (s : State) (f : Fault) : hostTurn m s ≠ .fault f := by
  cases m with
  | cfg w => unfold hostTurn; dsimp only; split <;> simp
  | command w | ecfg w => exact (answers_next _).ne_fault f

/-- Settles O10: only the sequencer writes registers, and its turn answers under the locks the invariant gives. -/
theorem noStepWritesWithoutItsLock : Obligations.NoStepWritesWithoutItsLock := by
  intro s f hs
  obtain ⟨_, hw⟩ | ⟨m, _, _, hw⟩ | ⟨e, _, hw⟩ | ⟨e, _, hw⟩ | ⟨e, k, _, _, _, hw⟩ := step_cases s <;> rw [hw]
  · exact (answers_sequencerTurn (inv_takeTurn hs).locks).ne_fault f
  · exact hostTurn_ne_fault m _ f
  · exact (answers_next _).ne_fault f
  · exact (answers_next _).ne_fault f
  · exact (answers_next _).ne_fault f

end Sys2Proof.Machine
end

section
/-! CMD and the configuration banks while BUSY = 1 (20_memory R71, 30_encoding R85, 70_reset_and_hazards R318): one rule for each
operation a µstep is made of, then the µsteps, the commands and the turns. -/

namespace Sys2Proof.Machine

variable {s t u : State}

/-- CMD, CFG and ECFG are the same in both states. -/
structure ConfigKept (s t : State) : Prop where
  cmd  : t.cmd = s.cmd
  cfg  : t.cfg = s.cfg
  ecfg : t.ecfg = s.ecfg

theorem ConfigKept.trans (h : ConfigKept s t) (h' : ConfigKept t u) : ConfigKept s u :=
  ⟨h'.cmd.trans h.cmd, h'.cfg.trans h.cfg, h'.ecfg.trans h.ecfg⟩

theorem configKept_goto (l : UStep) (s : State) : ConfigKept s (goto l s) := by constructor <;> simp

theorem configKept_goto_setSeq (l : UStep) (n : SeqName) (s : State) : ConfigKept s (goto l (setSeq n s)) := by
  constructor <;> simp

theorem configKept_finish (e : BitVec 3) (s : State) : ConfigKept s (finish e s) := by constructor <;> simp

/-- Every next state the answer can be has CMD, CFG and ECFG as in `s`. -/
def KeepsConfig (s : State) (o : Result) : Prop := ∀ t, o = .next t → ConfigKept s t

/-- Every next state the answer can be has CMD and ECFG as in `s`, and CFG too if a sequence is in progress in `s`. -/
def ConfigStable (s : State) (o : Result) : Prop :=
  ∀ t, o = .next t → t.cmd = s.cmd ∧ t.ecfg = s.ecfg ∧ (s.ustep ≠ .idle → t.cfg = s.cfg)

theorem KeepsConfig.configStable {o : Result} (h : KeepsConfig s o) : ConfigStable s o := fun t ht =>
  ⟨(h t ht).cmd, (h t ht).ecfg, fun _ => (h t ht).cfg⟩

theorem keepsConfig_next (h : ConfigKept s t) : KeepsConfig s (.next t) := by
  rintro _ ⟨⟩; exact h

theorem keepsConfig_rmw (r : Reg) (g : Word → Word) (k : State → State) (hk : ∀ u, ConfigKept u (k u)) :
    KeepsConfig s (andThen (rmw r g s) k) := by
  intro t ht
  obtain ⟨u, hu, rfl⟩ := (andThen_next_iff _ _ _).mp ht
  obtain ⟨_, _, _, rfl⟩ := (rmw_next_iff _ _ _ _).mp hu
  have hwrite : ConfigKept s (sfrStore r (g (sfrValue s r)) (midway (sfrRead r s))) := by constructor <;> simp
  exact hwrite.trans (hk _)

theorem keepsConfig_sfrWriteTo (r : Reg) (w : Word) (l : UStep) : KeepsConfig s (sfrWriteTo r w l s) := by
  intro t ht
  rw [sfrWriteTo_next _ _ _ _ _ ht]
  exact ⟨rfl, rfl, rfl⟩

theorem keepsConfig_pollUntil (f : Field) (v : Word) (k : State → State) (hk : ∀ u, ConfigKept u (k u)) :
    KeepsConfig s (pollUntil f v k s) := by
  intro t ht
  have hread : ConfigKept s (sfrRead (fieldReg f) s) := by constructor <;> simp
  obtain ⟨_, rfl⟩ | ⟨_, rfl⟩ := pollUntil_cases f v k s t ht
  · exact hread.trans (hk _)
  · exact hread

theorem keepsConfig_boundedPoll (r : Reg) (ok : Word → Bool) (budget : Nat) (record : Bool → State → State) (l : UStep)
    (hrec : ∀ b u, ConfigKept u (record b u)) : KeepsConfig s (boundedPoll r ok budget record l s) := by
  intro t ht
  have hcount : ∀ n, ConfigKept s (setPollcnt n (sfrRead r s)) := fun n => by constructor <;> simp
  have hleave : ∀ b n, ConfigKept s (goto l (record b (setPollcnt n (sfrRead r s)))) := fun b n =>
    ((hcount n).trans (hrec b _)).trans (configKept_goto l _)
  obtain ⟨_, rfl⟩ | ⟨_, _, rfl⟩ | ⟨_, _, rfl⟩ := boundedPoll_cases r ok budget record l s t ht
  · exact hleave _ _
  · exact hleave _ _
  · constructor <;> simp

theorem configKept_wait (q : Q) (l : UStep) : ConfigKept s (wait q l s) := by
  obtain ⟨_, hw⟩ | ⟨_, _, hw⟩ | ⟨_, _, hw⟩ := wait_cases q l s <;> rw [hw] <;> exact ⟨rfl, rfl, rfl⟩

theorem configKept_hookStep (o : Option HookId) (k : State → State) (hk : ConfigKept s (k s)) :
    ConfigKept s (hookStep o k s) := by
  obtain ⟨_, _, hw⟩ | ⟨_, _, hw⟩ | ⟨_, _, _, hw⟩ := hookStep_cases o k s <;> rw [hw]
  · exact ⟨rfl, rfl, rfl⟩
  · exact hk
  · exact ⟨rfl, rfl, rfl⟩

theorem configKept_initResult : ConfigKept s (initResult s) := by
  unfold initResult
  split <;> exact ⟨rfl, rfl, rfl⟩

theorem keepsConfig_initStep (l : InitStep) : KeepsConfig s (initStep l s) := by
  cases l with
  | I3 | I6 | I8 | I9 | I16 | I17 | I18 | I19 | I20 | I21 | I22 | I26 | I27 | I29 | I31 | I33 | I35 | I42 | I47
  | I53 | I54 => exact keepsConfig_rmw _ _ _ (configKept_goto _)
  | I23 => exact keepsConfig_rmw _ _ _ (configKept_goto_setSeq _ _)
  | I37 | I38 | I39 => exact keepsConfig_sfrWriteTo _ _ _
  | I7 | I10 | I25 => exact keepsConfig_pollUntil _ _ _ (configKept_goto_setSeq _ _)
  | I15 | I28 | I30 | I32 | I34 | I36 | I46 => exact keepsConfig_pollUntil _ _ _ (configKept_goto _)
  | I11 => exact keepsConfig_boundedPoll _ _ _ _ _ fun _ _ => by constructor <;> simp
  | I24 | I50 => exact keepsConfig_next (configKept_wait _ _)
  | I49 => exact keepsConfig_next (configKept_hookStep _ _ ⟨rfl, rfl, rfl⟩)
  | I56 => exact keepsConfig_next configKept_initResult
  | I2 | I4 | I5 | I12 | I14 | I40 | I41 | I43 | I45 | I48 | I52 | I55 =>
    exact keepsConfig_next (by constructor <;> simp)
  | _ => exact keepsConfig_next ⟨rfl, rfl, rfl⟩

/-- B7 for both values of REVERSE_HOOKS. -/
theorem configKept_backupWait (hooks : Bool) : ConfigKept s (backupWait hooks s) := by
  unfold backupWait
  split
  · exact configKept_hookStep _ _ ⟨rfl, rfl, rfl⟩
  · exact configKept_wait _ _

theorem configKept_backupResult : ConfigKept s (backupResult s) := by
  unfold backupResult
  split <;> exact ⟨rfl, rfl, rfl⟩

theorem keepsConfig_backStep (l : BackStep) : KeepsConfig s (backStep l s) := by
  cases l with
  | B5 | B11 | B14 | B16 | B17 | B18 => exact keepsConfig_rmw _ _ _ (configKept_goto _)
  | B4 | B15 => exact keepsConfig_pollUntil _ _ _ (configKept_goto _)
  | B7 => exact keepsConfig_next (configKept_backupWait _)
  | B20 => exact keepsConfig_next configKept_backupResult
  | B3 | B6 | B10 | B12 | B13 => exact keepsConfig_next (by constructor <;> simp)
  | _ => exact keepsConfig_next ⟨rfl, rfl, rfl⟩

theorem keepsConfig_erayBypassClear : KeepsConfig s (erayBypassClear s) := by
  unfold erayBypassClear
  split
  · exact keepsConfig_rmw _ _ _ (configKept_goto _)
  · exact keepsConfig_next ⟨rfl, rfl, rfl⟩

theorem keepsConfig_erayStep (l : ErayStep) : KeepsConfig s (erayStep l s) := by
  cases l with
  | E3 | E4 | E5 | E6 => exact keepsConfig_rmw _ _ _ (configKept_goto _)
  | E2 => exact keepsConfig_pollUntil _ _ _ (configKept_goto _)
  | E7 => exact keepsConfig_next (configKept_wait _ _)
  | E8 => exact keepsConfig_boundedPoll _ _ _ _ _ fun _ _ => by constructor <;> simp
  | E9 => exact keepsConfig_erayBypassClear
  | E1 | E10 => exact keepsConfig_next (by constructor <;> simp)
  | _ => exact keepsConfig_next ⟨rfl, rfl, rfl⟩

theorem configKept_query (tap : Tap) : ConfigKept s (query tap s) := by
  rw [query_eq]
  exact ⟨rfl, rfl, rfl⟩

theorem configKept_queryOrIllegal (o : Option Tap) : ConfigKept s (queryOrIllegal o s) := by
  cases o with
  | none => exact configKept_finish _ s
  | some tap => exact configKept_query tap

/-- SOLVE writes CFG, and neither CMD nor ECFG (40_solver R109, R110). -/
theorem configStable_execSolve (fPll : BitVec 32) (hidle : s.ustep = .idle) : ConfigStable s (execSolve fPll s) := by
  intro t ht
  unfold execSolve at ht
  split at ht <;> cases ht <;> exact ⟨rfl, rfl, fun hne => absurd hidle hne⟩

/-- Of the commands that start, only SOLVE can change CFG. -/
theorem configStable_exec (i : Instr) (hidle : s.ustep = .idle) : ConfigStable s (exec i s) := by
  cases i with
  | solve fPll => exact configStable_execSolve fPll hidle
  | nop => exact (keepsConfig_next (configKept_finish _ s)).configStable
  | init => exact (keepsConfig_initStep _).configStable
  | swbackup => exact (keepsConfig_backStep _).configStable
  | initeray => exact (keepsConfig_erayStep _).configStable
  | qbaud | qcpu => exact (keepsConfig_next (configKept_queryOrIllegal _)).configStable
  | qsri | qspb | qgtm | qfsi | qmod => exact (keepsConfig_next (configKept_query _)).configStable

theorem configStable_sequencerTurn (s : State) : ConfigStable s (sequencerTurn s) := by
  obtain ⟨_, hw⟩ | ⟨_, hidle, ⟨i, _, hw⟩ | ⟨_, _, hw⟩⟩ | ⟨_, ⟨l, _, hw⟩ | ⟨l, _, hw⟩ | ⟨l, _, hw⟩⟩ :=
    sequencerTurn_cases s <;> rw [hw]
  · exact (keepsConfig_next ⟨rfl, rfl, rfl⟩).configStable
  · exact configStable_exec i hidle
  · exact (keepsConfig_next (configKept_finish _ s)).configStable
  · exact (keepsConfig_initStep l).configStable
  · exact (keepsConfig_backStep l).configStable
  · exact (keepsConfig_erayStep l).configStable

theorem configKept_hookReturn (e : Ext) : ConfigKept s (hookReturn e s) := by
  unfold hookReturn
  dsimp only
  split <;> exact ⟨rfl, rfl, rfl⟩

/-- Settles O11: the host, which alone writes CMD and ECFG, has no turn while BUSY = 1, and SOLVE is no sequence. -/
theorem configurationStableWhileBusy : Obligations.ConfigurationStableWhileBusy := by
  intro s t hbusy ht
  suffices hstep : ConfigStable (takeTurn s) (step s) by simpa using hstep t ht
  obtain ⟨_, hw⟩ | ⟨m, _, hidle, _⟩ | ⟨e, _, hw⟩ | ⟨e, _, hw⟩ | ⟨e, k, _, _, _, hw⟩ := step_cases s
  · exact hw ▸ configStable_sequencerTurn _
  · exact absurd (hbusy.symm.trans hidle) (by decide)
  · exact hw ▸ (keepsConfig_next (by constructor <;> simp)).configStable
  · exact hw ▸ (keepsConfig_next (by constructor <;> simp)).configStable
  · exact hw ▸ (keepsConfig_next (configKept_hookReturn e)).configStable

end Sys2Proof.Machine
end

section
/-! The decoder and the encoder (30_encoding R80 to R88): the fields of a word, the rows by opcode, and the four tests. The
words the decoder takes are the words of the well-formed commands (`decode_eq_ok_iff`). -/

namespace Sys2Proof

/-! ## The four fields of a word (R80) -/

@[simp] theorem immField_encode (i : Instr) : immField (encode i) = immOf i := by
  rw [immField, encode, BitVec.extractLsb'_append_eq_of_le (by decide), BitVec.extractLsb'_append_eq_of_le (by decide),
    BitVec.extractLsb'_append_eq_left]

@[simp] theorem zeroField_encode (i : Instr) : zeroField (encode i) = 0 := by
  rw [zeroField, encode, BitVec.extractLsb'_append_eq_of_le (by decide), BitVec.extractLsb'_append_eq_of_le (by decide),
    BitVec.extractLsb'_append_eq_right]
  rfl

@[simp] theorem argField_encode (i : Instr) : argField (encode i) = argOf i := by
  rw [argField, encode, BitVec.extractLsb'_append_eq_of_le (by decide), BitVec.extractLsb'_append_eq_right]

@[simp] theorem opcField_encode (i : Instr) : opcField (encode i) = opcode i := by
  rw [opcField, encode, BitVec.extractLsb'_append_eq_right]

/-- The four fields fill the word. -/
theorem append_fields (w : BitVec 64) : immField w ++ zeroField w ++ argField w ++ opcField w = w := by
  rw [immField, zeroField, argField, opcField, BitVec.extractLsb'_append_extractLsb'_eq_extractLsb' (by decide),
    BitVec.extractLsb'_append_extractLsb'_eq_extractLsb' (by decide),
    BitVec.extractLsb'_append_extractLsb'_eq_extractLsb' (by decide)]
  exact BitVec.extractLsb'_eq_self

/-! ## The rows of the opcode map (R83) -/

/-- The twelve opcodes. -/
def knownOpcodes : List (BitVec 8) := [0x00, 0x01, 0x02, 0x03, 0x04, 0x10, 0x11, 0x12, 0x13, 0x14, 0x15, 0x16]

/-- What the row of an opcode gives: the command with that opcode and, where the row has an operand, the word's. -/
structure RowGives (opc : BitVec 8) (imm : BitVec 32) (arg : BitVec 8) (i : Instr) : Prop where
  opcode_eq : opcode i = opc
  immOf_eq : fixesImm i = false → immOf i = imm
  argOf_eq : fixesArg i = false → argOf i = arg

/-- Test 3 of R84 by opcode: a field the row fixes to 0 is not 0. -/
def FixedFieldBroken (opc : BitVec 8) (imm : BitVec 32) (arg : BitVec 8) : Prop :=
  (opc ≠ 0x01 ∧ imm ≠ 0) ∨ (opc ≠ 0x12 ∧ opc ≠ 0x13 ∧ arg ≠ 0)

/-- Test 4 of R84 by opcode: a generator or core number outside its range. -/
def ArgOutOfRange (opc arg : BitVec 8) : Prop :=
  (opc = 0x12 ∧ (arg = 0 ∨ arg.toNat > Config.nBaud)) ∨ (opc = 0x13 ∧ arg.toNat ≥ Config.nCores)

section Rows
variable {opc : BitVec 8} {imm : BitVec 32} {arg : BitVec 8} {i : Instr}

theorem rowGives_self (i : Instr) : RowGives (opcode i) (immOf i) (argOf i) i := ⟨rfl, fun _ => rfl, fun _ => rfl⟩

theorem RowGives.commandOf_eq (h : RowGives opc imm arg i) : commandOf opc imm arg = some i := by
  obtain ⟨rfl, himm, harg⟩ := h
  cases i with
  | solve f => obtain rfl := himm rfl; rfl
  | qbaud g => obtain rfl := harg rfl; rfl
  | qcpu c => obtain rfl := harg rfl; rfl
  | _ => rfl

theorem commandOf_of_not_mem (h : opc ∉ knownOpcodes) : commandOf opc imm arg = none := by
  simp only [knownOpcodes, List.mem_cons, List.not_mem_nil, or_false, not_or, BitVec.ofNat_eq_ofNat] at h
  obtain ⟨h0, h1, h2, h3, h4, h10, h11, h12, h13, h14, h15, h16⟩ := h
  rw [commandOf, if_neg h0, if_neg h1, if_neg h2, if_neg h3, if_neg h4, if_neg h10, if_neg h11, if_neg h12, if_neg h13,
    if_neg h14, if_neg h15, if_neg h16]

/-- Every known opcode has its row. -/
theorem exists_rowGives (imm : BitVec 32) (arg : BitVec 8) (h : opc ∈ knownOpcodes) : ∃ i, RowGives opc imm arg i := by
  simp only [knownOpcodes, List.mem_cons, List.not_mem_nil, or_false] at h
  obtain rfl | rfl | rfl | rfl | rfl | rfl | rfl | rfl | rfl | rfl | rfl | rfl := h
  · exact ⟨.nop, rfl, nofun, nofun⟩
  · exact ⟨.solve imm, rfl, fun _ => rfl, nofun⟩
  · exact ⟨.init, rfl, nofun, nofun⟩
  · exact ⟨.swbackup, rfl, nofun, nofun⟩
  · exact ⟨.initeray, rfl, nofun, nofun⟩
  · exact ⟨.qsri, rfl, nofun, nofun⟩
  · exact ⟨.qspb, rfl, nofun, nofun⟩
  · exact ⟨.qbaud arg, rfl, nofun, fun _ => rfl⟩
  · exact ⟨.qcpu arg, rfl, nofun, fun _ => rfl⟩
  · exact ⟨.qgtm, rfl, nofun, nofun⟩
  · exact ⟨.qfsi, rfl, nofun, nofun⟩
  · exact ⟨.qmod, rfl, nofun, nofun⟩

/-! ## Tests 3 and 4 of R84 on the row's command -/

theorem fixesImm_iff : fixesImm i = true ↔ opcode i ≠ 0x01 := by
  cases i <;> simp [fixesImm, opcode]

theorem fixesArg_iff : fixesArg i = true ↔ opcode i ≠ 0x12 ∧ opcode i ≠ 0x13 := by
  cases i <;> simp [fixesArg, opcode]

theorem immOf_of_fixesImm (h : fixesImm i = true) : immOf i = 0 := by
  cases i with
  | solve f => cases h
  | _ => rfl

theorem argOf_of_fixesArg (h : fixesArg i = true) : argOf i = 0 := by
  cases i with
  | qbaud | qcpu => cases h
  | _ => rfl

theorem fixedFieldsZero_iff :
    fixedFieldsZero i imm arg = true ↔ (fixesImm i = true → imm = 0) ∧ (fixesArg i = true → arg = 0) := by
  simp [fixedFieldsZero, imp_iff_not_or]

theorem fixedFieldsZero_self (i : Instr) : fixedFieldsZero i (immOf i) (argOf i) = true :=
  fixedFieldsZero_iff.mpr ⟨immOf_of_fixesImm, argOf_of_fixesArg⟩

theorem RowGives.fixedFieldsZero_eq_false_iff (h : RowGives opc imm arg i) :
    fixedFieldsZero i imm arg = false ↔ FixedFieldBroken opc imm arg := by
  rw [← Bool.not_eq_true, fixedFieldsZero_iff, fixesImm_iff, fixesArg_iff, h.opcode_eq, FixedFieldBroken]
  tauto

theorem RowGives.wf_eq_false_iff (h : RowGives opc imm arg i) : i.wf = false ↔ ArgOutOfRange opc arg := by
  obtain ⟨rfl, -, harg⟩ := h
  cases i with
  | qbaud g =>
    obtain rfl := harg rfl
    simp [Instr.wf, ArgOutOfRange, opcode, argOf, BitVec.toNat_eq, Nat.one_le_iff_ne_zero, or_iff_not_imp_left]
  | qcpu c =>
    obtain rfl := harg rfl
    simp [Instr.wf, ArgOutOfRange, opcode, argOf]
  | _ => simp [Instr.wf, ArgOutOfRange, opcode]

/-- Where the fixed fields are 0, the row's command has the word's fields. -/
theorem RowGives.fields_eq (h : RowGives opc imm arg i) (hfix : fixedFieldsZero i imm arg = true) :
    immOf i = imm ∧ argOf i = arg := by
  obtain ⟨himm, harg⟩ := fixedFieldsZero_iff.mp hfix
  constructor
  · cases hi : fixesImm i with
    | false => exact h.immOf_eq hi
    | true => rw [immOf_of_fixesImm hi, himm hi]
  · cases hi : fixesArg i with
    | false => exact h.argOf_eq hi
    | true => rw [argOf_of_fixesArg hi, harg hi]

end Rows

/-! ## The decoder (R84, R88) -/

section Decoder
variable {w : BitVec 64} {i : Instr}

theorem encode_of_rowGives (hzero : zeroField w = 0) (hrow : RowGives (opcField w) (immField w) (argField w) i)
    (hfix : fixedFieldsZero i (immField w) (argField w) = true) : encode i = w := by
  obtain ⟨himm, harg⟩ := hrow.fields_eq hfix
  calc encode i = immField w ++ 0#16 ++ argField w ++ opcField w := by rw [encode, himm, harg, hrow.opcode_eq]
    _ = immField w ++ zeroField w ++ argField w ++ opcField w := by rw [hzero]; rfl
    _ = w := append_fields w

/-- What the decoder can answer: the four tests of R84 in their order, then the command whose word it is. -/
theorem decode_cases (w : BitVec 64) :
    (zeroField w ≠ 0#16 ∧ decode w = .error .zeroField) ∨
    (zeroField w = 0#16 ∧ opcField w ∉ knownOpcodes ∧ decode w = .error .reservedOpcode) ∨
    (zeroField w = 0#16 ∧ opcField w ∈ knownOpcodes ∧
      ((FixedFieldBroken (opcField w) (immField w) (argField w) ∧ decode w = .error .fixedField) ∨
        (¬ FixedFieldBroken (opcField w) (immField w) (argField w) ∧
          ((ArgOutOfRange (opcField w) (argField w) ∧ decode w = .error .argRange) ∨
            (¬ ArgOutOfRange (opcField w) (argField w) ∧ ∃ i, i.wf = true ∧ encode i = w ∧ decode w = .ok i))))) := by
  by_cases hzero : zeroField w = 0#16
  case neg => exact .inl ⟨hzero, if_pos hzero⟩
  by_cases hknown : opcField w ∈ knownOpcodes
  case neg => exact .inr (.inl ⟨hzero, hknown, by simp [decode, hzero, commandOf_of_not_mem hknown]⟩)
  refine .inr (.inr ⟨hzero, hknown, ?_⟩)
  obtain ⟨i, hrow⟩ := exists_rowGives (immField w) (argField w) hknown
  rw [← hrow.fixedFieldsZero_eq_false_iff, ← hrow.wf_eq_false_iff]
  cases hfix : fixedFieldsZero i (immField w) (argField w) with
  | false => exact .inl ⟨by simp, by simp [decode, hzero, hrow.commandOf_eq, hfix]⟩
  | true =>
    refine .inr ⟨by simp, ?_⟩
    cases hwf : i.wf with
    | false => exact .inl ⟨by simp, by simp [decode, hzero, hrow.commandOf_eq, hfix, hwf]⟩
    | true =>
      exact .inr ⟨by simp, i, hwf, encode_of_rowGives hzero hrow hfix,
        by simp [decode, hzero, hrow.commandOf_eq, hfix, hwf]⟩

/-- The words each of the four tests catches; their outcomes exclude each other. -/
theorem decode_error_iff (w : BitVec 64) :
    (decode w = .error .zeroField ↔ zeroField w ≠ 0) ∧
    (decode w = .error .reservedOpcode ↔ zeroField w = 0 ∧ opcField w ∉ knownOpcodes) ∧
    (decode w = .error .fixedField ↔
      zeroField w = 0 ∧ opcField w ∈ knownOpcodes ∧ FixedFieldBroken (opcField w) (immField w) (argField w)) ∧
    (decode w = .error .argRange ↔
      zeroField w = 0 ∧ opcField w ∈ knownOpcodes ∧ ¬ FixedFieldBroken (opcField w) (immField w) (argField w) ∧
        ArgOutOfRange (opcField w) (argField w)) := by
  obtain ⟨hzero, hw⟩ | ⟨hzero, hknown, hw⟩ | ⟨hzero, hknown, ⟨hfix, hw⟩ | ⟨hfix, ⟨harg, hw⟩ | ⟨harg, _, _, _, hw⟩⟩⟩ :=
    decode_cases w
  · simp [hw, hzero]
  · simp [hw, hzero, hknown]
  · simp [hw, hzero, hknown, hfix]
  · simp [hw, hzero, hknown, hfix, harg]
  · simp [hw, hzero, hknown, hfix, harg]

theorem decode_encode (h : i.wf = true) : decode (encode i) = .ok i := by
  simp [decode, (rowGives_self i).commandOf_eq, fixedFieldsZero_self, h]

/-- The words the decoder takes are the words of the well-formed commands. -/
theorem decode_eq_ok_iff : decode w = .ok i ↔ i.wf = true ∧ encode i = w := by
  constructor
  · intro hok
    obtain ⟨_, hw⟩ | ⟨_, _, hw⟩ | ⟨_, _, ⟨_, hw⟩ | ⟨_, ⟨_, hw⟩ | ⟨_, j, hwf, henc, hw⟩⟩⟩ := decode_cases w
    case inr.inr.inr.inr =>
      obtain rfl : j = i := by simpa [hw] using hok
      exact ⟨hwf, henc⟩
    all_goals simp [hw] at hok
  · rintro ⟨hwf, rfl⟩
    exact decode_encode hwf

end Decoder

/-- Settles O1: the fields of the encoder's word pick the command's row, and pass the four tests. -/
theorem decodeInvertsEncode : Obligations.DecodeInvertsEncode := fun _ hwf => decode_encode hwf

/-- Settles O2: a well-formed command with the word `w` would be the decoder's answer on `w`. -/
theorem everyWordIsOneCommandOrIllegal : Obligations.EveryWordIsOneCommandOrIllegal := by
  intro w
  have hcommand : ∀ j : Instr, j.wf = true → encode j = w → decode w = .ok j :=
    fun _ hwf henc => decode_eq_ok_iff.mpr ⟨hwf, henc⟩
  cases hw : decode w with
  | ok i =>
    obtain ⟨hwf, henc⟩ := decode_eq_ok_iff.mp hw
    exact .inl ⟨i, rfl, hwf, henc, fun j hj hjw => by simpa [hw, eq_comm] using hcommand j hj hjw⟩
  | error e => exact .inr ⟨e, rfl, fun j hj hjw => by simpa [hw] using hcommand j hj hjw⟩

/-- Settles O4: each word is the encoder's for its command. -/
theorem sampleWordsDecode : Obligations.SampleWordsDecode :=
  ⟨decode_encode (i := .nop) rfl, decode_encode (i := .solve 200000000) rfl, decode_encode (i := .init) rfl,
    decode_encode (i := .swbackup) rfl, decode_encode (i := .initeray) rfl, decode_encode (i := .qbaud 2) rfl,
    decode_encode (i := .qcpu 2) rfl, decode_encode (i := .qmod) rfl⟩

end Sys2Proof
end

section
/-! A word or a term that is no command (30_encoding R84), and the host's turn (30_encoding R85). -/

namespace Sys2Proof.Machine

variable {s : State}

/-- R84: BUSY, FAIL and ERR, beside the place in the µstep, are all an illegal command writes. -/
theorem illegalCommand_eq (s : State) : illegalCommand s = { s with
    fail := true, err := 4, ustep := .idle, phase := .entry, busy := false } := rfl

theorem step_of_illegal {e : Illegal} (hturn : currentTurn s = .seq) (hbusy : s.busy = true) (hidle : s.ustep = .idle)
    (hdecode : decode s.cmd = .error e) : step s = .next { takeTurn s with
      busy := false, fail := true, err := 4, ustep := .idle, phase := .entry } := by
  have hstep : step s = sequencerTurn (takeTurn s) := by simp [step, hturn]
  have hfetch : fetch (takeTurn s) = .error e := by simpa [fetch] using hdecode
  simp [hstep, sequencerTurn, hbusy, hidle, hfetch, illegalCommand_eq]

/-- Settles O3: the four tests are the decoder's (`decode_error_iff`), and the sequencer's turn on such a word is
`illegalCommand`. -/
theorem illegalCommandsByOrderedTests : Obligations.IllegalCommandsByOrderedTests :=
  ⟨decode_error_iff, fun _ _ hturn hbusy hidle hdecode => step_of_illegal hturn hbusy hidle hdecode⟩

/-- A scripted turn whose agent has no move stays at the head of the script, and the sequencer moves (log 31). -/
theorem step_of_agenda_disabled {t : Turn} {rest : List Turn} (ha : s.agenda = t :: rest) (hdis : enabled s t = false) :
    step s = sequencerTurn s := by
  have hturn : currentTurn s = .seq := by simp [currentTurn, namedTurn, ha, hdis]
  have hscript : takeTurn s = s := by simp [takeTurn, ha, hdis]
  simp [step, hturn, hscript]

/-- Settles O12: BUSY alone decides whether the host's scripted turn can be made. -/
theorem hostMovesOnlyWhileIdle : Obligations.HostMovesOnlyWhileIdle := by
  refine fun s m rest ha => ⟨fun hbusy => ?_, fun w hm hidle => ?_⟩
  · exact step_of_agenda_disabled ha (by simp [enabled, hbusy])
  · rw [step_of_agenda_host m ha hidle, hm, hostTurn]

theorem baudTap_of_outOfRange {g : Nat} (h : g = 0 ∨ g > Config.nBaud) : baudTap g = none := if_pos h

theorem cpuTap_of_outOfRange {c : Nat} (h : c ≥ Config.nCores) : cpuTap c = none := if_pos h

/-- Settles O60: outside its range the number has no tap, and a query without a tap is an illegal command (log 23). -/
theorem missingTapIsIllegal : Obligations.MissingTapIsIllegal := by
  refine fun s a => ⟨fun hbaud => ?_, fun hcore => ?_⟩
  · have htap : baudTap a.toNat = none := baudTap_of_outOfRange (hbaud.imp_left fun h => by rw [h]; rfl)
    rw [exec, execQbaud, htap, queryOrIllegal, illegalCommand_eq]
  · rw [exec, execQcpu, cpuTap_of_outOfRange hcore, queryOrIllegal, illegalCommand_eq]

end Sys2Proof.Machine
end

section
/-! The solver's three loops as one walk over the search order, and what that walk finds (40_solver R103 to R107). -/

namespace Sys2Proof.Machine

variable {fOsc fPll p k2 : Nat} {c : Candidate}

/-! ## How a search goes on -/

/-- What a search has found when it stops: the exact match, or the best so far. -/
def Search.found : Search → Option Candidate
  | .exact c => some c
  | .best b => b

/-- The next loop runs only if no exact match ended the search (40_solver R107). -/
def Search.andThen : Search → (Option Candidate → Search) → Search
  | .exact c, _ => .exact c
  | .best b, next => next b

/-- The inner loop's body, over any list of candidates. -/
def searchAll : List Candidate → Option Candidate → Search
  | [], best => .best best
  | c :: cs, best => if c.err = 0 then .exact (better best c) else searchAll cs (some (better best c))

theorem searchAll_append (cs ds : List Candidate) (best : Option Candidate) :
    searchAll (cs ++ ds) best = (searchAll cs best).andThen (searchAll ds) := by
  induction cs generalizing best with
  | nil => rfl
  | cons c cs ih =>
    rw [List.cons_append, searchAll, searchAll]
    split
    · rfl
    · exact ih _

/-! ## Each loop walks its part of the search order -/

theorem searchN_eq (ns : List Nat) (best : Option Candidate) :
    searchN fOsc fPll p k2 ns best = searchAll (ns.map (candidate fOsc fPll p k2)) best := by
  induction ns generalizing best with
  | nil => rfl
  | cons n ns ih => simp only [searchN, List.map_cons, searchAll, ih]

theorem searchK2_cons (k2 : Nat) (ks : List Nat) (best : Option Candidate) :
    searchK2 fOsc fPll p (k2 :: ks) best =
      if vcoOk fPll k2 then (searchN fOsc fPll p k2 nValues best).andThen (searchK2 fOsc fPll p ks)
      else searchK2 fOsc fPll p ks best := by
  rw [searchK2]
  split
  · cases searchN fOsc fPll p k2 nValues best <;> rfl
  · rfl

/-- The candidates of one P, in the order of the two inner loops (40_solver R104, R105). -/
def candidatesOfP (fOsc fPll p : Nat) (ks : List Nat) : List Candidate :=
  (ks.filter (vcoOk fPll)).flatMap fun k2 => nValues.map (candidate fOsc fPll p k2)

theorem searchK2_eq (ks : List Nat) (best : Option Candidate) :
    searchK2 fOsc fPll p ks best = searchAll (candidatesOfP fOsc fPll p ks) best := by
  induction ks generalizing best with
  | nil => rfl
  | cons k2 ks ih =>
    rw [searchK2_cons, funext ih]
    split <;> rename_i hvco
    · simp [candidatesOfP, hvco, searchAll_append, searchN_eq]
    · simp [candidatesOfP, hvco]

theorem searchP_cons (p : Nat) (ps : List Nat) (best : Option Candidate) :
    searchP fOsc fPll (p :: ps) best =
      if refOk fOsc p then (searchK2 fOsc fPll p (k2Values fPll) best).andThen (searchP fOsc fPll ps)
      else searchP fOsc fPll ps best := by
  rw [searchP]
  split
  · cases searchK2 fOsc fPll p (k2Values fPll) best <;> rfl
  · rfl

theorem searchP_eq (ps : List Nat) (best : Option Candidate) :
    searchP fOsc fPll ps best =
      searchAll ((ps.filter (refOk fOsc)).flatMap fun p => candidatesOfP fOsc fPll p (k2Values fPll)) best := by
  induction ps generalizing best with
  | nil => rfl
  | cons p ps ih =>
    rw [searchP_cons, funext ih]
    split <;> rename_i href
    · simp [href, searchAll_append, searchK2_eq]
    · simp [href]

theorem solve_eq_found (fOsc fPll : Nat) : solve fOsc fPll = (searchAll (searchOrder fOsc fPll) none).found := by
  have horder : searchP fOsc fPll pValues none = searchAll (searchOrder fOsc fPll) none := searchP_eq pValues none
  rw [← horder, solve]
  cases searchP fOsc fPll pValues none <;> rfl

/-! ## The walk finds the first least error -/

/-- One comparison of the search is one step of the library's `argmin` (40_solver R106). -/
theorem argAux_err_eq (best : Option Candidate) (c : Candidate) :
    List.argAux (fun b c => b.err < c.err) best c = some (better best c) := by
  cases best with
  | none => rfl
  | some b => exact (apply_ite some _ _ _).symm

/-- An exact candidate stays the best whatever follows: no error is strictly below 0. -/
theorem foldl_argAux_of_exact (hc : c.err = 0) (cs : List Candidate) :
    cs.foldl (List.argAux fun b c => b.err < c.err) (some c) = some c := by
  induction cs with
  | nil => rfl
  | cons d cs ih =>
    have hkeep : better (some c) d = c := by simp [better, hc]
    rw [List.foldl_cons, argAux_err_eq, hkeep, ih]

theorem better_err_le (best : Option Candidate) (c : Candidate) : (better best c).err ≤ c.err := by
  cases best with
  | none => exact le_rfl
  | some b => simp only [better]; split <;> omega

/-- Leaving the loops at an exact match changes nothing of what the search finds (40_solver R107). -/
theorem found_searchAll (cs : List Candidate) (best : Option Candidate) :
    (searchAll cs best).found = cs.foldl (List.argAux fun b c => b.err < c.err) best := by
  induction cs generalizing best with
  | nil => rfl
  | cons c cs ih =>
    rw [searchAll, List.foldl_cons, argAux_err_eq]
    split <;> rename_i hc
    · have hexact : (better best c).err = 0 := Nat.le_zero.mp (hc ▸ better_err_le best c)
      exact (foldl_argAux_of_exact hexact cs).symm
    · exact ih _

/-- The solver is the first candidate of least error in the search order (40_solver R111). -/
theorem solve_eq_argmin (fOsc fPll : Nat) : solve fOsc fPll = (searchOrder fOsc fPll).argmin Candidate.err :=
  (solve_eq_found fOsc fPll).trans (found_searchAll _ none)

theorem solve_eq_none_iff : solve fOsc fPll = none ↔ searchOrder fOsc fPll = [] := by
  rw [solve_eq_argmin, List.argmin_eq_none]

theorem mem_searchOrder_of_solve (h : solve fOsc fPll = some c) : c ∈ searchOrder fOsc fPll :=
  List.argmin_mem (solve_eq_argmin fOsc fPll ▸ h)

theorem err_le_of_solve {d : Candidate} (h : solve fOsc fPll = some c) (hd : d ∈ searchOrder fOsc fPll) : c.err ≤ d.err :=
  List.le_of_mem_argmin hd (solve_eq_argmin fOsc fPll ▸ h)

/-- A candidate before the solver's has a greater error, or the search would have kept it. -/
theorem err_lt_of_solve_of_before {d : Candidate} {before after : List Candidate} (h : solve fOsc fPll = some c)
    (horder : searchOrder fOsc fPll = before ++ c :: after) (hc : c ∉ before) (hd : d ∈ before) : c.err < d.err := by
  by_contra hle
  have hmin : c ∈ (before ++ c :: after).argmin Candidate.err := horder ▸ solve_eq_argmin fOsc fPll ▸ h
  have hfirst : (before ++ c :: after).idxOf c ≤ (before ++ c :: after).idxOf d :=
    List.index_of_argmin hmin (List.mem_append_left _ hd) (not_lt.mp hle)
  rw [List.idxOf_append_of_mem hd, List.idxOf_append_of_notMem hc] at hfirst
  have := List.idxOf_lt_length_iff.mpr hd
  omega

/-- Settles O22: the order is cut at the first place the solver's candidate stands. -/
theorem solverReturnsFirstLeastError : Obligations.SolverReturnsFirstLeastError := by
  refine fun fOsc fPll => ⟨solve_eq_none_iff.mp, fun c h => ?_⟩
  obtain ⟨before, after, horder, hc⟩ := List.eq_append_cons_of_mem (mem_searchOrder_of_solve h)
  refine ⟨before, after, horder, fun d hd => err_lt_of_solve_of_before h horder hc hd, fun d hd => ?_⟩
  exact err_le_of_solve h (by simp [horder, hd])

end Sys2Proof.Machine
end

section
/-! The candidates inside the windows (40_solver R101 to R105), and what follows for the solver (40_solver R112 to R114). -/

namespace Sys2Proof.Machine

variable {fOsc fPll p k2 n : Nat} {c : Candidate}

/-! ## The values of each loop -/

theorem mem_pValues : p ∈ pValues ↔ 1 ≤ p ∧ p ≤ 16 := by
  simp only [pValues, Config.pMin, Config.pMax, List.mem_map, List.mem_range]
  exact ⟨by omega, fun h => ⟨16 - p, by omega⟩⟩

theorem mem_nValues : n ∈ nValues ↔ 1 ≤ n ∧ n ≤ 128 := by
  simp only [nValues, Config.nMin, Config.nMax, List.mem_map, List.mem_range]
  exact ⟨by omega, fun h => ⟨n - 1, by omega⟩⟩

theorem k2Step_of_le (h : fPll ≤ 240000000) : k2Step fPll = 2 := if_neg (not_lt.mpr h)

theorem k2Step_of_gt (h : 240000000 < fPll) : k2Step fPll = 1 := if_pos h

theorem one_le_k2Step (fPll : Nat) : 1 ≤ k2Step fPll := by
  unfold k2Step
  split <;> omega

theorem bounds_of_mem_k2Values (h : k2 ∈ k2Values fPll) : 1 ≤ k2 ∧ k2 ≤ 128 := by
  simp only [k2Values, Config.k2Min, Config.k2Max, List.mem_filter, List.mem_map, List.mem_range] at h
  obtain ⟨⟨j, hj, rfl⟩, hmin⟩ := h
  exact ⟨of_decide_eq_true hmin, (Nat.le_div_iff_mul_le (one_le_k2Step fPll)).mp hj⟩

theorem k2Step_dvd_of_mem_k2Values (h : k2 ∈ k2Values fPll) : k2Step fPll ∣ k2 := by
  simp only [k2Values, List.mem_filter, List.mem_map] at h
  obtain ⟨⟨j, _, rfl⟩, _⟩ := h
  exact Dvd.intro_left _ rfl

theorem refOk_iff : refOk fOsc p = true ↔ 8000000 ≤ fOsc / p ∧ fOsc / p ≤ 24000000 := by
  rw [refOk, Bool.and_eq_true]
  exact and_congr decide_eq_true_iff decide_eq_true_iff

theorem vcoOk_iff : vcoOk fPll k2 = true ↔ 400000000 ≤ fPll * k2 ∧ fPll * k2 ≤ 800000000 := by
  rw [vcoOk, Bool.and_eq_true]
  exact and_congr decide_eq_true_iff decide_eq_true_iff

theorem accepted_iff : accepted fPll c = true ↔ 100 * c.err < 2 * fPll := decide_eq_true_iff

/-- The truncated differences of the error metric are the distance in the integers (40_solver R105). -/
theorem candErr_eq_abs (fOsc fPll p k2 n : Nat) :
    (candErr fOsc fPll p k2 n : ℤ) = |((n / (p * k2) * fOsc : ℕ) : ℤ) - (fPll : ℤ)| := by
  simp only [candErr, abs_eq_max_neg]
  omega

/-! ## The candidates of the search order -/

/-- A candidate inside the windows (40_solver R101 to R105), with the error of its dividers. -/
structure InWindows (fOsc fPll : Nat) (c : Candidate) : Prop where
  p   : 1 ≤ c.p ∧ c.p ≤ 16
  k2  : c.k2 ∈ k2Values fPll
  n   : 1 ≤ c.n ∧ c.n ≤ 128
  ref : 8000000 ≤ fOsc / c.p ∧ fOsc / c.p ≤ 24000000
  vco : 400000000 ≤ fPll * c.k2 ∧ fPll * c.k2 ≤ 800000000
  err : c.err = candErr fOsc fPll c.p c.k2 c.n

theorem mem_searchOrder_iff : c ∈ searchOrder fOsc fPll ↔ InWindows fOsc fPll c := by
  simp only [searchOrder, List.mem_flatMap, List.mem_filter, List.mem_map, mem_pValues, mem_nValues, refOk_iff, vcoOk_iff]
  constructor
  · rintro ⟨p, ⟨hp, href⟩, k2, ⟨hk2, hvco⟩, n, hn, rfl⟩
    exact ⟨hp, hk2, hn, href, hvco, rfl⟩
  · rintro ⟨hp, hk2, hn, href, hvco, herr⟩
    exact ⟨c.p, ⟨hp, href⟩, c.k2, ⟨hk2, hvco⟩, c.n, hn, by rw [candidate, ← herr]⟩

theorem inWindows_of_solve (h : solve fOsc fPll = some c) : InWindows fOsc fPll c :=
  mem_searchOrder_iff.mp (mem_searchOrder_of_solve h)

theorem InWindows.err_eq_abs (h : InWindows fOsc fPll c) :
    (c.err : ℤ) = |((c.n / (c.p * c.k2) * fOsc : ℕ) : ℤ) - (fPll : ℤ)| := by
  rw [h.err, candErr_eq_abs]

/-- Settles O23: the solver's candidate is inside the windows. -/
theorem solverResultInRange : Obligations.SolverResultInRange := by
  intro fOsc fPll c hsolve
  have h := inWindows_of_solve hsolve
  refine ⟨h.p, bounds_of_mem_k2Values h.k2, h.n, h.ref, h.vco, h.err_eq_abs, fun hlow => ?_⟩
  have heven : k2Step fPll ∣ c.k2 := k2Step_dvd_of_mem_k2Values h.k2
  rw [k2Step_of_le hlow] at heven
  exact Nat.mod_eq_zero_of_dvd heven

/-- Settles O24: the exact candidate stands in the search order, and no error there is below the solver's. -/
theorem solverFindsAnExactMatch : Obligations.SolverFindsAnExactMatch := by
  intro fOsc fPll p k2 n hp hp' hn hn' hk2 href href' hvco hvco' hexact
  have hmem : candidate fOsc fPll p k2 n ∈ searchOrder fOsc fPll :=
    mem_searchOrder_iff.mpr ⟨⟨hp, hp'⟩, hk2, ⟨hn, hn'⟩, ⟨href, href'⟩, ⟨hvco, hvco'⟩, rfl⟩
  have herr : (candidate fOsc fPll p k2 n).err = 0 := by simp [candidate, candErr, hexact]
  cases hsolve : solve fOsc fPll with
  | none => simp [solve_eq_none_iff.mp hsolve] at hmem
  | some c => exact ⟨c, rfl, Nat.le_zero.mp (herr ▸ err_le_of_solve hsolve hmem)⟩

/-- Settles O25: the multiple is the one the truncated quotient of the dividers names. -/
theorem solveSucceedsOnlyNearAMultiple : Obligations.SolveSucceedsOnlyNearAMultiple := by
  intro fOsc fPll c hsolve haccepted
  refine ⟨c.n / (c.p * c.k2), ?_⟩
  rw [← (inWindows_of_solve hsolve).err_eq_abs]
  exact_mod_cast accepted_iff.mp haccepted

/-! ## The corner cases -/

/-- The crystal of a candidate is inside the reference window stretched by the divider P. -/
theorem InWindows.crystal_bounds (h : InWindows fOsc fPll c) : 8000000 ≤ fOsc ∧ fOsc ≤ 16 * 24000000 + 15 := by
  have hlow : 8000000 ≤ fOsc := h.ref.1.trans (Nat.div_le_self _ _)
  have hhigh : fOsc < 24000001 * c.p := (Nat.div_lt_iff_lt_mul h.p.1).mp (Nat.lt_succ_of_le h.ref.2)
  have hp := h.p.2
  omega

/-- The target of a candidate is inside the VCO window shrunk by the divider K2. -/
theorem InWindows.target_bounds (h : InWindows fOsc fPll c) : 3125000 ≤ fPll ∧ fPll ≤ 800000000 := by
  obtain ⟨hk2, hk2'⟩ := bounds_of_mem_k2Values h.k2
  have hlow : 400000000 ≤ fPll * 128 := h.vco.1.trans (Nat.mul_le_mul_left _ hk2')
  have hhigh : fPll ≤ 800000000 := (Nat.le_mul_of_pos_right _ hk2).trans h.vco.2
  omega

theorem k2Values_head?_of_fine (h : 240000000 < fPll) : (k2Values fPll).head? = some 1 := by
  rw [k2Values, k2Step_of_gt h]
  rfl

/-- Settles O26: outside its bounds a crystal or a target has no candidate, and the fine K2 list begins at 1. -/
theorem solverCornerCases : Obligations.SolverCornerCases := by
  refine ⟨fun fOsc fPll hcorner => ?_, fun fPll hlow hhigh => ?_, fun fPll c hedge => ?_, by decide +kernel⟩
  · refine solve_eq_none_iff.mpr (List.eq_nil_iff_forall_not_mem.mpr fun c hc => ?_)
    have h := mem_searchOrder_iff.mp hc
    have hcrystal := h.crystal_bounds
    have htarget := h.target_bounds
    omega
  · exact ⟨k2Values_head?_of_fine (by omega), vcoOk_iff.mpr (by omega)⟩
  · exact Bool.eq_false_iff.mpr fun h => absurd (accepted_iff.mp h) (by omega)

end Sys2Proof.Machine
end

section
/-! What SOLVE writes (40_solver R108 to R110). -/

namespace Sys2Proof.Machine

variable {fOsc fPll : Nat} {c : Candidate}

theorem acceptedPlan_eq_some (hsolve : solve fOsc fPll = some c) (hacc : accepted fPll c = true) :
    acceptedPlan fOsc fPll = some c := by
  simp [acceptedPlan, hsolve, hacc]

theorem acceptedPlan_eq_none (h : ∀ c, solve fOsc fPll = some c → accepted fPll c = false) :
    acceptedPlan fOsc fPll = none := by
  cases hsolve : solve fOsc fPll with
  | none => simp [acceptedPlan, hsolve]
  | some c => simp [acceptedPlan, hsolve, h c hsolve]

theorem execSolve_of_plan (s : State) (f : BitVec 32) (h : acceptedPlan s.cfg.xtal.toNat f.toNat = some c) :
    execSolve f s = .next (finish errOk { s with cfg := storePlan c s.cfg }) := by
  rw [execSolve, h]

theorem execSolve_of_noPlan (s : State) (f : BitVec 32) (h : acceptedPlan s.cfg.xtal.toNat f.toNat = none) :
    execSolve f s =
      .next (finish errSolveNoPlan { s with cfg := drawPlan s.draws s.cfg, draws := s.draws + 1 }) := by
  rw [execSolve, h]

/-- A divider from 1 up to 2 ^ w is stored minus 1 in a field of w bits and read back (40_solver R109). -/
theorem toNat_ofNat_pred_add_one (w : Nat) {d : Nat} (hlow : 1 ≤ d) (hhigh : d ≤ 2 ^ w) :
    (BitVec.ofNat w (d - 1)).toNat + 1 = d := by
  rw [BitVec.toNat_ofNat, Nat.mod_eq_of_lt (by omega), Nat.sub_add_cancel hlow]

/-- Settles O20: the dividers of a candidate inside the windows fit their fields. -/
theorem solveStoresAnAcceptedPlan : Obligations.SolveStoresAnAcceptedPlan := by
  intro s f c hsolve hacc
  have h := inWindows_of_solve hsolve
  obtain ⟨hk2, hk2'⟩ := bounds_of_mem_k2Values h.k2
  refine ⟨_, _, _, toNat_ofNat_pred_add_one 4 h.p.1 h.p.2, toNat_ofNat_pred_add_one 7 h.n.1 h.n.2,
    toNat_ofNat_pred_add_one 7 hk2 hk2', ?_⟩
  exact execSolve_of_plan s f (acceptedPlan_eq_some hsolve (accepted_iff.mpr hacc))

/-- Settles O21: the values are the draws; NSTEPS is the one whose bound its machine type does not give (`freeNsteps_le`). -/
theorem solveFailureLeavesUnspecifiedPlan : Obligations.SolveFailureLeavesUnspecifiedPlan := by
  intro s f h
  refine ⟨_, _, _, _, _, freeNsteps_le s.draws, execSolve_of_noPlan s f (acceptedPlan_eq_none fun c hsolve => ?_)⟩
  exact Bool.eq_false_iff.mpr fun hacc => h c hsolve (accepted_iff.mp hacc)

end Sys2Proof.Machine
end

section
/-! The µsteps of SWBACKUP and INITERAY, one equation for each kind: the writes of listed fields, the polls, the bounded poll and
the moves between labels (42_sequencer_backup_eray R200 to R238). -/

namespace Sys2Proof.Machine

variable {s t : State}

/-! ## The end of a command -/

theorem finish_errOk (s : State) :
    finish errOk s = { s with fail := false, err := 0, ustep := .idle, phase := .entry, busy := false } := rfl

/-- Settles O19: NOP is the end of a command with the code OK. -/
theorem nopOnlyClearsTheResult : Obligations.NopOnlyClearsTheResult := fun s =>
  congrArg Host.Outcome.next (finish_errOk s)

/-! ## A write of listed fields -/

theorem toNat_ofBits_lt {n : Nat} (v : BitVec n) : (ofBits v).toNat < 2 ^ n := by
  rw [ofBits, BitVec.toNat_setWidth]
  exact (Nat.mod_le _ _).trans_lt v.isLt

theorem toNat_ofFlag_lt (b : Bool) : (ofFlag b).toNat < 2 ^ 1 := by
  cases b <;> decide

/-- A field write is a write of one listed field. -/
theorem writeFieldTo_eq_writeFieldsTo (f : Field) (v : Word) (l : UStep) (s : State) :
    writeFieldTo f v l s = writeFieldsTo (fieldReg f) [(f, v)] l s := rfl

/-- A µstep that writes listed fields under the SAFETY lock, as the statements about single µsteps put it. -/
theorem writeFieldsTo_rewrites {r : Reg} {fs : List (Field × Word)} (l : UStep) (hfs : ∀ q ∈ fs, Writable r q)
    (hnodup : (fs.map Prod.fst).Nodup) (hdomain : regDomain r = some .safety) (hheld : s.heldSafety = true) :
    ∃ t, writeFieldsTo r fs l s = .next t ∧ Rewritten r (oldBits r s) fs s t ∧ OnlyRegisterFile l (midway s) t :=
  ⟨_, writeFieldsTo_of_held r fs l s .safety hdomain hheld, rewritten_sfrStore s hfs hnodup fun _ _ => rfl, rfl⟩

/-- The same for one field. -/
theorem writeFieldTo_rewrites {f : Field} {v : Word} (l : UStep) (hclass : fieldClass f ≠ .rh)
    (hfits : v.toNat < 2 ^ (Config.layout f).width) (hdomain : regDomain (fieldReg f) = some .safety)
    (hheld : s.heldSafety = true) :
    ∃ t, writeFieldTo f v l s = .next t ∧ Rewritten (fieldReg f) (oldBits (fieldReg f) s) [(f, v)] s t ∧
      OnlyRegisterFile l (midway s) t := by
  rw [writeFieldTo_eq_writeFieldsTo]
  exact writeFieldsTo_rewrites l (List.forall_mem_singleton.mpr ⟨rfl, hclass, hfits⟩) (List.nodup_singleton f)
    hdomain hheld

/-! ## SWBACKUP -/

/-- Inside SWBACKUP the command runs the µstep USTEP names. -/
theorem exec_swbackup {l : BackStep} (hu : s.ustep = .back l) : exec .swbackup s = backStep l s := by
  rw [exec, execSwbackup, hu]
  rfl

/-- From IDLE it starts at B1. -/
theorem exec_swbackup_of_idle (hu : s.ustep = .idle) : exec .swbackup s = backStep .B1 s := by
  rw [exec, execSwbackup, hu]
  rfl

/-- Settles O47: each listed µstep is one field write whose value fits its field. -/
theorem backupFieldWriteSteps : Obligations.BackupFieldWriteSteps := by
  intro s l f v n hrow hu hheld
  rw [exec_swbackup hu]
  simp only [List.mem_cons, Prod.mk.injEq, List.not_mem_nil, or_false] at hrow
  obtain ⟨rfl, rfl, rfl, rfl⟩ | ⟨rfl, rfl, rfl, rfl⟩ | ⟨rfl, rfl, rfl, rfl⟩ | ⟨rfl, rfl, rfl, rfl⟩ |
    ⟨rfl, rfl, rfl, rfl⟩ := hrow
  · exact writeFieldTo_rewrites _ (by decide) (toNat_ofBits_lt _) rfl hheld
  · exact writeFieldTo_rewrites _ (by decide) (by decide) rfl hheld
  · exact writeFieldTo_rewrites _ (by decide) (by decide) rfl hheld
  · exact writeFieldTo_rewrites _ (by decide) (by decide) rfl hheld
  · exact writeFieldTo_rewrites _ (by decide) (toNat_ofFlag_lt _) rfl hheld

/-- B19 hands B20 the phase that makes it write SEQ. -/
theorem backupResult_backupRelease (s : State) :
    backupResult (backupRelease s) = { release .safety s with
      fail := false, err := 0, seq := .backupClock, ustep := .idle, phase := .entry, busy := false } := by
  have hpath : (backupRelease s).phase = .fullPath := rfl
  rw [backupResult, if_pos hpath, finish_errOk]
  rfl

/-- Settles O48: each clause is one arm of `backStep`; B19 and B20 together are `backupResult_backupRelease`. -/
theorem backupControlSteps : Obligations.BackupControlSteps := by
  intro s
  refine ⟨?_, exec_swbackup, exec_swbackup, ?_, exec_swbackup, exec_swbackup, ?_, ?_, ?_, ?_⟩
  · rintro (hu | hu)
    · exact exec_swbackup hu
    · exact exec_swbackup_of_idle hu
  · intro l n hrow hu
    simp only [List.mem_cons, Prod.mk.injEq, List.not_mem_nil, or_false] at hrow
    obtain ⟨rfl, rfl⟩ | ⟨rfl, rfl⟩ := hrow <;> exact exec_swbackup hu
  · intro l n hrow hu
    simp only [List.mem_cons, Prod.mk.injEq, List.not_mem_nil, or_false] at hrow
    obtain ⟨rfl, rfl⟩ | ⟨rfl, rfl⟩ := hrow <;> exact exec_swbackup hu
  · refine fun hu => ⟨backupRelease s, exec_swbackup hu, rfl, rfl, ?_⟩
    rw [exec_swbackup (l := .B20) rfl, backStep, backupResult_backupRelease]
  · intro hu hclk
    refine ⟨backupTest s, exec_swbackup hu, ?_, by simp [backupTest]⟩
    rw [backupTest, if_pos hclk, goto_ustep]
  · intro hu hphase
    rw [exec_swbackup hu, backStep, backupResult, if_neg hphase, finish_errOk]

/-- Settles O49: B14 writes both fields in one word, and the polls leave or stay by the sampled field. -/
theorem backupSelectAndPollSteps : Obligations.BackupSelectAndPollSteps := by
  refine fun s => ⟨fun hu hheld => ?_, fun l f v n hrow hu => ?_⟩
  · rw [exec_swbackup hu]
    refine writeFieldsTo_rewrites _ ?_ (by decide) rfl hheld
    simp only [List.mem_cons, List.not_mem_nil, or_false, forall_eq_or_imp, forall_eq]
    decide
  · rw [exec_swbackup hu]
    simp only [List.mem_cons, Prod.mk.injEq, List.not_mem_nil, or_false] at hrow
    obtain ⟨rfl, rfl, rfl, rfl⟩ | ⟨rfl, rfl, rfl, rfl⟩ := hrow <;>
      exact ⟨pollUntil_leaves _ _ _ s, pollUntil_stays _ _ _ s⟩

/-! ## INITERAY -/

/-- Inside INITERAY the command runs the µstep USTEP names. -/
theorem exec_initeray {l : ErayStep} (hu : s.ustep = .eray l) : exec .initeray s = erayStep l s := by
  rw [exec, execIniteray, hu]
  rfl

/-- From IDLE it starts at E1. -/
theorem exec_initeray_of_idle (hu : s.ustep = .idle) : exec .initeray s = erayStep .E1 s := by
  rw [exec, execIniteray, hu]
  rfl

theorem erayBypassClear_of_locked (h : s.elockok = true) :
    erayBypassClear s = writeFieldTo .erayVcobyp 0 (.eray .E10) s := if_pos h

theorem erayBypassClear_of_timeout (h : s.elockok = false) : erayBypassClear s = .next (goto (.eray .E10) s) :=
  if_neg (by simp [h])

theorem erayResult_eq (s : State) :
    erayResult s = { s with
      fail := !s.elockok, err := if s.elockok then 0 else 3, ustep := .idle, phase := .entry, busy := false } := by
  cases h : s.elockok <;> simp [erayResult, h, finish, setResult, errOk, errErayLockTimeout]

/-- Settles O51: each clause is one arm of `erayStep`; E9 writes only if the lock was seen. -/
theorem erayMicrosteps : Obligations.ErayMicrosteps := by
  refine fun s => ⟨?_, fun hu => ?_, fun l f v n hrow hu hheld => ?_, fun hu hok => ?_, exec_initeray, fun hu => ?_⟩
  · rintro (hu | hu)
    · exact exec_initeray hu
    · exact exec_initeray_of_idle hu
  · rw [exec_initeray hu]
    exact ⟨pollUntil_leaves _ _ _ s, pollUntil_stays _ _ _ s⟩
  · rw [exec_initeray hu]
    simp only [List.mem_cons, Prod.mk.injEq, List.not_mem_nil, or_false] at hrow
    obtain (⟨rfl, rfl, rfl, rfl⟩ | ⟨rfl, rfl, rfl, rfl⟩ | ⟨rfl, rfl, rfl, rfl⟩ | ⟨rfl, rfl, rfl, rfl⟩) |
      ⟨⟨rfl, rfl, rfl, rfl⟩, hok⟩ := hrow
    · exact writeFieldTo_rewrites _ (by decide) (toNat_ofBits_lt _) rfl hheld
    · exact writeFieldTo_rewrites _ (by decide) (toNat_ofBits_lt _) rfl hheld
    · exact writeFieldTo_rewrites _ (by decide) (toNat_ofBits_lt _) rfl hheld
    · exact writeFieldTo_rewrites _ (by decide) (by decide) rfl hheld
    · rw [erayStep, erayBypassClear_of_locked hok]
      exact writeFieldTo_rewrites _ (by decide) (by decide) rfl hheld
  · rw [exec_initeray hu, erayStep, erayBypassClear_of_timeout hok]
    rfl
  · rw [exec_initeray hu, erayStep, erayResult_eq]

/-! ## A pass of a bounded poll -/

section BoundedPoll

variable {r : Reg} {ok : Word → Bool} {budget : Nat} {record : Bool → State → State} {l : UStep}

theorem boundedPoll_of_ok (hok : ok (sfrValue s r) = true) :
    boundedPoll r ok budget record l s =
      .next (goto l (record true (setPollcnt (failedPolls s) (sfrRead r s)))) := if_pos hok

theorem boundedPoll_of_last (hok : ¬ ok (sfrValue s r) = true) (hlast : failedPolls s + 1 = budget) :
    boundedPoll r ok budget record l s =
      .next (goto l (record false (setPollcnt (failedPolls s + 1) (sfrRead r s)))) :=
  (if_neg hok).trans (if_pos hlast)

theorem boundedPoll_of_failed (hok : ¬ ok (sfrValue s r) = true) (hmore : failedPolls s + 1 ≠ budget) :
    boundedPoll r ok budget record l s =
      .next (setPhase .looping (setPollcnt (failedPolls s + 1) (sfrRead r s))) :=
  (if_neg hok).trans (if_neg hmore)

end BoundedPoll

/-- The flag tested in the sampled word is the field as it reads. -/
theorem erayLocked_iff (s : State) : erayLocked (sfrValue s .plleraystat) = true ↔ fieldValue s .erayVcolock = 1 :=
  decide_eq_true_iff

/-- Settles O52: the three ways a pass of a bounded poll can end. -/
theorem erayBoundedLockPoll : Obligations.ErayBoundedLockPoll := by
  intro s hu
  rw [exec_initeray hu, erayStep, erayLockPoll]
  refine ⟨fun hlock => ?_, fun hlock hlast => ?_, fun hlock hmore => ?_⟩
  · rw [boundedPoll_of_ok ((erayLocked_iff s).mpr hlock)]
    rfl
  · rw [boundedPoll_of_last (fun h => hlock ((erayLocked_iff s).mp h)) hlast]
    rfl
  · rw [boundedPoll_of_failed (fun h => hlock ((erayLocked_iff s).mp h)) hmore]
    rfl

end Sys2Proof.Machine
end

section
/-! Runs of one command by the sequencer alone: how they are put together, what a write of listed fields leaves to read in every
field when the environment does not move, and a wait of no tick. -/

namespace Sys2Proof.Machine

variable {i : Instr} {m n : Nat} {s t u : State}

/-! ## Runs -/

theorem runCommand_of_exec (hstep : exec i s = .next t) (hrun : runCommand n i t = .next u) :
    runCommand (n + 1) i s = .next u := by
  rw [runCommand, hstep]
  exact hrun

theorem runCommand_trans (hfirst : runCommand m i s = .next t) (hthen : runCommand n i t = .next u) :
    runCommand (m + n) i s = .next u := by
  induction m generalizing s with
  | zero =>
    cases hfirst
    rwa [Nat.zero_add]
  | succ m ih =>
    rw [runCommand] at hfirst
    rw [Nat.add_right_comm]
    split at hfirst
    next hstep => exact runCommand_of_exec hstep (ih hfirst)
    next => cases hfirst
    next => cases hfirst

/-! ## A write of listed fields -/

/-- The state after a write of the listed fields of a register. -/
def fieldsWritten (r : Reg) (fs : List (Field × Word)) (s : State) : State :=
  sfrStore r (setFields (sfrValue s r) fs) (midway (sfrRead r s))

/-- The state after a write of one field. -/
abbrev fieldWritten (f : Field) (v : Word) (s : State) : State := fieldsWritten (fieldReg f) [(f, v)] s

theorem writeFieldsTo_eq_next {r : Reg} (fs : List (Field × Word)) (l : UStep) (hdomain : regDomain r = some .safety)
    (hheld : s.heldSafety = true) : writeFieldsTo r fs l s = .next (goto l (fieldsWritten r fs s)) :=
  writeFieldsTo_of_held r fs l s .safety hdomain hheld

theorem writeFieldTo_eq_next (f : Field) (v : Word) (l : UStep) (hdomain : regDomain (fieldReg f) = some .safety)
    (hheld : s.heldSafety = true) : writeFieldTo f v l s = .next (goto l (fieldWritten f v s)) :=
  writeFieldsTo_eq_next [(f, v)] l hdomain hheld

section Written

variable {r : Reg} {fs : List (Field × Word)}

/-- It leaves everything but the external state, the announced change and the record. -/
theorem fieldsWritten_frame (r : Reg) (fs : List (Field × Word)) (s : State) :
    fieldsWritten r fs s =
      { s with ext := (fieldsWritten r fs s).ext, between := none, port := (fieldsWritten r fs s).port } := rfl

@[simp] theorem fieldsWritten_heldCpu : (fieldsWritten r fs s).heldCpu = s.heldCpu := by
  rw [fieldsWritten_frame]

@[simp] theorem fieldsWritten_heldSafety : (fieldsWritten r fs s).heldSafety = s.heldSafety := by
  rw [fieldsWritten_frame]

@[simp] theorem fieldsWritten_savedTrap : (fieldsWritten r fs s).savedTrap = s.savedTrap := by
  rw [fieldsWritten_frame]

@[simp] theorem fieldsWritten_seq : (fieldsWritten r fs s).seq = s.seq := by
  rw [fieldsWritten_frame]

@[simp] theorem fieldsWritten_loopi : (fieldsWritten r fs s).loopi = s.loopi := by
  rw [fieldsWritten_frame]

@[simp] theorem fieldsWritten_cfg : (fieldsWritten r fs s).cfg = s.cfg := by
  rw [fieldsWritten_frame]

@[simp] theorem fieldsWritten_ecfg : (fieldsWritten r fs s).ecfg = s.ecfg := by
  rw [fieldsWritten_frame]

@[simp] theorem fieldsWritten_res : (fieldsWritten r fs s).res = s.res := by
  rw [fieldsWritten_frame]

@[simp] theorem fieldsWritten_between : (fieldsWritten r fs s).between = none := by
  rw [fieldsWritten_frame]

theorem fieldsWritten_timerFreq (hnone : s.between = none) :
    (fieldsWritten r fs s).ext.timerFreq = s.ext.timerFreq := by
  rw [fieldsWritten, midway_of_none (sfrRead r s) hnone]
  rfl

@[simp] theorem fieldsWritten_port :
    (fieldsWritten r fs s).port =
      .write r (setFields (sfrValue s r) fs) :: .read r (sfrValue s r) :: s.port := rfl

/-- With no change announced, a register but the written one reads as before. -/
theorem sfrValue_fieldsWritten_other (hnone : s.between = none) {q : Reg} (hq : q ≠ r) :
    sfrValue (fieldsWritten r fs s) q = sfrValue s q := by
  rw [fieldsWritten, sfrValue_sfrStore_other _ _ _ _ hq, midway_of_none (sfrRead r s) hnone, sfrValue_sfrRead]

/-- With no change announced, a field that is not listed reads as before, in the written register too. -/
theorem fieldValue_fieldsWritten_other (hnone : s.between = none) {g : Field} (hg : g ∉ fs.map Prod.fst)
    (hreg : ∀ q ∈ fs, fieldReg q.1 = r) : fieldValue (fieldsWritten r fs s) g = fieldValue s g := by
  rw [fieldsWritten, midway_of_none (sfrRead r s) hnone, fieldValue_sfrStore]
  split
  next hin =>
    obtain ⟨rfl, _⟩ := hin
    rw [getField_setFields_other fs _ g hreg hg]
    rfl
  next => rw [fieldValue_sfrRead]

/-- The first field listed reads back as written, if it is rw and not listed again. -/
theorem fieldValue_fieldsWritten_head {f : Field} {v : Word} (hreg : ∀ q ∈ (f, v) :: fs, fieldReg q.1 = r)
    (hrw : fieldClass f = .rw) (hf : f ∉ fs.map Prod.fst) (hfits : v.toNat < 2 ^ (Config.layout f).width) :
    fieldValue (fieldsWritten r ((f, v) :: fs) s) f = v := by
  obtain ⟨hr, hrest⟩ := List.forall_mem_cons.mp hreg
  rw [fieldsWritten, fieldValue_sfrStore, if_pos ⟨hr, hrw⟩, setFields_cons,
    getField_setFields_other fs _ f (fun q hq => (hrest q hq).trans hr.symm) hf, getField_setField_same,
    and_lowMask_of_lt v _ hfits]

theorem fieldValue_fieldWritten_other (hnone : s.between = none) {f g : Field} {v : Word} (hg : g ≠ f) :
    fieldValue (fieldWritten f v s) g = fieldValue s g :=
  fieldValue_fieldsWritten_other hnone (by simpa using hg) (by simp)

theorem fieldValue_fieldWritten_same {f : Field} {v : Word} (hrw : fieldClass f = .rw)
    (hfits : v.toNat < 2 ^ (Config.layout f).width) : fieldValue (fieldWritten f v s) f = v :=
  fieldValue_fieldsWritten_head (by simp) hrw (by simp) hfits

end Written

/-! ## A wait of no tick -/

/-- The state in which a wait of no tick leaves, at the second of its µsteps. -/
def waitPassed (q : Q) (l : UStep) (s : State) : State := goto l (emit (.timer s.ext.timer) (waitStart q s))

/-- Whether a wait has no tick depends on the timer's frequency alone. -/
theorem noWait_congr {q : Q} (hwait : NoWait s q) (hfreq : t.ext.timerFreq = s.ext.timerFreq) : NoWait t q := by
  rwa [NoWait, hfreq]

theorem wait_of_entry (q : Q) (l : UStep) (hphase : s.phase ≠ .looping) : wait q l s = waitStart q s := if_neg hphase

theorem wait_waitStart (q : Q) (l : UStep) (hwait : NoWait s q) : wait q l (waitStart q s) = waitPassed q l s := by
  have htarget : (waitStart q s).wtarget = 0 := hwait
  have hphase : (waitStart q s).phase = .looping := rfl
  rw [wait, if_pos hphase, waitSample, if_pos (by simp [htarget])]
  rfl

/-- The two µsteps of a wait of no tick; the wait may depend on the banks and the ramp index. -/
theorem runCommand_wait (q : Q) (l : UStep)
    (hstep : ∀ v : State, v.ustep = s.ustep → v.cfg = s.cfg → v.ecfg = s.ecfg → v.loopi = s.loopi →
      exec i v = .next (wait q l v))
    (hphase : s.phase ≠ .looping) (hwait : NoWait s q) : runCommand 2 i s = .next (waitPassed q l s) := by
  have hstart : exec i s = .next (waitStart q s) := by
    rw [hstep s rfl rfl rfl rfl, wait_of_entry q l hphase]
  have hleave : exec i (waitStart q s) = .next (waitPassed q l s) := by
    rw [hstep (waitStart q s) rfl rfl rfl rfl, wait_waitStart q l hwait]
  exact runCommand_of_exec hstart (runCommand_of_exec hleave rfl)

/-- It leaves everything but the wait's registers, the place and the record. -/
theorem waitPassed_frame (q : Q) (l : UStep) (s : State) :
    waitPassed q l s = { s with
      wtarget := Config.tickRound (q.mul (Q.ofPos s.ext.timerFreq)), wstart := s.ext.timer, ustep := l, phase := .entry,
      port := .timer s.ext.timer :: .timer s.ext.timer :: .timerFreq s.ext.timerFreq :: s.port } := by
  simp only [waitPassed, waitStart, goto, emit]

section WaitPassed

variable (q : Q) (l : UStep) (s : State)

@[simp] theorem waitPassed_ustep : (waitPassed q l s).ustep = l := by
  rw [waitPassed_frame]

@[simp] theorem waitPassed_heldCpu : (waitPassed q l s).heldCpu = s.heldCpu := by
  rw [waitPassed_frame]

@[simp] theorem waitPassed_heldSafety : (waitPassed q l s).heldSafety = s.heldSafety := by
  rw [waitPassed_frame]

@[simp] theorem waitPassed_between : (waitPassed q l s).between = s.between := by
  rw [waitPassed_frame]

@[simp] theorem waitPassed_seq : (waitPassed q l s).seq = s.seq := by
  rw [waitPassed_frame]

@[simp] theorem waitPassed_loopi : (waitPassed q l s).loopi = s.loopi := by
  rw [waitPassed_frame]

@[simp] theorem waitPassed_cfg : (waitPassed q l s).cfg = s.cfg := by
  rw [waitPassed_frame]

@[simp] theorem waitPassed_ecfg : (waitPassed q l s).ecfg = s.ecfg := by
  rw [waitPassed_frame]

@[simp] theorem waitPassed_res : (waitPassed q l s).res = s.res := by
  rw [waitPassed_frame]

@[simp] theorem waitPassed_ext : (waitPassed q l s).ext = s.ext := by
  rw [waitPassed_frame]

@[simp] theorem waitPassed_phase : (waitPassed q l s).phase = .entry := by
  rw [waitPassed_frame]

@[simp] theorem waitPassed_port : (waitPassed q l s).port =
    .timer s.ext.timer :: .timer s.ext.timer :: .timerFreq s.ext.timerFreq :: s.port := by
  rw [waitPassed_frame]

@[simp] theorem sfrValue_waitPassed (r : Reg) : sfrValue (waitPassed q l s) r = sfrValue s r :=
  sfrValue_congr _ _ (by simp) r

@[simp] theorem fieldValue_waitPassed (f : Field) : fieldValue (waitPassed q l s) f = fieldValue s f :=
  fieldValue_congr _ _ (by simp) f

end WaitPassed

end Sys2Proof.Machine
end

section
/-! INITERAY as a whole (42_sequencer_backup_eray R225 to R236): the eight µsteps to its lock poll, and its two ends. The states are
written as the operations they come from; the lemmas say what each leaves to read. -/

namespace Sys2Proof.Machine

variable {s t u : State}

/-- What INITERAY leaves alone besides the registers. -/
structure ErayKept (s t : State) : Prop where
  heldCpu : t.heldCpu = s.heldCpu
  seq     : t.seq = s.seq
  cfg     : t.cfg = s.cfg
  ecfg    : t.ecfg = s.ecfg
  res     : t.res = s.res

theorem ErayKept.trans (h : ErayKept s t) (h' : ErayKept t u) : ErayKept s u :=
  ⟨h'.heldCpu.trans h.heldCpu, h'.seq.trans h.seq, h'.cfg.trans h.cfg, h'.ecfg.trans h.ecfg, h'.res.trans h.res⟩

/-- The state after E6. -/
def erayLoaded (s : State) : State :=
  goto (.eray .E7) <| fieldWritten .erayResld 1 <|
  goto (.eray .E6) <| fieldWritten .erayNdiv (ofBits s.ecfg.n) <|
  goto (.eray .E5) <| fieldWritten .erayPdiv (ofBits s.ecfg.p) <|
  goto (.eray .E4) <| fieldWritten .erayK2div (ofBits s.ecfg.k2) <|
  goto (.eray .E3) <| sfrRead .plleraystat <| goto (.eray .E2) <| acquire .safety s

theorem runCommand_erayLoaded (hidle : s.ustep = .idle) (hready : fieldValue s .erayK2rdy = 1) :
    runCommand 6 .initeray s = .next (erayLoaded s) :=
  runCommand_of_exec (exec_initeray_of_idle hidle) <|
  runCommand_of_exec ((exec_initeray (l := .E2) rfl).trans (pollUntil_leaves _ _ _ _ (by simpa using hready))) <|
  runCommand_of_exec ((exec_initeray (l := .E3) rfl).trans (writeFieldTo_eq_next _ _ _ rfl (by simp))) <|
  runCommand_of_exec ((exec_initeray (l := .E4) rfl).trans (writeFieldTo_eq_next _ _ _ rfl (by simp))) <|
  runCommand_of_exec ((exec_initeray (l := .E5) rfl).trans (writeFieldTo_eq_next _ _ _ rfl (by simp))) <|
  runCommand_of_exec ((exec_initeray (l := .E6) rfl).trans (writeFieldTo_eq_next _ _ _ rfl (by simp))) rfl


theorem sfrValue_erayLoaded_other (hnone : s.between = none) {q : Reg} (h0 : q ≠ .plleraycon0)
    (h1 : q ≠ .plleraycon1) : sfrValue (erayLoaded s) q = sfrValue s q := by
  have hcon0 : q ≠ fieldReg .erayPdiv ∧ q ≠ fieldReg .erayNdiv ∧ q ≠ fieldReg .erayResld := ⟨h0, h0, h0⟩
  have hcon1 : q ≠ fieldReg .erayK2div := h1
  simp [erayLoaded, sfrValue_fieldsWritten_other, hnone, hcon0, hcon1]

theorem fieldValue_erayLoaded_other (hnone : s.between = none) {g : Field}
    (hg : g ∉ [Field.erayPdiv, .erayNdiv, .erayK2div, .erayResld]) :
    fieldValue (erayLoaded s) g = fieldValue s g := by
  simp only [List.mem_cons, List.not_mem_nil, or_false, not_or] at hg
  simp [erayLoaded, fieldValue_fieldWritten_other, hnone, hg]

theorem fieldValue_erayLoaded_pdiv (s : State) : fieldValue (erayLoaded s) .erayPdiv = ofBits s.ecfg.p := by
  have hwritten := fun u => fieldValue_fieldWritten_same (s := u) (f := .erayPdiv) rfl (toNat_ofBits_lt s.ecfg.p)
  simp [erayLoaded, fieldValue_fieldWritten_other, hwritten]

theorem fieldValue_erayLoaded_ndiv (s : State) : fieldValue (erayLoaded s) .erayNdiv = ofBits s.ecfg.n := by
  have hwritten := fun u => fieldValue_fieldWritten_same (s := u) (f := .erayNdiv) rfl (toNat_ofBits_lt s.ecfg.n)
  simp [erayLoaded, fieldValue_fieldWritten_other, hwritten]

theorem fieldValue_erayLoaded_k2div (s : State) : fieldValue (erayLoaded s) .erayK2div = ofBits s.ecfg.k2 := by
  have hwritten := fun u => fieldValue_fieldWritten_same (s := u) (f := .erayK2div) rfl (toNat_ofBits_lt s.ecfg.k2)
  simp [erayLoaded, fieldValue_fieldWritten_other, hwritten]

theorem portWrites_erayLoaded (s : State) :
    portWrites (erayLoaded s).port =
      [.plleraycon0, .plleraycon0, .plleraycon0, .plleraycon1] ++ portWrites s.port := by
  simp [erayLoaded, portWrites, fieldReg, Config.layout]

theorem acquisitions_erayLoaded (s : State) :
    acquisitions .safety (erayLoaded s).port = acquisitions .safety s.port + 1 := by
  simp [erayLoaded, acquisitions]

/-- The state at the first pass of the lock poll. -/
def erayPolling (s : State) : State := waitPassed s.ecfg.wait (.eray .E8) (erayLoaded s)

theorem runCommand_erayPolling (hnone : s.between = none) (hidle : s.ustep = .idle) (hready : fieldValue s .erayK2rdy = 1)
    (hwait : NoWait s s.ecfg.wait) : runCommand 8 .initeray s = .next (erayPolling s) := by
  have hwaiting : runCommand 2 .initeray (erayLoaded s) = .next (erayPolling s) := by
    refine runCommand_wait s.ecfg.wait (.eray .E8) (fun v hu _ hecfg _ => ?_) nofun
      (noWait_congr hwait ?_)
    · have hbank : v.ecfg = s.ecfg := by simp [hecfg, erayLoaded]
      rw [exec_initeray (l := .E7) (by simp [hu, erayLoaded]), erayStep, hbank]
    · simp [erayLoaded, fieldsWritten_timerFreq, hnone]
  exact runCommand_trans (runCommand_erayLoaded hidle hready) hwaiting

theorem erayPolling_ustep (s : State) : (erayPolling s).ustep = .eray .E8 := by simp [erayPolling]

theorem erayPolling_between (s : State) : (erayPolling s).between = none := by simp [erayPolling, erayLoaded]

theorem erayPolling_heldSafety (s : State) : (erayPolling s).heldSafety = true := by simp [erayPolling, erayLoaded]

theorem erayKept_erayPolling (s : State) : ErayKept s (erayPolling s) := by
  constructor <;> simp [erayPolling, erayLoaded]

theorem fieldValue_erayPolling_other (hnone : s.between = none) {g : Field}
    (hg : g ∉ [Field.erayPdiv, .erayNdiv, .erayK2div, .erayResld]) :
    fieldValue (erayPolling s) g = fieldValue s g := by
  rw [erayPolling, fieldValue_waitPassed, fieldValue_erayLoaded_other hnone hg]

theorem portWrites_erayPolling (s : State) :
    portWrites (erayPolling s).port =
      [.plleraycon0, .plleraycon0, .plleraycon0, .plleraycon1] ++ portWrites s.port := by
  rw [← portWrites_erayLoaded, erayPolling, waitPassed_port]
  rfl

theorem acquisitions_erayPolling (s : State) :
    acquisitions .safety (erayPolling s).port = acquisitions .safety s.port + 1 := by
  rw [← acquisitions_erayLoaded, erayPolling, waitPassed_port]
  rfl

/-! ## The lock is seen -/

/-- The end of INITERAY from a pass of the lock poll that sees the lock. -/
def erayBypassCleared (s : State) : State :=
  finish errOk <| goto (.eray .E11) <| release .safety <| goto (.eray .E10) <| fieldWritten .erayVcobyp 0 <|
  goto (.eray .E9) <| setElockok true <| setPollcnt (failedPolls s) <| sfrRead .plleraystat s

theorem runCommand_erayBypassCleared (hu : s.ustep = .eray .E8) (hheld : s.heldSafety = true)
    (hlock : fieldValue s .erayVcolock = 1) : runCommand 4 .initeray s = .next (erayBypassCleared s) :=
  runCommand_of_exec ((exec_initeray hu).trans (boundedPoll_of_ok ((erayLocked_iff s).mpr hlock))) <|
  runCommand_of_exec ((exec_initeray (l := .E9) rfl).trans
    ((erayBypassClear_of_locked rfl).trans (writeFieldTo_eq_next _ _ _ rfl (by simp [setPollcnt, hheld])))) <|
  runCommand_of_exec (exec_initeray (l := .E10) rfl) <|
  runCommand_of_exec (exec_initeray (l := .E11) rfl) rfl

theorem erayKept_erayBypassCleared (s : State) : ErayKept s (erayBypassCleared s) := by
  constructor <;> simp [erayBypassCleared]

theorem fieldValue_erayBypassCleared_erayVcobyp (s : State) : fieldValue (erayBypassCleared s) .erayVcobyp = 0 := by
  simp only [erayBypassCleared, fieldValue_finish, fieldValue_goto, fieldValue_release]
  exact fieldValue_fieldWritten_same rfl (by decide)

theorem fieldValue_erayBypassCleared_other (hnone : s.between = none) {g : Field} (hg : g ≠ .erayVcobyp) :
    fieldValue (erayBypassCleared s) g = fieldValue s g := by
  simp [erayBypassCleared, fieldValue_fieldWritten_other, hnone, hg]

theorem sfrValue_erayBypassCleared_other (hnone : s.between = none) {q : Reg} (hq : q ≠ .plleraycon0) :
    sfrValue (erayBypassCleared s) q = sfrValue s q := by
  have hcon0 : q ≠ fieldReg .erayVcobyp := hq
  simp [erayBypassCleared, sfrValue_fieldsWritten_other, hnone, hcon0]

theorem portWrites_erayBypassCleared (s : State) :
    portWrites (erayBypassCleared s).port = .plleraycon0 :: portWrites s.port := by
  simp [erayBypassCleared, portWrites, fieldReg, Config.layout]

theorem acquisitions_erayBypassCleared (s : State) :
    acquisitions .safety (erayBypassCleared s).port = acquisitions .safety s.port := by
  simp [erayBypassCleared, acquisitions]

/-- Settles O53: eight µsteps to the poll, four from the pass that sees the lock. -/
theorem erayLocksAndClearsTheBypass : Obligations.ErayLocksAndClearsTheBypass := by
  intro s hidle hfree hnone hready hlock hwait
  have hpoll := runCommand_erayPolling hnone hidle hready hwait
  have hlocked : fieldValue (erayPolling s) .erayVcolock = 1 := by
    rw [fieldValue_erayPolling_other hnone (by decide), hlock]
  have hend := runCommand_erayBypassCleared (erayPolling_ustep s) (erayPolling_heldSafety s) hlocked
  have hafter := fun g hg => fieldValue_erayBypassCleared_other (erayPolling_between s) (g := g) hg
  obtain ⟨hcpu, hseq, hcfg, hecfg, hres⟩ := (erayKept_erayPolling s).trans (erayKept_erayBypassCleared _)
  refine ⟨erayBypassCleared (erayPolling s), runCommand_trans hpoll hend, rfl, rfl, rfl, rfl,
    ⟨hcpu.trans hfree.1, rfl⟩, ?_, ?_, ?_, fieldValue_erayBypassCleared_erayVcobyp _, fun q h0 h1 => ?_, ?_, ?_,
    hseq, hcfg, hecfg, hres⟩
  · rw [hafter _ (by decide), erayPolling, fieldValue_waitPassed, fieldValue_erayLoaded_pdiv]
    rfl
  · rw [hafter _ (by decide), erayPolling, fieldValue_waitPassed, fieldValue_erayLoaded_ndiv]
    rfl
  · rw [hafter _ (by decide), erayPolling, fieldValue_waitPassed, fieldValue_erayLoaded_k2div]
    rfl
  · rw [sfrValue_erayBypassCleared_other (erayPolling_between s) h0, erayPolling, sfrValue_waitPassed,
      sfrValue_erayLoaded_other hnone h0 h1]
  · rw [portWrites_erayBypassCleared, portWrites_erayPolling]
    rfl
  · rw [acquisitions_erayBypassCleared, acquisitions_erayPolling]

/-! ## The lock is never seen -/

/-- The state after a pass of the lock poll that fails and is not the last. -/
def erayMissed (s : State) : State := setPhase .looping <| setPollcnt (failedPolls s + 1) <| sfrRead .plleraystat s

theorem failedPolls_erayMissed (s : State) : failedPolls (erayMissed s) = failedPolls s + 1 := by
  rw [failedPolls, erayMissed]
  simp [setPollcnt, setPhase]

/-- The state after `k` failed passes of the lock poll the last of which has spent the budget. -/
def erayGivenUp (k : Nat) (s : State) : State :=
  { s with
    elockok := false, pollcnt := Config.erayLockBudget, ustep := .eray .E9, phase := .entry,
    port := List.replicate k (.read .plleraystat (sfrValue s .plleraystat)) ++ s.port }

/-- All the passes of the lock poll that are left, each failing: the last one ends the poll. -/
theorem runCommand_erayBudgetSpent (k : Nat) (hu : s.ustep = .eray .E8) (hlock : fieldValue s .erayVcolock ≠ 1)
    (hleft : failedPolls s + (k + 1) = Config.erayLockBudget) :
    runCommand (k + 1) .initeray s = .next (erayGivenUp (k + 1) s) := by
  have hmiss : ¬ erayLocked (sfrValue s .plleraystat) = true := fun h => hlock ((erayLocked_iff s).mp h)
  induction k generalizing s with
  | zero =>
    refine runCommand_of_exec ((exec_initeray hu).trans (boundedPoll_of_last hmiss hleft)) ?_
    rw [erayGivenUp, hleft]
    rfl
  | succ k ih =>
    have hmore : failedPolls s + 1 ≠ Config.erayLockBudget := by omega
    have hpass : exec .initeray s = .next (erayMissed s) :=
      (exec_initeray hu).trans (boundedPoll_of_failed hmiss hmore)
    have hleft' : failedPolls (erayMissed s) + (k + 1) = Config.erayLockBudget := by
      rw [failedPolls_erayMissed]; omega
    have hrest := ih (s := erayMissed s) hu hlock hleft' hmiss
    refine runCommand_of_exec hpass (hrest.trans ?_)
    rw [erayGivenUp, erayGivenUp, List.replicate_succ' (n := k + 1), List.append_assoc]
    rfl

/-- The end of INITERAY after a lock poll that has given up. -/
def erayTimedOut (s : State) : State :=
  finish errErayLockTimeout <| goto (.eray .E11) <| release .safety <| goto (.eray .E10) s

theorem runCommand_erayTimedOut (hu : s.ustep = .eray .E9) (hok : s.elockok = false) :
    runCommand 3 .initeray s = .next (erayTimedOut s) := by
  have hresult : exec .initeray (goto (.eray .E11) (release .safety (goto (.eray .E10) s))) = .next (erayTimedOut s) := by
    rw [exec_initeray (l := .E11) rfl, erayStep, erayResult]
    simp [hok, erayTimedOut]
  exact runCommand_of_exec ((exec_initeray hu).trans (erayBypassClear_of_timeout hok)) <|
    runCommand_of_exec (exec_initeray (l := .E10) rfl) <| runCommand_of_exec hresult rfl

/-- Reads of a register are no writes. -/
theorem portWrites_replicate_read (k : Nat) (r : Reg) (w : Word) (l : List PortEvent) :
    portWrites (List.replicate k (.read r w) ++ l) = portWrites l := by
  simp [portWrites]

theorem erayKept_erayTimedOut (k : Nat) (s : State) : ErayKept s (erayTimedOut (erayGivenUp k s)) := by
  constructor <;> simp [erayTimedOut, erayGivenUp]

theorem fieldValue_erayTimedOut (k : Nat) (s : State) (f : Field) :
    fieldValue (erayTimedOut (erayGivenUp k s)) f = fieldValue s f :=
  fieldValue_congr _ _ (by simp [erayTimedOut, erayGivenUp]) f

theorem portWrites_erayTimedOut (k : Nat) (s : State) :
    portWrites (erayTimedOut (erayGivenUp k s)).port = portWrites s.port :=
  portWrites_replicate_read k .plleraystat (sfrValue s .plleraystat) s.port

/-- Settles O54: eight µsteps to the poll, the budget's passes, three µsteps to the end. -/
theorem erayTimesOutAfterItsBudget : Obligations.ErayTimesOutAfterItsBudget := by
  intro s hidle hfree hnone hready hlock hwait
  have hpoll := runCommand_erayPolling hnone hidle hready hwait
  have hunlocked : fieldValue (erayPolling s) .erayVcolock ≠ 1 := by
    rwa [fieldValue_erayPolling_other hnone (by decide)]
  have hfirst : failedPolls (erayPolling s) + (Config.erayLockBudgetLessOne + 1) = Config.erayLockBudget := by
    simp [failedPolls, erayPolling, Config.erayLockBudget]
  have hspent := runCommand_erayBudgetSpent _ (erayPolling_ustep s) hunlocked hfirst
  have hend := runCommand_erayTimedOut (s := erayGivenUp (Config.erayLockBudgetLessOne + 1) (erayPolling s)) rfl rfl
  have hcount : 11 + Config.erayLockBudget = 8 + (Config.erayLockBudgetLessOne + 1 + 3) := by
    rw [Config.erayLockBudget]; omega
  obtain ⟨hcpu, hseq, hcfg, hecfg, hres⟩ := (erayKept_erayPolling s).trans (erayKept_erayTimedOut _ _)
  rw [hcount]
  refine ⟨_, runCommand_trans hpoll (runCommand_trans hspent hend), rfl, rfl, rfl, rfl, ⟨hcpu.trans hfree.1, rfl⟩,
    rfl, ?_, ?_, hseq, hcfg, hecfg, hres⟩
  · rw [fieldValue_erayTimedOut, fieldValue_erayPolling_other hnone (by decide)]
  · rw [portWrites_erayTimedOut, portWrites_erayPolling]

end Sys2Proof.Machine
end

section
/-! SWBACKUP as a whole (42_sequencer_backup_eray R200 to R222): its entry, one pass of the ramp down, all passes by induction on
the ramp index, and the fall back to the backup clock. The states are written as the operations they come from. -/

namespace Sys2Proof.Machine

variable {s t u : State}

/-- What SWBACKUP leaves alone besides the registers. -/
structure BackupKept (s t : State) : Prop where
  heldCpu : t.heldCpu = s.heldCpu
  cfg     : t.cfg = s.cfg
  ecfg    : t.ecfg = s.ecfg
  res     : t.res = s.res

theorem BackupKept.trans (h : BackupKept s t) (h' : BackupKept t u) : BackupKept s u :=
  ⟨h'.heldCpu.trans h.heldCpu, h'.cfg.trans h.cfg, h'.ecfg.trans h.ecfg, h'.res.trans h.res⟩

/-- The parts of the record the statement counts: what `t` has recorded since `s`. -/
structure Recorded (writes : List Reg) (k2s : List Word) (locks : Nat) (s t : State) : Prop where
  writes : portWrites t.port = writes ++ portWrites s.port
  k2s    : k2Writes t.port = k2s ++ k2Writes s.port
  hooks  : hookCalls t.port = hookCalls s.port
  safety : acquisitions .safety t.port = acquisitions .safety s.port + locks
  cpu    : acquisitions .cpu t.port = acquisitions .cpu s.port

theorem Recorded.trans {ws ws' : List Reg} {ks ks' : List Word} {n n' : Nat} (h : Recorded ws ks n s t)
    (h' : Recorded ws' ks' n' t u) : Recorded (ws' ++ ws) (ks' ++ ks) (n + n') s u where
  writes := by rw [h'.writes, h.writes, List.append_assoc]
  k2s := by rw [h'.k2s, h.k2s, List.append_assoc]
  hooks := h'.hooks.trans h.hooks
  safety := by rw [h'.safety, h.safety, Nat.add_assoc]
  cpu := h'.cpu.trans h.cpu

/-! ## The entry -/

/-- The state after B1 and B2, off the backup clock. -/
def rampEntered (s : State) : State := backupRampStart <| goto (.back .B2) <| sfrRead .ccucon0 s

theorem runCommand_rampEntered (hidle : s.ustep = .idle) (hclk : fieldValue s .clksel ≠ Config.encBackup) :
    runCommand 2 .swbackup s = .next (rampEntered s) := by
  have htest : exec .swbackup s = .next (goto (.back .B2) (sfrRead .ccucon0 s)) := by
    rw [exec_swbackup_of_idle hidle, backStep, backupTest, if_neg hclk]
  exact runCommand_of_exec htest <| runCommand_of_exec (exec_swbackup (l := .B2) rfl) rfl

theorem recorded_rampEntered (s : State) : Recorded [] [] 0 s (rampEntered s) := by
  constructor <;> rfl

/-! ## One pass of the ramp down -/

/-- The state after B3 and B4. -/
def rampPolled (s : State) : State :=
  goto (.back .B5) <| sfrRead .pllstat <| goto (.back .B4) <| setSeqAt .steppingDown (s.loopi - 1) <| acquire .safety s

@[simp] theorem downStep_rampPolled (s : State) : downStep (rampPolled s) = downStep s := by simp [downStep, rampPolled]

/-- The state after B5 and B6, from B5. -/
def rampLowered (s : State) : State :=
  goto (.back .B7) <| release .safety <| goto (.back .B6) <| fieldWritten .k2div (ofBits (downStep s).k2) s

/-- The state after a whole pass, B3 to B8. -/
def rampPass (s : State) : State :=
  backupRampNext <| waitPassed (downStep s).wait (.back .B8) <| rampLowered <| rampPolled s

theorem runCommand_rampPolled (hu : s.ustep = .back .B3) (hready : fieldValue s .k2rdy = 1) :
    runCommand 2 .swbackup s = .next (rampPolled s) :=
  runCommand_of_exec (exec_swbackup hu) <|
  runCommand_of_exec ((exec_swbackup (l := .B4) rfl).trans (pollUntil_leaves _ _ _ _ (by simpa using hready))) rfl

theorem runCommand_rampLowered (hu : s.ustep = .back .B5) (hheld : s.heldSafety = true) :
    runCommand 2 .swbackup s = .next (rampLowered s) :=
  runCommand_of_exec ((exec_swbackup hu).trans (writeFieldTo_eq_next _ _ _ rfl hheld)) <|
  runCommand_of_exec (exec_swbackup (l := .B6) rfl) rfl

theorem runCommand_rampPass (hnone : s.between = none) (hu : s.ustep = .back .B3)
    (hready : fieldValue s .k2rdy = 1) (hwait : NoWait s (downStep s).wait) :
    runCommand 7 .swbackup s = .next (rampPass s) := by
  have hwaiting : runCommand 2 .swbackup (rampLowered (rampPolled s)) =
      .next (waitPassed (downStep s).wait (.back .B8) (rampLowered (rampPolled s))) := by
    refine runCommand_wait _ _ (fun v hu hcfg _ hloopi => ?_) nofun (noWait_congr hwait ?_)
    · have hstep : downStep v = downStep s := by simp [downStep, hcfg, hloopi, rampLowered, rampPolled]
      rw [exec_swbackup (l := .B7) (by simp [hu, rampLowered]), ← hstep]
      rfl
    · simp [rampLowered, rampPolled, fieldsWritten_timerFreq, hnone]
  have hnext : runCommand 1 .swbackup (waitPassed (downStep s).wait (.back .B8) (rampLowered (rampPolled s))) =
      .next (rampPass s) :=
    runCommand_of_exec (exec_swbackup (l := .B8) (by simp)) rfl
  have hlower := runCommand_rampLowered (s := rampPolled s) rfl rfl
  exact runCommand_trans (runCommand_rampPolled hu hready) (runCommand_trans hlower (runCommand_trans hwaiting hnext))

theorem rampPass_ustep (s : State) :
    (rampPass s).ustep = if s.loopi - 1 = 0 then .back .B9 else .back .B3 := by
  simp only [rampPass, rampLowered, rampPolled, backupRampNext, gt_iff_lt, Nat.pos_iff_ne_zero, ite_not]
  simp

theorem rampPass_loopi (s : State) : (rampPass s).loopi = s.loopi - 1 := by
  simp [rampPass, rampLowered, rampPolled, backupRampNext]

theorem rampPass_locks (s : State) : (rampPass s).heldSafety = false ∧ (rampPass s).between = none := by
  simp [rampPass, rampLowered, rampPolled, backupRampNext]

theorem backupKept_rampPass (s : State) : BackupKept s (rampPass s) := by
  constructor <;> simp [rampPass, rampLowered, rampPolled, backupRampNext]

theorem rampPass_timerFreq (hnone : s.between = none) : (rampPass s).ext.timerFreq = s.ext.timerFreq := by
  simp [rampPass, rampLowered, rampPolled, backupRampNext, fieldsWritten_timerFreq, hnone]

theorem fieldValue_rampPass_other (hnone : s.between = none) {g : Field} (hg : g ≠ .k2div) :
    fieldValue (rampPass s) g = fieldValue s g := by
  simp [rampPass, rampLowered, rampPolled, backupRampNext, fieldValue_fieldWritten_other, hnone, hg]

theorem fieldValue_rampPass_k2div (s : State) : fieldValue (rampPass s) .k2div = ofBits (downStep s).k2 := by
  simp only [rampPass, rampLowered, backupRampNext, fieldValue_goto, fieldValue_setLoopi, fieldValue_waitPassed,
    fieldValue_release, downStep_rampPolled]
  exact fieldValue_fieldWritten_same rfl (toNat_ofBits_lt _)

theorem sfrValue_rampPass_other (hnone : s.between = none) {q : Reg} (hq : q ≠ .pllcon1) :
    sfrValue (rampPass s) q = sfrValue s q := by
  have hcon1 : q ≠ fieldReg .k2div := hq
  simp [rampPass, rampLowered, rampPolled, backupRampNext, sfrValue_fieldsWritten_other, hnone, hcon1]

theorem recorded_rampLowered (s : State) : Recorded [.pllcon1] [ofBits (downStep s).k2] 0 s (rampLowered s) := by
  have hword (w : Word) : getField (setFields w [(.k2div, ofBits (downStep s).k2)]) .k2div = ofBits (downStep s).k2 :=
    (getField_setField_same w .k2div _).trans (and_lowMask_of_lt _ _ (toNat_ofBits_lt _))
  constructor <;>
    simp [rampLowered, portWrites, k2Writes, hookCalls, acquisitions, hword, fieldReg, Config.layout]

theorem recorded_rampPass (s : State) : Recorded [.pllcon1] [ofBits (downStep s).k2] 1 s (rampPass s) := by
  have hpoll : Recorded [] [] 1 s (rampPolled s) := by
    constructor <;> simp [rampPolled, portWrites, k2Writes, hookCalls, acquisitions]
  have hlower := recorded_rampLowered (rampPolled s)
  have hleave : Recorded [] [] 0 (rampLowered (rampPolled s)) (rampPass s) := by
    constructor <;> simp [rampPass, backupRampNext, portWrites, k2Writes, hookCalls, acquisitions]
  simpa using hpoll.trans (hlower.trans hleave)

/-! ## The whole ramp down -/

/-- What the ramp down from LOOPI = `n` has done when it comes to B9. -/
structure RampedDown (n : Nat) (s t : State) : Prop where
  ustep    : t.ustep = .back .B9
  safety   : t.heldSafety = false
  between  : t.between = none
  kept     : BackupKept s t
  k2div    : fieldValue t .k2div = if n = 0 then fieldValue s .k2div else ofBits (rampStep s.cfg 0).k2
  fields   : ∀ g, g ≠ .k2div → fieldValue t g = fieldValue s g
  regs     : ∀ q, q ≠ .pllcon1 → sfrValue t q = sfrValue s q
  recorded : Recorded (List.replicate n .pllcon1) ((List.range n).map fun i => ofBits (rampStep s.cfg i).k2) n s t

/-- With no step left nothing is done. -/
theorem rampedDown_zero (hu : s.ustep = .back .B9) (hfree : s.heldSafety = false) (hnone : s.between = none) :
    RampedDown 0 s s where
  ustep := hu
  safety := hfree
  between := hnone
  kept := by constructor <;> rfl
  k2div := rfl
  fields _ _ := rfl
  regs _ _ := rfl
  recorded := by constructor <;> rfl

/-- A pass, then the ramp down from the index below. -/
theorem rampedDown_succ {n : Nat} (hnone : s.between = none) (hloopi : s.loopi = n + 1)
    (h : RampedDown n (rampPass s) t) : RampedDown (n + 1) s t where
  ustep := h.ustep
  safety := h.safety
  between := h.between
  kept := (backupKept_rampPass s).trans h.kept
  k2div := by
    have hpass := fieldValue_rampPass_k2div s
    rw [downStep, hloopi] at hpass
    rw [h.k2div, hpass, (backupKept_rampPass s).cfg]
    cases n <;> rfl
  fields g hg := (h.fields g hg).trans (fieldValue_rampPass_other hnone hg)
  regs q hq := (h.regs q hq).trans (sfrValue_rampPass_other hnone hq)
  recorded := by
    have hpass := recorded_rampPass s
    rw [downStep, hloopi] at hpass
    have hrest := h.recorded
    rw [(backupKept_rampPass s).cfg] at hrest
    rw [List.replicate_succ', List.range_succ, List.map_append, Nat.add_comm n 1]
    exact hpass.trans hrest

/-- Every step of the ramp is passed, from LOOPI = NSTEPS downwards, by induction on the index. -/
theorem exists_rampedDown (n : Nat) (hloopi : s.loopi = n)
    (hu : s.ustep = if n = 0 then .back .B9 else .back .B3) (hfree : s.heldSafety = false) (hnone : s.between = none)
    (hready : fieldValue s .k2rdy = 1) (hwait : ∀ i, i < n → NoWait s (rampStep s.cfg i).wait) :
    ∃ t, runCommand (7 * n) .swbackup s = .next t ∧ RampedDown n s t := by
  induction n generalizing s with
  | zero => exact ⟨s, rfl, rampedDown_zero hu hfree hnone⟩
  | succ n ih =>
    have hstep : downStep s = rampStep s.cfg n := by rw [downStep, hloopi, Nat.add_sub_cancel]
    have hpass : runCommand 7 .swbackup s = .next (rampPass s) :=
      runCommand_rampPass hnone hu hready (hstep ▸ hwait n n.lt_succ_self)
    have hnext : (rampPass s).loopi = n := by rw [rampPass_loopi, hloopi, Nat.add_sub_cancel]
    obtain ⟨hfree', hnone'⟩ := rampPass_locks s
    obtain ⟨t, hrun, ht⟩ := ih hnext (by rw [rampPass_ustep, hloopi, Nat.add_sub_cancel]) hfree' hnone'
      ((fieldValue_rampPass_other hnone (by decide)).trans hready) fun i hi => by
        rw [(backupKept_rampPass s).cfg]
        exact noWait_congr (hwait i (hi.trans n.lt_succ_self)) (rampPass_timerFreq hnone)
    refine ⟨t, ?_, rampedDown_succ hnone hloopi ht⟩
    rw [Nat.mul_succ, Nat.add_comm]
    exact runCommand_trans hpass hrun

end Sys2Proof.Machine
end

section
/-! SWBACKUP from the end of its ramp (42_sequencer_backup_eray R209 to R222): the fall back to the backup clock in four parts,
what they leave to read, and the command as a whole. -/

namespace Sys2Proof.Machine

variable {s t u : State}

/-! ## The trap enable, saved and put back -/

theorem saveTrap_frame (l : UStep) (s : State) :
    saveTrap l s = { s with
      savedTrap := decide (fieldValue s .ulten = 1), ustep := l, phase := .entry,
      port := .read .trapctl (sfrValue s .trapctl) :: s.port } := by
  rfl

section SaveTrap

variable (l : UStep) (s : State)

@[simp] theorem saveTrap_savedTrap : (saveTrap l s).savedTrap = decide (fieldValue s .ulten = 1) := by
  rw [saveTrap_frame]

@[simp] theorem saveTrap_heldCpu : (saveTrap l s).heldCpu = s.heldCpu := by
  rw [saveTrap_frame]

@[simp] theorem saveTrap_cfg : (saveTrap l s).cfg = s.cfg := by
  rw [saveTrap_frame]

@[simp] theorem saveTrap_ecfg : (saveTrap l s).ecfg = s.ecfg := by
  rw [saveTrap_frame]

@[simp] theorem saveTrap_res : (saveTrap l s).res = s.res := by
  rw [saveTrap_frame]

@[simp] theorem saveTrap_ext : (saveTrap l s).ext = s.ext := by
  rw [saveTrap_frame]

@[simp] theorem saveTrap_between : (saveTrap l s).between = s.between := by
  rw [saveTrap_frame]

@[simp] theorem saveTrap_port : (saveTrap l s).port = .read .trapctl (sfrValue s .trapctl) :: s.port := by
  rw [saveTrap_frame]

@[simp] theorem sfrValue_saveTrap (r : Reg) : sfrValue (saveTrap l s) r = sfrValue s r :=
  sfrValue_congr _ _ (by simp) r

@[simp] theorem fieldValue_saveTrap (f : Field) : fieldValue (saveTrap l s) f = fieldValue s f :=
  fieldValue_congr _ _ (by simp) f

end SaveTrap

/-- The flag of a field of one bit is the field. -/
theorem ofFlag_fieldValue (s : State) {f : Field} (hwidth : (Config.layout f).width = 1) :
    ofFlag (decide (fieldValue s f = 1)) = fieldValue s f := by
  have hbit : (fieldValue s f).toNat < 2 := by
    rw [fieldValue, getField, hwidth, BitVec.toNat_and]
    exact (Nat.and_le_right).trans_lt (by decide)
  by_cases hone : fieldValue s f = 1
  · rw [hone]
    rfl
  · have hne : (fieldValue s f).toNat ≠ 1 := fun h => hone (BitVec.eq_of_toNat_eq h)
    have hzero : fieldValue s f = 0 := BitVec.eq_of_toNat_eq (by change _ = 0; omega)
    rw [hzero]
    rfl

/-! ## The fall back to the backup clock -/

/-- The state after B9 to B12: the trap enable is saved and cleared. -/
def trapCleared (s : State) : State :=
  goto (.back .B13) <| release .safety <| goto (.back .B12) <| fieldWritten .ulten 0 <|
  goto (.back .B11) <| acquire .safety <| saveTrap (.back .B10) s

/-- The state after B13 and B14: the backup clock is selected. -/
def backupSelected (s : State) : State :=
  goto (.back .B15) <| fieldsWritten .ccucon0 [(.clksel, Config.encBackup), (.up0, 1)] <|
  goto (.back .B14) <| acquire .safety s

/-- The state after B15 to B17: the PLL is disconnected. -/
def pllDisconnected (s : State) : State :=
  goto (.back .B18) <| fieldWritten .oscdiscdis 0 <| goto (.back .B17) <| fieldWritten .setfindis 1 <|
  goto (.back .B16) <| sfrRead .ccucon0 s

/-- The state after B18 to B20: the trap enable is as it was saved, and the command is over. -/
def backupDone (s : State) : State :=
  finish errOk <| setSeq .backupClock <| backupRelease <| goto (.back .B19) <| fieldWritten .ulten (ofFlag s.savedTrap) s

/-- The state after B9 to B20. -/
def fellBack (s : State) : State := backupDone <| pllDisconnected <| backupSelected <| trapCleared s

theorem runCommand_trapCleared (hu : s.ustep = .back .B9) : runCommand 4 .swbackup s = .next (trapCleared s) :=
  runCommand_of_exec (exec_swbackup hu) <|
  runCommand_of_exec (exec_swbackup (l := .B10) rfl) <|
  runCommand_of_exec ((exec_swbackup (l := .B11) rfl).trans (writeFieldTo_eq_next _ _ _ rfl rfl)) <|
  runCommand_of_exec (exec_swbackup (l := .B12) rfl) rfl

theorem runCommand_backupSelected (hu : s.ustep = .back .B13) :
    runCommand 2 .swbackup s = .next (backupSelected s) :=
  runCommand_of_exec (exec_swbackup hu) <|
  runCommand_of_exec ((exec_swbackup (l := .B14) rfl).trans (writeFieldsTo_eq_next _ _ rfl rfl)) rfl

theorem runCommand_pllDisconnected (hu : s.ustep = .back .B15) (hheld : s.heldSafety = true)
    (hready : fieldValue s .lck0 = 0) : runCommand 3 .swbackup s = .next (pllDisconnected s) :=
  runCommand_of_exec ((exec_swbackup hu).trans (pollUntil_leaves _ _ _ _ hready)) <|
  runCommand_of_exec ((exec_swbackup (l := .B16) rfl).trans (writeFieldTo_eq_next _ _ _ rfl hheld)) <|
  runCommand_of_exec ((exec_swbackup (l := .B17) rfl).trans (writeFieldTo_eq_next _ _ _ rfl (by simp [hheld]))) rfl

theorem runCommand_backupDone (hu : s.ustep = .back .B18) (hheld : s.heldSafety = true) :
    runCommand 3 .swbackup s = .next (backupDone s) :=
  runCommand_of_exec ((exec_swbackup hu).trans (writeFieldTo_eq_next _ _ _ rfl hheld)) <|
  runCommand_of_exec (exec_swbackup (l := .B19) rfl) <|
  runCommand_of_exec (exec_swbackup (l := .B20) rfl) rfl

/-! ### The fields after each part -/

@[simp] theorem trapCleared_between (s : State) : (trapCleared s).between = none := by simp [trapCleared]

@[simp] theorem backupSelected_between (s : State) : (backupSelected s).between = none := by simp [backupSelected]

@[simp] theorem pllDisconnected_between (s : State) : (pllDisconnected s).between = none := by simp [pllDisconnected]

theorem fieldValue_trapCleared_other (hnone : s.between = none) {g : Field} (hg : g ≠ .ulten) :
    fieldValue (trapCleared s) g = fieldValue s g := by
  simp [trapCleared, fieldValue_fieldWritten_other, hnone, hg]

/-- Both fields of the selection lie in CCUCON0. -/
theorem fieldReg_of_selection :
    ∀ q ∈ [(Field.clksel, Config.encBackup), (.up0, 1)], fieldReg q.1 = .ccucon0 := by
  decide

theorem fieldValue_backupSelected_other (hnone : s.between = none) {g : Field} (hg : g ∉ [Field.clksel, .up0]) :
    fieldValue (backupSelected s) g = fieldValue s g := by
  have hnone' : (goto (.back .B14) (acquire .safety s)).between = none := by simp [hnone]
  rw [backupSelected, fieldValue_goto, fieldValue_fieldsWritten_other hnone' hg fieldReg_of_selection, fieldValue_goto,
    fieldValue_acquire]

theorem fieldValue_backupSelected_clksel (s : State) : fieldValue (backupSelected s) .clksel = Config.encBackup := by
  rw [backupSelected, fieldValue_goto]
  exact fieldValue_fieldsWritten_head fieldReg_of_selection rfl (by decide) (by decide)

theorem fieldValue_pllDisconnected_other (hnone : s.between = none) {g : Field} (hset : g ≠ .setfindis)
    (hdisc : g ≠ .oscdiscdis) : fieldValue (pllDisconnected s) g = fieldValue s g := by
  simp [pllDisconnected, fieldValue_fieldWritten_other, hnone, hset, hdisc]

theorem fieldValue_pllDisconnected_oscdiscdis (s : State) : fieldValue (pllDisconnected s) .oscdiscdis = 0 := by
  rw [pllDisconnected, fieldValue_goto]
  exact fieldValue_fieldWritten_same rfl (by decide)

theorem fieldValue_backupDone_other (hnone : s.between = none) {g : Field} (hg : g ≠ .ulten) :
    fieldValue (backupDone s) g = fieldValue s g := by
  simp [backupDone, backupRelease, fieldValue_fieldWritten_other, hnone, hg]

theorem fieldValue_backupDone_ulten (s : State) : fieldValue (backupDone s) .ulten = ofFlag s.savedTrap := by
  simp only [backupDone, backupRelease, fieldValue_finish, fieldValue_setSeq, fieldValue_setPhase, fieldValue_goto,
    fieldValue_release]
  exact fieldValue_fieldWritten_same rfl (toNat_ofFlag_lt _)

/-! ### All that the fall back leaves -/

theorem fieldValue_fellBack_other (hnone : s.between = none) {g : Field}
    (hg : g ∉ [Field.ulten, .clksel, .up0, .setfindis, .oscdiscdis]) : fieldValue (fellBack s) g = fieldValue s g := by
  simp only [List.mem_cons, List.not_mem_nil, or_false, not_or] at hg
  obtain ⟨htrap, hclk, hup, hset, hdisc⟩ := hg
  rw [fellBack, fieldValue_backupDone_other (by simp) htrap, fieldValue_pllDisconnected_other (by simp) hset hdisc,
    fieldValue_backupSelected_other (by simp) (by simp [hclk, hup]), fieldValue_trapCleared_other hnone htrap]

theorem fieldValue_fellBack_clksel (s : State) : fieldValue (fellBack s) .clksel = Config.encBackup := by
  rw [fellBack, fieldValue_backupDone_other (by simp) (by decide),
    fieldValue_pllDisconnected_other (by simp) (by decide) (by decide), fieldValue_backupSelected_clksel]

theorem fieldValue_fellBack_oscdiscdis (s : State) : fieldValue (fellBack s) .oscdiscdis = 0 := by
  rw [fellBack, fieldValue_backupDone_other (by simp) (by decide), fieldValue_pllDisconnected_oscdiscdis]

/-- B18 writes what B9 has sampled. -/
theorem fieldValue_fellBack_ulten (s : State) : fieldValue (fellBack s) .ulten = fieldValue s .ulten := by
  have hsaved : (pllDisconnected (backupSelected (trapCleared s))).savedTrap = decide (fieldValue s .ulten = 1) := by
    simp [pllDisconnected, backupSelected, trapCleared]
  rw [fellBack, fieldValue_backupDone_ulten, hsaved, ofFlag_fieldValue s rfl]

theorem sfrValue_fellBack_other (hnone : s.between = none) {q : Reg} (h0 : q ≠ .ccucon0) (hp : q ≠ .pllcon0)
    (ht : q ≠ .trapctl) : sfrValue (fellBack s) q = sfrValue s q := by
  have hpll : q ≠ fieldReg .oscdiscdis ∧ q ≠ fieldReg .setfindis := ⟨hp, hp⟩
  have htrap : q ≠ fieldReg .ulten := ht
  simp [fellBack, backupDone, backupRelease, pllDisconnected, backupSelected, trapCleared, sfrValue_fieldsWritten_other,
    hnone, h0, hpll, htrap]

theorem backupKept_fellBack (s : State) : BackupKept s (fellBack s) := by
  constructor <;> simp [fellBack, backupDone, backupRelease, pllDisconnected, backupSelected, trapCleared]

theorem recorded_fellBack (s : State) :
    Recorded [.trapctl, .pllcon0, .pllcon0, .ccucon0, .trapctl] [] 2 s (fellBack s) := by
  constructor <;>
    simp [fellBack, backupDone, backupRelease, pllDisconnected, backupSelected, trapCleared, portWrites, k2Writes,
      hookCalls, acquisitions, fieldReg, Config.layout]

/-- B9 to B20, the lock-busy flag clear. -/
theorem runCommand_fellBack (hnone : s.between = none) (hu : s.ustep = .back .B9) (hready : fieldValue s .lck0 = 0) :
    runCommand 12 .swbackup s = .next (fellBack s) := by
  have hclear := runCommand_trapCleared hu
  have hselect := runCommand_backupSelected (s := trapCleared s) rfl
  have hready' : fieldValue (backupSelected (trapCleared s)) .lck0 = 0 := by
    rw [fieldValue_backupSelected_other (by simp) (by decide), fieldValue_trapCleared_other hnone (by decide), hready]
  have hdisconnect := runCommand_pllDisconnected rfl (by simp [backupSelected]) hready'
  have hdone := runCommand_backupDone (s := pllDisconnected (backupSelected (trapCleared s))) rfl
    (by simp [pllDisconnected, backupSelected])
  exact runCommand_trans hclear (runCommand_trans hselect (runCommand_trans hdisconnect hdone))

/-! ## SWBACKUP as a whole -/

/-- Settles O46: B1 goes on to B20, and the phase does not say that it was reached from B19. -/
theorem backupIsANoOpOnBackupClock : Obligations.BackupIsANoOpOnBackupClock := by
  intro s hidle hclk
  have htest : exec .swbackup s = .next (goto (.back .B20) (sfrRead .ccucon0 s)) := by
    rw [exec_swbackup_of_idle hidle, backStep, backupTest, if_pos hclk]
  exact runCommand_of_exec htest <| runCommand_of_exec (exec_swbackup (l := .B20) rfl) rfl

/-- Settles O50: the entry, the ramp down (`exists_rampedDown`, by induction on the ramp index), the fall back. -/
theorem backupRampsDownToBackupClock : Obligations.BackupRampsDownToBackupClock := by
  intro s hidle hfree hnone hclk hready hbusy hwait
  have henter := runCommand_rampEntered hidle hclk
  obtain ⟨t, hramp, ht⟩ := exists_rampedDown (s := rampEntered s) s.cfg.nsteps rfl rfl hfree.2 hnone hready hwait
  have hfall := runCommand_fellBack ht.between ht.ustep ((ht.fields .lck0 (by decide)).trans hbusy)
  have hfield := fun g hg hk => (fieldValue_fellBack_other ht.between (g := g) hg).trans (ht.fields g hk)
  have hentered : BackupKept s (rampEntered s) := by constructor <;> rfl
  obtain ⟨hcpu, hcfg, hecfg, hres⟩ := (hentered.trans ht.kept).trans (backupKept_fellBack t)
  obtain ⟨hwrites, hk2s, hhooks, hsafety, hcpus⟩ :=
    ((recorded_rampEntered s).trans ht.recorded).trans (recorded_fellBack t)
  have hcount : 14 + 7 * s.cfg.nsteps = 2 + (7 * s.cfg.nsteps + 12) := by omega
  rw [hcount]
  refine ⟨fellBack t, runCommand_trans henter (runCommand_trans hramp hfall), rfl, rfl, rfl, rfl, rfl,
    ⟨hcpu.trans hfree.1, rfl⟩, fieldValue_fellBack_clksel t, hfield _ (by decide) (by decide),
    fieldValue_fellBack_oscdiscdis t, ?_, hfield _ (by decide) (by decide), hfield _ (by decide) (by decide), ?_,
    ?_, ?_, hhooks, ?_, hcpus, ?_, hcfg, hecfg, hres⟩
  · rw [fieldValue_fellBack_ulten, ht.fields _ (by decide)]
    rfl
  · rw [fieldValue_fellBack_other ht.between (by decide), ht.k2div]
    rfl
  · simpa using hwrites
  · simp only [List.nil_append, List.append_nil] at hk2s
    exact hk2s
  · simpa using hsafety
  · rw [sfrValue_fellBack_other ht.between (by decide) (by decide) (by decide), ht.regs _ (by decide)]
    rfl

end Sys2Proof.Machine
end

section
/-! One tap and the source that feeds the distribution (43_frequency_queries R241, R243, R244). -/

namespace Sys2Proof.Machine

variable {s : State}

/-! ## One tap (R241) -/

/-- What the upstream frequency is divided by at a tap (R241): in the low-power modes 1 to 4 the fixed divisor, in mode 0 and
where the table does not apply the tap's own divider. Where R241 answers 0 Hz the divisor is 0: a quotient of ℚ by 0 is 0. -/
def tapDivisor (d : ℕ) (lp : Bool) (lpdiv : ℕ) : ℕ :=
  if lp = true ∧ lpdiv ≠ 0 then (Config.lpDivisor lpdiv).getD 0 else d

@[simp] theorem tapDivisor_false (d l : ℕ) : tapDivisor d false l = d := rfl

@[simp] theorem tapDivisor_mode_zero (d : ℕ) (lp : Bool) : tapDivisor d lp 0 = d := by simp [tapDivisor]

theorem lpDivisor_eq_some_iff {l k : ℕ} :
    Config.lpDivisor l = some k ↔ (l, k) ∈ ([(1, 30), (2, 60), (3, 120), (4, 240)] : List (ℕ × ℕ)) := by
  unfold Config.lpDivisor
  split <;> simp_all [eq_comm]

theorem lpDivisor_eq_none_of_unrecognized {l : ℕ} (h : 5 ≤ l) : Config.lpDivisor l = none := by
  unfold Config.lpDivisor
  split <;> simp_all

theorem tapDivisor_of_lpDivisor (d : ℕ) {l k : ℕ} (h : Config.lpDivisor l = some k) : tapDivisor d true l = k := by
  have hl : l ≠ 0 := by rintro rfl; simp [Config.lpDivisor] at h
  simp [tapDivisor, hl, h]

theorem tapDivisor_of_unrecognized (d : ℕ) {l : ℕ} (h : 5 ≤ l) : tapDivisor d true l = 0 := by
  have hl : l ≠ 0 := by omega
  simp [tapDivisor, hl, lpDivisor_eq_none_of_unrecognized h]

theorem dividedBy_val (u : Q) (d : ℕ) : (dividedBy u d).val = u.val / d := by
  by_cases hd : d = 0 <;> simp [dividedBy, hd]

/-- The whole of R241 as one quotient. -/
theorem tapFreq_val (u : Q) (d : ℕ) (lp : Bool) (l : ℕ) : (tapFreq u d lp l).val = u.val / tapDivisor d lp l := by
  by_cases hlow : lp = true ∧ l ≠ 0
  · obtain ⟨rfl, hl⟩ := hlow
    cases hk : Config.lpDivisor l <;> simp [tapFreq, tapDivisor, hl, hk]
  · have hown : tapFreq u d lp l = dividedBy u d := by
      cases lp
      · rfl
      · obtain rfl : l = 0 := by simpa using hlow
        rfl
    rw [hown, dividedBy_val, tapDivisor, if_neg hlow]

/-- A quotient by a natural number that is 0 at 0. -/
theorem ite_zero_div (q : ℚ) (d : ℕ) : (if d = 0 then 0 else q / d) = q / d := by
  by_cases hd : d = 0 <;> simp [hd]

/-- Settles O55: each row is `tapFreq_val` at the row's divisor. -/
theorem tapComputation : Obligations.TapComputation := by
  intro u d l
  have hmode : ∀ {m k : ℕ}, Config.lpDivisor m = some k → (tapFreq u d true m).val = u.val / k := fun h => by
    rw [tapFreq_val, tapDivisor_of_lpDivisor d h]
  refine ⟨?_, ?_, mod_cast hmode rfl, mod_cast hmode rfl, mod_cast hmode rfl, mod_cast hmode rfl, fun hl _ => ?_⟩
  · rw [tapFreq_val, tapDivisor_false, ite_zero_div]
  · rw [tapFreq_val, tapDivisor_mode_zero, ite_zero_div]
  · rw [tapFreq_val, tapDivisor_of_unrecognized d hl, Nat.cast_zero, div_zero]

/-! ## The source (R243, R244) -/

theorem pllNormal_iff (s : State) : pllNormal s = true ↔ fieldValue s .vcobyst = 0 ∧ fieldValue s .findis = 0 := by
  simp [pllNormal]

theorem fPllOut_of_normal (h : pllNormal s = true) :
    (fPllOut s).val = (Config.fXtal : ℚ) * ((fieldNat s .ndiv : ℚ) + 1) /
      (((fieldNat s .pdiv : ℚ) + 1) * ((fieldNat s .k2div : ℚ) + 1)) := by
  simp [fPllOut, h]

theorem fPllOut_of_not_normal (h : ¬ pllNormal s = true) : fPllOut s = Config.fPllOther (readableFile s) := if_neg h

theorem fSource_of_backup (h : fieldValue s .clksel = Config.encBackup) : fSource s = Config.fBackup := if_pos h

theorem fSource_of_pll (h : fieldValue s .clksel = Config.encPll) : fSource s = fPllOut s := by
  have hcodes : Config.encPll ≠ Config.encBackup := by decide
  rw [fSource, h, if_neg hcodes, if_pos rfl]

theorem fSource_of_unrecognized (hb : fieldValue s .clksel ≠ Config.encBackup) (hp : fieldValue s .clksel ≠ Config.encPll) :
    fSource s = Q.zero := by
  rw [fSource, if_neg hb, if_neg hp]

/-- Settles O56: the four values of CLKSEL and the PLL's mode. -/
theorem sourceFrequency : Obligations.SourceFrequency := by
  refine fun s => ⟨fSource_of_backup, fun hpll hbyp hdis => ?_, fun hpll hmode => ?_, fun hb hp => ?_⟩
  · rw [fSource_of_pll hpll]
    exact fPllOut_of_normal ((pllNormal_iff s).mpr ⟨hbyp, hdis⟩)
  · rw [fSource_of_pll hpll, fPllOut_of_not_normal (mt (pllNormal_iff s).mp hmode)]
  · rw [fSource_of_unrecognized hb hp, Q.zero_val]

end Sys2Proof.Machine
end

section
/-! The path of a tap and the query commands (43_frequency_queries R242, R245 to R253): a tap's frequency is fSource over the
divisors on its path. -/

namespace Sys2Proof.Machine

variable {s : State} {n : ℕ} {t up : Tap}

/-! ## The path of a tap (R242) -/

/-- The frequency a tap divides, the path followed through at most `n` taps before it. -/
def upstreamHz (n : ℕ) (s : State) (t : Tap) : Q :=
  match (Config.tapTable t).upstream with
  | none => fSource s
  | some up => tapHz n s up

theorem upstreamHz_of_none (h : (Config.tapTable t).upstream = none) : upstreamHz n s t = fSource s := by
  rw [upstreamHz, h]

theorem upstreamHz_of_some (h : (Config.tapTable t).upstream = some up) : upstreamHz n s t = tapHz n s up := by
  rw [upstreamHz, h]

/-- What the row of a tap divides by, its low-power mode included. -/
def rowDivisor (s : State) (t : Tap) : ℕ :=
  tapDivisor (tapDividerValue s (Config.tapTable t).divider) (Config.tapTable t).lp (fieldNat s .lpdiv)

theorem tapHz_succ (n : ℕ) (s : State) (t : Tap) : tapHz (n + 1) s t =
    tapFreq (upstreamHz n s t) (tapDividerValue s (Config.tapTable t).divider) (Config.tapTable t).lp (fieldNat s .lpdiv) :=
  rfl

theorem tapHz_succ_val (n : ℕ) (s : State) (t : Tap) :
    (tapHz (n + 1) s t).val = (upstreamHz n s t).val / rowDivisor s t := by
  rw [tapHz_succ, tapFreq_val, rowDivisor]

/-- A tap that fSource feeds. -/
theorem tapHz_of_source (h : (Config.tapTable t).upstream = none) :
    (tapHz (n + 1) s t).val = (fSource s).val / rowDivisor s t := by
  rw [tapHz_succ_val, upstreamHz_of_none h]

/-- A tap fed by a tap that fSource feeds: the two divisors multiply. -/
theorem tapHz_of_fed (h : (Config.tapTable t).upstream = some up) (hup : (Config.tapTable up).upstream = none) :
    (tapHz (n + 2) s t).val = (fSource s).val / ((rowDivisor s up : ℚ) * (rowDivisor s t : ℚ)) := by
  rw [tapHz_succ_val, upstreamHz_of_some h, tapHz_of_source hup, div_div]

/-- R252 at the tap itself. -/
theorem tapHz_of_rowDivisor_eq_zero (h : rowDivisor s t = 0) : (tapHz (n + 1) s t).val = 0 := by
  rw [tapHz_succ_val, h, Nat.cast_zero, div_zero]

/-- R252 at a tap that a tap with a zero divisor feeds. -/
theorem tapHz_of_upstream_rowDivisor_eq_zero (h : (Config.tapTable t).upstream = some up) (hzero : rowDivisor s up = 0) :
    (tapHz (n + 2) s t).val = 0 := by
  rw [tapHz_succ_val, upstreamHz_of_some h, tapHz_of_rowDivisor_eq_zero hzero, zero_div]

theorem rowDivisor_sri (s : State) : rowDivisor s .sri = tapDivisor (fieldNat s .sridiv) true (fieldNat s .lpdiv) := rfl

theorem rowDivisor_spb (s : State) : rowDivisor s .spb = tapDivisor (fieldNat s .spbdiv) true (fieldNat s .lpdiv) := rfl

theorem rowDivisor_modTap (s : State) : rowDivisor s .modTap = Config.modDiv (readableFile s) := rfl

theorem fieldNat_eq_zero_iff (s : State) (f : Field) : fieldNat s f = 0 ↔ fieldValue s f = 0 := by
  simp [fieldNat, ← BitVec.toNat_inj]

/-- A tap outside the low-power table divides by its own divider field. -/
theorem rowDivisor_of_field {f : Field} (hfield : (Config.tapTable t).divider = .field f)
    (hlp : (Config.tapTable t).lp = false) : rowDivisor s t = fieldNat s f := by
  rw [rowDivisor, hfield, hlp, tapDivisor_false, tapDividerValue]

/-! ## The query commands (R245 to R251) -/

/-- The tap a command asks for, if it is a query of a tap that exists. -/
def queriedTap : Instr → Option Tap
  | .qsri => some .sri
  | .qspb => some .spb
  | .qbaud g => baudTap g.toNat
  | .qcpu c => cpuTap c.toNat
  | .qgtm => some .gtm
  | .qfsi => some .fsi
  | .qmod => some .modTap
  | .nop | .solve _ | .init | .swbackup | .initeray => none

theorem exec_of_queriedTap {i : Instr} (h : queriedTap i = some t) (s : State) : exec i s = .next (query t s) := by
  cases i with
  | qsri | qspb | qgtm | qfsi | qmod => cases h; rfl
  | qbaud g =>
    have hbaud : baudTap g.toNat = some t := h
    rw [exec, execQbaud, hbaud, queryOrIllegal]
  | qcpu c =>
    have hcore : cpuTap c.toNat = some t := h
    rw [exec, execQcpu, hcore, queryOrIllegal]
  | nop | solve f | init | swbackup | initeray => cases h

theorem query_res (t : Tap) (s : State) : (query t s).res = tapHz Config.tapDepth s t := by rw [query_eq]

theorem query_fail (t : Tap) (s : State) : (query t s).fail = false := by rw [query_eq]

/-- The queries of a tap that divides by a field of its own in every low-power mode. -/
theorem queriedTap_of_field {i : Instr} {f : Field}
    (h : (i, f) ∈ ([(.qbaud 1, .baud1div), (.qbaud 2, .baud2div), (.qcpu 0, .cpudiv6), (.qcpu 1, .cpudiv7),
      (.qcpu 2, .cpudiv8), (.qgtm, .gtmdiv), (.qfsi, .fsidiv)] : List (Instr × Field))) :
    ∃ t, queriedTap i = some t ∧ (Config.tapTable t).divider = .field f ∧ (Config.tapTable t).lp = false := by
  simp only [List.mem_cons, Prod.mk.injEq, List.not_mem_nil, or_false] at h
  obtain ⟨rfl, rfl⟩ | ⟨rfl, rfl⟩ | ⟨rfl, rfl⟩ | ⟨rfl, rfl⟩ | ⟨rfl, rfl⟩ | ⟨rfl, rfl⟩ | ⟨rfl, rfl⟩ := h
  all_goals exact ⟨_, rfl, rfl, rfl⟩

/-- The queries the SRI tap feeds. -/
theorem queriedTap_of_sriFed {i : Instr} {f : Field}
    (h : (i, f) ∈ ([(.qcpu 0, .cpudiv6), (.qcpu 1, .cpudiv7), (.qcpu 2, .cpudiv8), (.qfsi, .fsidiv)] :
      List (Instr × Field))) :
    ∃ t, queriedTap i = some t ∧ Config.tapTable t = ⟨.field f, some .sri, false⟩ := by
  simp only [List.mem_cons, Prod.mk.injEq, List.not_mem_nil, or_false] at h
  obtain ⟨rfl, rfl⟩ | ⟨rfl, rfl⟩ | ⟨rfl, rfl⟩ | ⟨rfl, rfl⟩ := h <;> exact ⟨_, rfl, rfl⟩

/-- The queries of a tap and of the taps it feeds. -/
def AtOrFedBy (up : Tap) (i : Instr) : Prop :=
  ∃ t, queriedTap i = some t ∧ (t = up ∨ (Config.tapTable t).upstream = some up)

theorem atOrFedBy_sri {i : Instr} (h : i ∈ ([.qsri, .qcpu 0, .qcpu 1, .qcpu 2, .qfsi] : List Instr)) : AtOrFedBy .sri i := by
  simp only [List.mem_cons, List.not_mem_nil, or_false] at h
  obtain rfl | hfed := h
  · exact ⟨.sri, rfl, .inl rfl⟩
  · obtain rfl | rfl | rfl | rfl := hfed <;> exact ⟨_, rfl, .inr rfl⟩

theorem atOrFedBy_spb {i : Instr} (h : i ∈ ([.qspb, .qmod] : List Instr)) : AtOrFedBy .spb i := by
  simp only [List.mem_cons, List.not_mem_nil, or_false] at h
  obtain rfl | rfl := h
  · exact ⟨.spb, rfl, .inl rfl⟩
  · exact ⟨.modTap, rfl, .inr rfl⟩

/-- A query answers its tap's frequency, and it never fails (R252). -/
theorem exec_query_val {i : Instr} {q : ℚ} (hi : queriedTap i = some t) (hq : (tapHz Config.tapDepth s t).val = q) :
    ∃ v, exec i s = .next v ∧ v.res.val = q ∧ v.fail = false :=
  ⟨query t s, exec_of_queriedTap hi s, by rw [query_res, hq], query_fail t s⟩

theorem exec_zero_of_rowDivisor {i : Instr} (hi : queriedTap i = some t) (hzero : rowDivisor s t = 0) :
    ∃ v, exec i s = .next v ∧ v.res.val = 0 ∧ v.fail = false :=
  exec_query_val hi (tapHz_of_rowDivisor_eq_zero hzero)

theorem exec_zero_of_atOrFedBy {i : Instr} (hi : AtOrFedBy up i) (hzero : rowDivisor s up = 0) :
    ∃ v, exec i s = .next v ∧ v.res.val = 0 ∧ v.fail = false := by
  obtain ⟨t, htap, rfl | hfed⟩ := hi
  · exact exec_zero_of_rowDivisor htap hzero
  · exact exec_query_val htap (tapHz_of_upstream_rowDivisor_eq_zero hfed hzero)

/-- Where R241 answers 0 Hz at a tap of the low-power table. -/
theorem tapDivisor_eq_zero {f : Field}
    (h : (fieldValue s .lpdiv = 0 ∧ fieldValue s f = 0) ∨ 5 ≤ (fieldValue s .lpdiv).toNat) :
    tapDivisor (fieldNat s f) true (fieldNat s .lpdiv) = 0 := by
  obtain ⟨hmode, hfield⟩ | hmode := h
  · rw [(fieldNat_eq_zero_iff s .lpdiv).mpr hmode, (fieldNat_eq_zero_iff s f).mpr hfield, tapDivisor_mode_zero]
  · exact tapDivisor_of_unrecognized _ hmode

/-- Settles O59: each clause names a tap whose divisor is 0, at the query's tap or on the way to it. -/
theorem zeroDividerGivesZero : Obligations.ZeroDividerGivesZero := by
  refine fun s => ⟨fun i f hrow hf => ?_, fun hmod => ?_, fun h i hi => ?_, fun h i hi => ?_⟩
  · obtain ⟨t, htap, hfield, hlp⟩ := queriedTap_of_field hrow
    exact exec_zero_of_rowDivisor htap ((rowDivisor_of_field hfield hlp).trans ((fieldNat_eq_zero_iff s f).mpr hf))
  · exact exec_zero_of_rowDivisor (t := .modTap) rfl hmod
  · exact exec_zero_of_atOrFedBy (atOrFedBy_sri hi) (tapDivisor_eq_zero h)
  · exact exec_zero_of_atOrFedBy (atOrFedBy_spb hi) (tapDivisor_eq_zero h)

/-! ## The low-power table (R253) -/

theorem rowDivisor_of_mode_zero (h : fieldNat s .lpdiv = 0) :
    rowDivisor s .sri = fieldNat s .sridiv ∧ rowDivisor s .spb = fieldNat s .spbdiv := by
  rw [rowDivisor_sri, rowDivisor_spb, h, tapDivisor_mode_zero, tapDivisor_mode_zero]
  exact ⟨rfl, rfl⟩

theorem rowDivisor_of_lpDivisor {k : ℕ} (h : Config.lpDivisor (fieldNat s .lpdiv) = some k) :
    rowDivisor s .sri = k ∧ rowDivisor s .spb = k :=
  ⟨tapDivisor_of_lpDivisor _ h, tapDivisor_of_lpDivisor _ h⟩

/-- Two divisors in a row, either of which may be 0. -/
theorem ite_zero_div_mul (q : ℚ) (d e : ℕ) :
    (if d = 0 ∨ e = 0 then 0 else q / ((d : ℚ) * (e : ℚ))) = q / ((d : ℚ) * (e : ℚ)) := by
  simp only [← Nat.mul_eq_zero, ← Nat.cast_mul, ite_zero_div]

/-- Settles O58: LPDIV gives the divisors of SRI and SPB, and a tap one of them feeds multiplies it by its own (`tapHz_of_fed`). -/
theorem lowPowerTableIsExact : Obligations.LowPowerTableIsExact := by
  intro s dSri dSpb htable
  obtain ⟨hsri, hspb⟩ : rowDivisor s .sri = dSri ∧ rowDivisor s .spb = dSpb := by
    obtain ⟨hmode, rfl, rfl⟩ | ⟨k, rfl, hrow, rfl⟩ := htable
    · exact rowDivisor_of_mode_zero hmode
    · exact rowDivisor_of_lpDivisor (lpDivisor_eq_some_iff.mpr hrow)
  refine ⟨⟨_, exec_of_queriedTap rfl s, ?_⟩, ⟨_, exec_of_queriedTap rfl s, ?_⟩, fun i f hrow => ?_,
    ⟨_, exec_of_queriedTap rfl s, ?_⟩⟩
  · rw [query_res, Config.tapDepth, tapHz_of_source rfl, hsri, ite_zero_div]
  · rw [query_res, Config.tapDepth, tapHz_of_source rfl, hspb, ite_zero_div]
  · obtain ⟨t, htap, hrow⟩ := queriedTap_of_sriFed hrow
    refine ⟨_, exec_of_queriedTap htap s, ?_⟩
    have hown : rowDivisor s t = fieldNat s f := rowDivisor_of_field (by rw [hrow]) (by rw [hrow])
    simp only [← fieldNat_eq_zero_iff]
    rw [query_res, Config.tapDepth, tapHz_of_fed (by rw [hrow]) rfl, hsri, hown]
    exact (ite_zero_div_mul _ _ _).symm
  · rw [query_res, Config.tapDepth, tapHz_of_fed (up := .spb) rfl rfl, hspb, rowDivisor_modTap, ite_zero_div_mul]

end Sys2Proof.Machine
end

section
/-! What a query is a function of (43_frequency_queries R240): the words of the registers it reads. -/

namespace Sys2Proof.Machine

variable {s u : State} {t up : Tap}

/-! ## States that show the same words -/

/-- Two states that show the same word in each register listed. -/
def ShowSame (rs : List Reg) (s u : State) : Prop := ∀ r ∈ rs, sfrValue u r = sfrValue s r

theorem ShowSame.mono {rs rs' : List Reg} (h : ShowSame rs s u) (hsub : rs' ⊆ rs) : ShowSame rs' s u :=
  fun r hr => h r (hsub hr)

theorem ShowSame.fieldValue_eq {rs : List Reg} (h : ShowSame rs s u) {f : Field} (hf : fieldReg f ∈ rs) :
    fieldValue u f = fieldValue s f := by
  rw [fieldValue, h _ hf, fieldValue]

theorem ShowSame.fieldNat_eq {rs : List Reg} (h : ShowSame rs s u) {f : Field} (hf : fieldReg f ∈ rs) :
    fieldNat u f = fieldNat s f :=
  congrArg BitVec.toNat (h.fieldValue_eq hf)

theorem ShowSame.readableFile_eq (h : ShowSame allRegs s u) : readableFile u = readableFile s := by
  have hall : ∀ r, sfrValue u r = sfrValue s r := fun r => h r (mem_allRegs r)
  simp only [readableFile, hall]

/-! ## The source (R243, R244) -/

theorem ccucon0_mem_sourceRegs (s : State) : Reg.ccucon0 ∈ sourceRegs s := by
  unfold sourceRegs
  split
  · split <;> decide
  · decide

theorem sourceRegs_of_normal (hpll : fieldValue s .clksel = Config.encPll) (hmode : pllNormal s = true) :
    sourceRegs s = [.ccucon0, .pllstat, .pllcon0, .pllcon1] := by
  rw [sourceRegs, if_pos hpll, if_pos hmode]

theorem sourceRegs_of_not_normal (hpll : fieldValue s .clksel = Config.encPll) (hmode : ¬ pllNormal s = true) :
    sourceRegs s = allRegs := by
  rw [sourceRegs, if_pos hpll, if_neg hmode]

theorem ShowSame.pllNormal_eq {rs : List Reg} (h : ShowSame rs s u) (hstat : Reg.pllstat ∈ rs) : pllNormal u = pllNormal s := by
  rw [pllNormal, h.fieldValue_eq (f := .vcobyst) hstat, h.fieldValue_eq (f := .findis) hstat, pllNormal]

theorem ShowSame.fPllOut_eq (hpll : fieldValue s .clksel = Config.encPll) (h : ShowSame (sourceRegs s) s u) :
    fPllOut u = fPllOut s := by
  by_cases hmode : pllNormal s = true
  · rw [sourceRegs_of_normal hpll hmode] at h
    have hmode' : pllNormal u = true := (h.pllNormal_eq (by decide)).trans hmode
    rw [fPllOut, if_pos hmode', fPllOut, if_pos hmode, h.fieldNat_eq (f := .ndiv) (by decide),
      h.fieldNat_eq (f := .pdiv) (by decide), h.fieldNat_eq (f := .k2div) (by decide)]
  · rw [sourceRegs_of_not_normal hpll hmode] at h
    have hmode' : ¬ pllNormal u = true := by rwa [h.pllNormal_eq (by decide)]
    rw [fPllOut_of_not_normal hmode, fPllOut_of_not_normal hmode', h.readableFile_eq]

/-- The source frequency is a function of `sourceRegs`. -/
theorem ShowSame.fSource_eq (h : ShowSame (sourceRegs s) s u) : fSource u = fSource s := by
  have hclk : fieldValue u .clksel = fieldValue s .clksel := h.fieldValue_eq (ccucon0_mem_sourceRegs s)
  by_cases hpll : fieldValue s .clksel = Config.encPll
  · rw [fSource_of_pll hpll, fSource_of_pll (hclk.trans hpll), h.fPllOut_eq hpll]
  · simp only [fSource, hclk, if_neg hpll]

/-! ## The path of a tap (R242) -/

/-- The registers a tap's divider is read from. -/
def dividerRegs : TapDivider → List Reg
  | .field f => [fieldReg f]
  | .modDiv => allRegs

theorem ShowSame.tapDividerValue_eq {d : TapDivider} (h : ShowSame (dividerRegs d) s u) :
    tapDividerValue u d = tapDividerValue s d := by
  cases d with
  | field f => exact h.fieldNat_eq (List.mem_singleton_self _)
  | modDiv => exact congrArg Config.modDiv h.readableFile_eq

theorem dividerRegs_subset_pathRegs (n : ℕ) (t : Tap) : dividerRegs (Config.tapTable t).divider ⊆ pathRegs (n + 1) t := by
  cases hd : (Config.tapTable t).divider <;> simp [pathRegs, dividerRegs, hd]

theorem pathRegs_subset_of_upstream (n : ℕ) (h : (Config.tapTable t).upstream = some up) :
    pathRegs n up ⊆ pathRegs (n + 1) t := by
  cases hd : (Config.tapTable t).divider <;> simp [pathRegs, h, hd]

/-- The frequency at a tap is a function of the registers of fSource and of the way to the tap. -/
theorem ShowSame.tapHz_eq (hsource : ShowSame (sourceRegs s) s u) (n : ℕ) (t : Tap) (h : ShowSame (pathRegs n t) s u) :
    tapHz n u t = tapHz n s t := by
  induction n generalizing t with
  | zero => rfl
  | succ n ih =>
    have hup : upstreamHz n u t = upstreamHz n s t := by
      cases hrow : (Config.tapTable t).upstream with
      | none => rw [upstreamHz_of_none hrow, upstreamHz_of_none hrow, hsource.fSource_eq]
      | some up =>
        rw [upstreamHz_of_some hrow, upstreamHz_of_some hrow]
        exact ih up (h.mono (pathRegs_subset_of_upstream n hrow))
    rw [tapHz_succ, tapHz_succ, hup, (h.mono (dividerRegs_subset_pathRegs n t)).tapDividerValue_eq,
      hsource.fieldNat_eq (f := .lpdiv) (ccucon0_mem_sourceRegs s)]

/-! ## The query -/

theorem ShowSame.query_res_eq (h : ShowSame (queryRegs s t) s u) : (query t u).res = (query t s).res := by
  have hsource : ShowSame (sourceRegs s) s u := h.mono fun r hr => (mem_queryRegs s t r).mpr (.inl hr)
  have hpath : ShowSame (pathRegs Config.tapDepth t) s u := h.mono fun r hr => (mem_queryRegs s t r).mpr (.inr hr)
  rw [query_res, query_res, hsource.tapHz_eq _ _ hpath]

/-- Settles O57: each row is a query of a tap (`exec_of_queriedTap`) with the frequency TAPTABLE gives there; what it changes is
`query_eq`, and what it depends on is `ShowSame.query_res_eq`. -/
theorem queriesAnswerTheirTaps : Obligations.QueriesAnswerTheirTaps := by
  intro s i f hrow
  obtain ⟨t, htap, rfl⟩ : ∃ t, queriedTap i = some t ∧ tapHz Config.tapDepth s t = f := by
    simp only [List.mem_cons, Prod.mk.injEq, List.not_mem_nil, or_false] at hrow
    obtain ⟨rfl, rfl⟩ | ⟨rfl, rfl⟩ | ⟨rfl, rfl⟩ | ⟨rfl, rfl⟩ | ⟨rfl, rfl⟩ | ⟨rfl, rfl⟩ | ⟨rfl, rfl⟩ | ⟨rfl, rfl⟩ |
      ⟨rfl, rfl⟩ | ⟨rfl, rfl⟩ := hrow
    all_goals exact ⟨_, rfl, rfl⟩
  refine ⟨(queryRegs s t).reverse, List.nodup_reverse.mpr (queryRegs_nodup s t), ?_, fun u hsame => ?_⟩
  · rw [exec_of_queriedTap htap, query_eq]
  · have hread : ShowSame (queryRegs s t) s u := fun r hr => hsame r (List.mem_reverse.mpr hr)
    exact ⟨_, exec_of_queriedTap htap u, hread.query_res_eq.trans (query_res t s)⟩

end Sys2Proof.Machine
end

section
/-! Unbounded polls (60_exceptions R275): a flag that never shows the awaited value holds a sequence at its poll, for as many
samples as one likes. -/

namespace Sys2Proof.Machine

variable {i : Instr} {l : UStep} {f : Field} {v : Word} {s : State}

/-- Inside INIT the command runs the µstep USTEP names. -/
theorem exec_init {l : InitStep} (hu : s.ustep = .init l) : exec .init s = initStep l s := by
  rw [exec, execInit, hu]
  rfl

/-- At the label `l` the command `i` is an unbounded poll of the field `f` for the value `v`. -/
def PollsAt (i : Instr) (l : UStep) (f : Field) (v : Word) : Prop :=
  ∀ s, s.ustep = l → ∃ k, exec i s = pollUntil f v k s

theorem pollsAt_init {l : InitStep} {k : State → State} (h : ∀ s, initStep l s = pollUntil f v k s) :
    PollsAt .init (.init l) f v := fun s hu => ⟨k, (exec_init hu).trans (h s)⟩

theorem pollsAt_swbackup {l : BackStep} {k : State → State} (h : ∀ s, backStep l s = pollUntil f v k s) :
    PollsAt .swbackup (.back l) f v := fun s hu => ⟨k, (exec_swbackup hu).trans (h s)⟩

theorem pollsAt_initeray {l : ErayStep} {k : State → State} (h : ∀ s, erayStep l s = pollUntil f v k s) :
    PollsAt .initeray (.eray l) f v := fun s hu => ⟨k, (exec_initeray hu).trans (h s)⟩

/-- A sample without the awaited value is one read, and nothing else. -/
theorem PollsAt.exec_of_not_shown (hpoll : PollsAt i l f v) (hu : s.ustep = l) (hflag : fieldValue s f ≠ v) :
    exec i s = .next (sfrRead (fieldReg f) s) := by
  obtain ⟨k, hexec⟩ := hpoll s hu
  exact hexec.trans (pollUntil_stays f v k s hflag)

/-- The state after `k` samples of the register `r`. -/
def sampled (r : Reg) (k : Nat) (s : State) : State :=
  { s with port := List.replicate k (.read r (sfrValue s r)) ++ s.port }

/-- A sample leaves the register as it reads, so the samples after it record the same word. -/
theorem sampled_sfrRead (r : Reg) (k : Nat) (s : State) : sampled r k (sfrRead r s) = sampled r (k + 1) s := by
  rw [sampled, sampled, sfrValue_sfrRead, sfrRead_port, List.replicate_succ', List.append_assoc]
  rfl

/-- The induction of R275: the read leaves the label and the flag, so the poll is where it was. -/
theorem PollsAt.runCommand_spins (hpoll : PollsAt i l f v) (k : Nat) (hu : s.ustep = l) (hflag : fieldValue s f ≠ v) :
    runCommand k i s = .next (sampled (fieldReg f) k s) := by
  induction k generalizing s with
  | zero => rfl
  | succ k ih =>
    have hrest : runCommand k i (sfrRead (fieldReg f) s) = .next (sampled (fieldReg f) k (sfrRead (fieldReg f) s)) :=
      ih hu (by rwa [fieldValue_sfrRead])
    rw [sampled_sfrRead] at hrest
    exact runCommand_of_exec (hpoll.exec_of_not_shown hu hflag) hrest

/-- Settles O44: each row is an unbounded poll of its sequence, and an unbounded poll spins (`PollsAt.runCommand_spins`). -/
theorem unboundedPollsSpinForEver : Obligations.UnboundedPollsSpinForEver := by
  intro s i l f v hrow hu hflag k
  have hpoll : PollsAt i l f v := by
    simp only [List.mem_cons, Prod.mk.injEq, List.not_mem_nil, or_false] at hrow
    obtain ⟨rfl, rfl, rfl, rfl⟩ | ⟨rfl, rfl, rfl, rfl⟩ | ⟨rfl, rfl, rfl, rfl⟩ | ⟨rfl, rfl, rfl, rfl⟩ |
      ⟨rfl, rfl, rfl, rfl⟩ | ⟨rfl, rfl, rfl, rfl⟩ | ⟨rfl, rfl, rfl, rfl⟩ | ⟨rfl, rfl, rfl, rfl⟩ |
      ⟨rfl, rfl, rfl, rfl⟩ | ⟨rfl, rfl, rfl, rfl⟩ | ⟨rfl, rfl, rfl, rfl⟩ | ⟨rfl, rfl, rfl, rfl⟩ |
      ⟨rfl, rfl, rfl, rfl⟩ := hrow
    -- the ten polls of INIT, the two of SWBACKUP and the one of INITERAY
    iterate 10 exact pollsAt_init fun _ => by rw [initStep]
    iterate 2 exact pollsAt_swbackup fun _ => by rw [backStep]
    exact pollsAt_initeray fun _ => by rw [erayStep]
  exact hpoll.runCommand_spins k hu hflag

end Sys2Proof.Machine
end

section
/-! Reset, and waits too long for the timer (10_state R22 and R46, 70_reset_and_hazards R300 and R317). -/

namespace Sys2Proof.Machine

variable {s : State}

/-! ## The idle block -/

/-- While BUSY = 0 the sequencer has nothing to do in its turn. -/
theorem sequencerTurn_of_not_busy (hidle : s.busy = false) : sequencerTurn s = .next s := by
  simp [sequencerTurn, hidle]

theorem step_of_not_busy (hidle : s.busy = false) (hturn : currentTurn s = .seq) : step s = .next (takeTurn s) := by
  have hstep : step s = sequencerTurn (takeTurn s) := by simp [step, hturn]
  rw [hstep, sequencerTurn_of_not_busy ((takeTurn_busy s).trans hidle)]

/-- Settles O7: the reset values and the codes are the model's, and an idle block stands still (`step_of_not_busy`). -/
theorem resetValues : Obligations.ResetValues :=
  ⟨rfl, rfl, rfl, rfl, Q.zero_val, rfl, rfl, rfl, rfl, rfl, rfl, fun _ => step_of_not_busy⟩

/-! ## Waits that never end -/

/-- The ticks are counted in a timer's width, so they wrap around before they reach 2^TIMER_WIDTH. -/
theorem elapsedTicks_lt (s : State) : elapsedTicks s < 2 ^ Config.timerWidth := (s.ext.timer - s.wstart).isLt

/-- R317: a later pass of a wait whose target the timer cannot count up to is one sample, and nothing else. -/
theorem wait_of_tooLong (q : Q) (l : UStep) (hphase : s.phase = .looping) (htarget : 2 ^ Config.timerWidth ≤ s.wtarget) :
    wait q l s = emit (.timer s.ext.timer) s := by
  have hshort : ¬ s.wtarget ≤ elapsedTicks s := ((elapsedTicks_lt s).trans_le htarget).not_ge
  obtain ⟨hentry, -⟩ | ⟨-, hreached, -⟩ | ⟨-, -, hstays⟩ := wait_cases q l s
  · exact absurd hphase hentry
  · exact absurd hreached hshort
  · exact hstays

/-- REVERSE_HOOKS is false (log 5), so B7 waits in every phase. -/
theorem backupWait_reverseHooks (s : State) :
    backupWait Config.reverseHooks s = wait (downStep s).wait (.back .B8) s := rfl

/-- Settles O38: each row is a wait of its sequence, and such a wait stays (`wait_of_tooLong`). -/
theorem tooLongAWaitNeverLeaves : Obligations.TooLongAWaitNeverLeaves := by
  intro s i l hrow hu hphase htarget
  have hwaits : ∃ q n, exec i s = .next (wait q n s) := by
    simp only [List.mem_cons, Prod.mk.injEq, List.not_mem_nil, or_false] at hrow
    obtain ⟨rfl, rfl⟩ | ⟨rfl, rfl⟩ | ⟨rfl, rfl⟩ | ⟨rfl, rfl⟩ := hrow
    · exact ⟨_, _, by rw [exec_init hu, initStep]⟩
    · exact ⟨_, _, by rw [exec_init hu, initStep]⟩
    · exact ⟨_, _, by rw [exec_swbackup hu, backStep, backupWait_reverseHooks]⟩
    · exact ⟨_, _, by rw [exec_initeray hu, erayStep]⟩
  obtain ⟨q, n, hexec⟩ := hwaits
  rw [hexec, wait_of_tooLong q n hphase htarget, emit]

end Sys2Proof.Machine
end

section
/-! The µsteps of INIT one by one (41_sequencer_init R130 to R187), with the lock, wait and hook operations they share. -/

namespace Sys2Proof.Machine

variable {s : State}

/-! ## Locks and the start of INIT -/

/-- Settles O18: each clause is the operation, written out once. -/
theorem acquireAndReleaseALock : Obligations.AcquireAndReleaseALock := fun _ => ⟨rfl, rfl, rfl, rfl⟩

/-- From IDLE INIT starts at I1. -/
theorem exec_init_of_idle (hu : s.ustep = .idle) : exec .init s = initStep .I1 s := by
  rw [exec, execInit, hu]
  rfl

/-- Settles O27: from IDLE and at I1 the µstep is the same sample of the trap enable. -/
theorem initStartsBySamplingTheTrap : Obligations.InitStartsBySamplingTheTrap := by
  rintro s (hu | hu)
  · rw [exec_init_of_idle hu, initStep, saveTrap_frame]
  · rw [exec_init hu, initStep, saveTrap_frame]

/-! ## Register writes -/

/-- Settles O28: each listed µstep is one field write whose value fits its field. -/
theorem initFieldWriteSteps : Obligations.InitFieldWriteSteps := by
  intro s l f v n hrow hu hheld
  rw [exec_init hu]
  simp only [List.mem_cons, Prod.mk.injEq, List.not_mem_nil, or_false] at hrow
  obtain ⟨rfl, rfl, rfl, rfl⟩ | ⟨rfl, rfl, rfl, rfl⟩ | ⟨rfl, rfl, rfl, rfl⟩ | ⟨rfl, rfl, rfl, rfl⟩ |
    ⟨rfl, rfl, rfl, rfl⟩ | ⟨rfl, rfl, rfl, rfl⟩ | ⟨rfl, rfl, rfl, rfl⟩ | ⟨rfl, rfl, rfl, rfl⟩ |
    ⟨rfl, rfl, rfl, rfl⟩ | ⟨rfl, rfl, rfl, rfl⟩ | ⟨rfl, rfl, rfl, rfl⟩ | ⟨rfl, rfl, rfl, rfl⟩ |
    ⟨rfl, rfl, rfl, rfl⟩ := hrow
  -- I3 and I8, then the three dividers I16 to I18
  iterate 2 exact writeFieldTo_rewrites _ (by decide) (by decide) rfl hheld
  iterate 3 exact writeFieldTo_rewrites _ (by decide) (toNat_ofBits_lt _) rfl hheld
  -- I19 to I22 and I26, then the ramp's divider I47
  iterate 5 exact writeFieldTo_rewrites _ (by decide) (by decide) rfl hheld
  · exact writeFieldTo_rewrites _ (by decide) (toNat_ofBits_lt _) rfl hheld
  -- I53, then the saved trap enable I54
  · exact writeFieldTo_rewrites _ (by decide) (by decide) rfl hheld
  · exact writeFieldTo_rewrites _ (by decide) (toNat_ofFlag_lt _) rfl hheld

/-- Settles O29: both fields of a selection lie in its register, and their values fit. -/
theorem initSelectSteps : Obligations.InitSelectSteps := by
  intro s l r fs n hrow hu hheld
  rw [exec_init hu]
  simp only [List.mem_cons, Prod.mk.injEq, List.not_mem_nil, or_false] at hrow
  obtain ⟨rfl, rfl, rfl, rfl⟩ | ⟨rfl, rfl, rfl, rfl⟩ | ⟨rfl, rfl, rfl, rfl⟩ := hrow <;>
    exact writeFieldsTo_rewrites _ (by decide) (by decide) rfl hheld

/-- A µstep that merges the caller's pair and forces the listed fields, as the statements about single µsteps put it. -/
theorem mergeWriteTo_rewrites {r : Reg} {fs : List (Field × Word)} {d : Domain} (p : Pair) (l : UStep)
    (hfs : ∀ q ∈ fs, Writable r q) (hnodup : (fs.map Prod.fst).Nodup) (hdomain : regDomain r = some d)
    (hheld : held s d = true) :
    ∃ t, mergeWriteTo r p fs l s = .next t ∧ Rewritten r (mergedBits r p s) fs s t ∧ OnlyRegisterFile l (midway s) t :=
  ⟨_, mergeWriteTo_of_held r p fs l s d hdomain hheld,
    rewritten_sfrStore s hfs hnodup fun i hi => getLsbD_merge (sfrValue s r) p i hi, rfl⟩

/-- Settles O30: the forced fields of each merge lie in its register, and their values fit. -/
theorem initMergeSteps : Obligations.InitMergeSteps := by
  intro s l d r p fs n hrow hu hheld
  rw [exec_init hu]
  simp only [List.mem_cons, Prod.mk.injEq, List.not_mem_nil, or_false] at hrow
  obtain ⟨rfl, rfl, rfl, rfl, rfl, rfl⟩ | ⟨rfl, rfl, rfl, rfl, rfl, rfl⟩ | ⟨rfl, rfl, rfl, rfl, rfl, rfl⟩ |
    ⟨rfl, rfl, rfl, rfl, rfl, rfl⟩ | ⟨rfl, rfl, rfl, rfl, rfl, rfl⟩ := hrow <;>
    exact mergeWriteTo_rewrites _ _ (by decide) (by decide) rfl hheld

/-- A register whose bits are all rw reads back the whole word written. -/
theorem sfrValue_sfrStore_of_all_rw {r : Reg} (hrh : classMask r .rh = 0) (hw1t : classMask r .w1t = 0) (w : Word)
    (s : State) : sfrValue (sfrStore r w s) r = w := by
  simp [sfrValue_sfrStore_same, writtenWord, rwMask, hrh, hw1t]

/-- Settles O31: the three CPU divider registers hold no rh and no w1t field. -/
theorem initOverwriteSteps : Obligations.InitOverwriteSteps := by
  intro s l r w n hrow hu hheld
  rw [exec_init hu]
  simp only [List.mem_cons, Prod.mk.injEq, List.not_mem_nil, or_false] at hrow
  obtain ⟨rfl, rfl, rfl, rfl⟩ | ⟨rfl, rfl, rfl, rfl⟩ | ⟨rfl, rfl, rfl, rfl⟩ := hrow <;>
    exact ⟨_, sfrWriteTo_of_held _ _ _ s .safety rfl hheld,
      sfrValue_sfrStore_of_all_rw (by decide) (by decide) _ s, (wordWritten_sfrStore _ _ s).1, rfl, rfl⟩

/-- I23 as a field write that ends with SEQ written. -/
theorem exec_init_I23 (hu : s.ustep = .init .I23) (hheld : s.heldSafety = true) :
    exec .init s = .next (goto (.init .I24) (setSeq .pllLocking (fieldWritten .resld 1 s))) := by
  rw [exec_init hu, initStep, writeField_of_held .resld 1 s .safety rfl hheld, andThen_next]
  rfl

/-- Settles O32: I23 is one field write, and SEQ is written after it. -/
theorem initRestartsLockDetection : Obligations.InitRestartsLockDetection := by
  intro s hu hheld
  have hwritten : Rewritten .pllcon0 (oldBits .pllcon0 s) [(.resld, 1)] s (fieldWritten .resld 1 s) :=
    rewritten_sfrStore s (by decide) (by decide) fun _ _ => rfl
  exact ⟨_, exec_init_I23 hu hheld, hwritten, rfl⟩

/-! ## Polls, locks and branches -/

/-- Settles O33: the polls leave or stay by the sampled field. -/
theorem initPollSteps : Obligations.InitPollSteps := by
  intro s l f v n q hrow hu
  rw [exec_init hu]
  simp only [List.mem_cons, Prod.mk.injEq, List.not_mem_nil, or_false] at hrow
  obtain ⟨rfl, rfl, rfl, rfl, rfl⟩ | ⟨rfl, rfl, rfl, rfl, rfl⟩ | ⟨rfl, rfl, rfl, rfl, rfl⟩ |
    ⟨rfl, rfl, rfl, rfl, rfl⟩ | ⟨rfl, rfl, rfl, rfl, rfl⟩ | ⟨rfl, rfl, rfl, rfl, rfl⟩ |
    ⟨rfl, rfl, rfl, rfl, rfl⟩ | ⟨rfl, rfl, rfl, rfl, rfl⟩ | ⟨rfl, rfl, rfl, rfl, rfl⟩ |
    ⟨rfl, rfl, rfl, rfl, rfl⟩ := hrow
  all_goals
    rw [initStep]
    exact ⟨pollUntil_leaves _ _ _ s, pollUntil_stays _ _ _ s⟩

/-- Settles O34: each clause is one arm of `initStep`. -/
theorem initLockSteps : Obligations.InitLockSteps := by
  refine fun s => ⟨fun l n hrow hu => ?_, fun l n hrow hu => ?_, exec_init, exec_init, exec_init, exec_init⟩
  all_goals
    simp only [List.mem_cons, Prod.mk.injEq, List.not_mem_nil, or_false] at hrow
    obtain ⟨rfl, rfl⟩ | ⟨rfl, rfl⟩ | ⟨rfl, rfl⟩ | ⟨rfl, rfl⟩ := hrow <;> exact exec_init hu

/-- Settles O35: each clause is one arm of `initStep`. -/
theorem initBranchSteps : Obligations.InitBranchSteps := fun _ => ⟨exec_init, exec_init, exec_init⟩

/-! ## The oscillator check -/

/-- The two flags tested in the sampled word are the fields as they read. -/
theorem oscReady_iff (s : State) :
    oscReady (sfrValue s .osccon) = true ↔ fieldValue s .plllv = 1 ∧ fieldValue s .pllhv = 1 := by
  rw [oscReady, Bool.and_eq_true, decide_eq_true_iff, decide_eq_true_iff]
  rfl

/-- Settles O36: the three ways a pass of a bounded poll can end. -/
theorem initOscillatorCheck : Obligations.InitOscillatorCheck := by
  intro s hu
  rw [exec_init hu, initStep, oscCheck]
  refine ⟨fun hready => ?_, fun hready hlast => ?_, fun hready hmore => ?_⟩
  · rw [boundedPoll_of_ok ((oscReady_iff s).mpr hready)]
    rfl
  · rw [boundedPoll_of_last (fun h => hready ((oscReady_iff s).mp h)) hlast]
    rfl
  · rw [boundedPoll_of_failed (fun h => hready ((oscReady_iff s).mp h)) hmore]
    rfl

/-! ## Waits -/

/-- Ticks modulo the timer's width, in natural numbers. -/
theorem elapsedTicks_eq (s : State) : elapsedTicks s =
    (s.ext.timer.toNat + 2 ^ Config.timerWidth - s.wstart.toNat) % 2 ^ Config.timerWidth := by
  have hlt := s.wstart.isLt
  rw [elapsedTicks, BitVec.toNat_sub]
  congr 1
  omega

/-- `floor` is below the rational, and the next natural number above it. -/
theorem floor_bounds (a : Q) : (a.floor : ℚ) ≤ a.val ∧ a.val < (a.floor : ℚ) + 1 := by
  refine ⟨(Q.le_floor_iff a _).mp le_rfl, ?_⟩
  have habove : ¬ ((a.floor + 1 : ℕ) : ℚ) ≤ a.val := fun h => absurd ((Q.le_floor_iff a _).mpr h) (by omega)
  rw [Nat.cast_succ] at habove
  exact not_le.mp habove

theorem wait_of_elapsed (q : Q) (l : UStep) (hphase : s.phase = .looping) (htarget : s.wtarget ≤ elapsedTicks s) :
    wait q l s = goto l (emit (.timer s.ext.timer) s) := by
  rw [wait, if_pos hphase, waitSample, if_pos htarget]

theorem wait_of_not_elapsed (q : Q) (l : UStep) (hphase : s.phase = .looping) (htarget : elapsedTicks s < s.wtarget) :
    wait q l s = emit (.timer s.ext.timer) s := by
  rw [wait, if_pos hphase, waitSample, if_neg htarget.not_ge]

/-- Settles O37: each row is a wait of its sequence; its target is a floor, and its ticks are counted modulo the timer's width. -/
theorem waitSteps : Obligations.WaitSteps := by
  intro s i l t n hrow hu
  have hexec : exec i s = .next (wait t n s) := by
    simp only [List.mem_cons, Prod.mk.injEq, List.not_mem_nil, or_false] at hrow
    obtain ⟨rfl, rfl, rfl, rfl⟩ | ⟨rfl, rfl, rfl, rfl⟩ | ⟨rfl, rfl, rfl, rfl⟩ | ⟨rfl, rfl, rfl, rfl⟩ := hrow
    · exact exec_init hu
    · exact exec_init hu
    · exact exec_swbackup hu
    · exact exec_initeray hu
  rw [hexec, ← elapsedTicks_eq]
  refine ⟨fun hphase => ?_, fun hphase => ⟨fun htarget => ?_, fun htarget => ?_⟩⟩
  · obtain ⟨hle, hlt⟩ := floor_bounds (t.mul (Q.ofPos s.ext.timerFreq))
    exact ⟨_, hle, hlt, by rw [wait_of_entry t n hphase]; rfl⟩
  · rw [wait_of_elapsed t n hphase htarget]
    rfl
  · rw [wait_of_not_elapsed t n hphase htarget]
    rfl

/-! ## The hook and the result -/

theorem runningHook_eq_none (hphase : ∀ h, s.phase ≠ .inHook h) : runningHook s = none :=
  Option.eq_none_iff_forall_ne_some.mpr fun h hrun => hphase h ((runningHook_eq_some s h).mp hrun)

theorem hookStep_of_running {h : HookId} (o : Option HookId) (k : State → State) (hphase : s.phase = .inHook h) :
    hookStep o k s = s := by
  simp only [hookStep, (runningHook_eq_some s h).mpr hphase]

theorem hookStep_none (k : State → State) (hphase : ∀ h, s.phase ≠ .inHook h) : hookStep none k s = k s := by
  simp only [hookStep, runningHook_eq_none hphase]

theorem hookStep_some (h : HookId) (k : State → State) (hphase : ∀ h, s.phase ≠ .inHook h) :
    hookStep (some h) k s = setPhase (.inHook h) (emit (.hook h) s) := by
  simp only [hookStep, runningHook_eq_none hphase]

/-- A scripted return of the running hook is made if HOOK_EFFECT admits it. -/
theorem step_of_agenda_hook {h : HookId} {e : Ext} {rest : List Turn} (ha : s.agenda = .hook e :: rest)
    (hphase : s.phase = .inHook h) (heffect : Config.hookEffect h s.ext e = true) :
    step s = .next (hookReturn e { s with agenda := rest }) := by
  have hen : enabled s (.hook e) = true := (enabled_hook s e).mpr ⟨h, hphase, heffect⟩
  simp [step, currentTurn_of_agenda ha hen, takeTurn_of_agenda ha hen]

/-- Settles O39: the three ways of `hookStep`, and the hook's own turn. -/
theorem hookIsCalledOnce : Obligations.HookIsCalledOnce := by
  intro s hu
  rw [exec_init hu, initStep, currentStep]
  refine ⟨fun hphase hhook => ?_, fun h hphase hhook => ?_, fun h hphase => ?_, fun h e rest hphase ha heffect => ?_⟩
  · rw [hhook, hookStep_none _ hphase, goto]
  · rw [hhook, hookStep_some h _ hphase]
    rfl
  · rw [hookStep_of_running _ _ hphase]
  · rw [step_of_agenda_hook ha hphase heffect, hookReturn, if_pos hu]
    rfl

/-- Settles O40: the verdict of the oscillator check chooses the result. -/
theorem initResultStep : Obligations.InitResultStep := by
  intro s hu
  rw [exec_init hu, initStep]
  refine ⟨fun hok => ?_, fun hok => ?_⟩
  · rw [initResult, if_pos hok, finish_errOk]
    rfl
  · rw [initResult, if_neg (by simp [hok])]
    rfl

/-! ## Every µstep answers -/

/-- Settles O45: a label's locks let its µstep answer, and each command starts at its first µstep. -/
theorem everyMicrostepCompletesUnderItsLocks : Obligations.EveryMicrostepCompletesUnderItsLocks := by
  refine fun s hlocks => ⟨⟨fun l hu => ?_, fun l hu => ?_, fun l hu => ?_⟩, fun hidle => ⟨?_, ?_, ?_⟩⟩
  · rw [exec_init hu]
    exact answers_initStep l (hu ▸ hlocks.held_eq)
  · rw [exec_swbackup hu]
    exact answers_backStep l (hu ▸ hlocks.held_eq)
  · rw [exec_initeray hu]
    exact answers_erayStep l (hu ▸ hlocks.held_eq)
  · exact ⟨_, exec_init_of_idle hidle, rfl⟩
  · refine ⟨_, exec_swbackup_of_idle hidle, ?_⟩
    rw [backupTest, goto_ustep]
    exact ite_eq_or_eq _ _ _
  · exact ⟨_, exec_initeray_of_idle hidle, rfl⟩

end Sys2Proof.Machine
end

section
/-! The ramp of INIT (41_sequencer_init R175 to R182): one pass, and all passes by induction on their number. The states are
written as the operations they come from. -/

namespace Sys2Proof.Machine

variable {s t u : State}

/-! ## A write with no change announced -/

/-- With no change announced, a write of listed fields leaves every other register of the file. -/
theorem otherRegsKept_fieldsWritten (r : Reg) (fs : List (Field × Word)) (hnone : s.between = none) :
    OtherRegsKept r s (fieldsWritten r fs s) := by
  intro q hq
  rw [fieldsWritten, midway_of_none (sfrRead r s) hnone]
  exact sfrGet_sfrSet_other _ _ _ _ hq

theorem OtherRegsKept.trans {r : Reg} (h : OtherRegsKept r s t) (h' : OtherRegsKept r t u) : OtherRegsKept r s u :=
  fun q hq => (h' q hq).trans (h q hq)

/-- A field of another register reads as before. -/
theorem OtherRegsKept.fieldValue_eq {r : Reg} (h : OtherRegsKept r s t) {f : Field} (hf : fieldReg f ≠ r) :
    fieldValue t f = fieldValue s f := by
  rw [fieldValue, fieldValue, sfrValue, sfrValue, h _ hf]

@[simp] theorem fieldsWritten_seqi (r : Reg) (fs : List (Field × Word)) (s : State) :
    (fieldsWritten r fs s).seqi = s.seqi := by
  rw [fieldsWritten_frame]

@[simp] theorem waitPassed_seqi (q : Q) (l : UStep) (s : State) : (waitPassed q l s).seqi = s.seqi := by
  rw [waitPassed_frame]

theorem recorded_k2div_written (v : BitVec 7) (s : State) :
    Recorded [.pllcon1] [ofBits v] 0 s (fieldWritten .k2div (ofBits v) s) := by
  have hword (w : Word) : getField (setFields w [(.k2div, ofBits v)]) .k2div = ofBits v :=
    (getField_setField_same w .k2div _).trans (and_lowMask_of_lt _ _ (toNat_ofBits_lt v))
  constructor <;> simp [portWrites, k2Writes, hookCalls, acquisitions, hword, fieldReg, Config.layout]

/-! ## One pass of the ramp up -/

/-- The state after I45 and I46. -/
def upPolled (s : State) : State :=
  goto (.init .I47) <| sfrRead .pllstat <| goto (.init .I46) <| setSeqAt .steppingUp s.loopi <| acquire .safety s

@[simp] theorem currentStep_upPolled (s : State) : currentStep (upPolled s) = currentStep s := by
  simp [currentStep, upPolled]

/-- The state after I47 to I49, from I47: the step's divider is written, and the step has no hook. -/
def upRaised (s : State) : State :=
  goto (.init .I50) <| goto (.init .I49) <| release .safety <| goto (.init .I48) <|
  fieldWritten .k2div (ofBits (currentStep s).k2) s

@[simp] theorem currentStep_upRaised (s : State) : currentStep (upRaised s) = currentStep s := by
  simp [currentStep, upRaised]

/-- The state after a whole pass, I45 to I51. -/
def upPass (s : State) : State :=
  initRampNext <| waitPassed (currentStep s).wait (.init .I51) <| upRaised <| upPolled s

theorem runCommand_upPolled (hu : s.ustep = .init .I45) (hready : fieldValue s .k2rdy = 1) :
    runCommand 2 .init s = .next (upPolled s) :=
  runCommand_of_exec (exec_init hu) <|
  runCommand_of_exec ((exec_init (l := .I46) rfl).trans (pollUntil_leaves _ _ _ _ (by simpa using hready))) rfl

theorem runCommand_upRaised (hu : s.ustep = .init .I47) (hheld : s.heldSafety = true)
    (hhook : (currentStep s).hook = none) : runCommand 3 .init s = .next (upRaised s) := by
  have hgo (v : State) (hv : v.ustep = .init .I49) (hstep : currentStep v = currentStep s) (hphase : v.phase = .entry) :
      exec .init v = .next (goto (.init .I50) v) := by
    rw [exec_init hv, initStep, hstep, hhook, hookStep_none _ (by simp [hphase])]
  exact runCommand_of_exec ((exec_init hu).trans (writeFieldTo_eq_next _ _ _ rfl hheld)) <|
    runCommand_of_exec (exec_init (l := .I48) rfl) <|
    runCommand_of_exec (hgo _ rfl (by simp [currentStep]) rfl) rfl

theorem runCommand_upPass (hnone : s.between = none) (hu : s.ustep = .init .I45) (hready : fieldValue s .k2rdy = 1)
    (hhook : (currentStep s).hook = none) (hwait : NoWait s (currentStep s).wait) :
    runCommand 8 .init s = .next (upPass s) := by
  have hraise : runCommand 3 .init (upPolled s) = .next (upRaised (upPolled s)) :=
    runCommand_upRaised rfl rfl (by rw [currentStep_upPolled, hhook])
  have hwaiting : runCommand 2 .init (upRaised (upPolled s)) =
      .next (waitPassed (currentStep s).wait (.init .I51) (upRaised (upPolled s))) := by
    refine runCommand_wait _ _ (fun v hv hcfg _ hloopi => ?_) nofun (noWait_congr hwait ?_)
    · have hstep : currentStep v = currentStep s := by
        rw [currentStep, hcfg, hloopi, ← currentStep, currentStep_upRaised, currentStep_upPolled]
      rw [exec_init (l := .I50) hv, initStep, hstep]
    · simp [upRaised, upPolled, fieldsWritten_timerFreq, hnone]
  have hnext : runCommand 1 .init (waitPassed (currentStep s).wait (.init .I51) (upRaised (upPolled s))) =
      .next (upPass s) :=
    runCommand_of_exec (exec_init (l := .I51) (by simp)) rfl
  exact runCommand_trans (runCommand_upPolled hu hready) (runCommand_trans hraise (runCommand_trans hwaiting hnext))

theorem upPass_ustep (s : State) :
    (upPass s).ustep = if s.loopi + 1 < s.cfg.nsteps then .init .I45 else .init .I52 := by
  simp [upPass, upRaised, upPolled, initRampNext]

theorem upPass_loopi (s : State) : (upPass s).loopi = s.loopi + 1 := by
  simp [upPass, upRaised, upPolled, initRampNext]

theorem upPass_cfg (s : State) : (upPass s).cfg = s.cfg := by
  simp [upPass, upRaised, upPolled, initRampNext]

theorem upPass_locks (s : State) : (upPass s).heldCpu = s.heldCpu ∧ (upPass s).heldSafety = false := by
  simp [upPass, upRaised, upPolled, initRampNext]

theorem upPass_between (s : State) : (upPass s).between = none := by
  simp [upPass, upRaised, upPolled, initRampNext]

theorem upPass_timerFreq (hnone : s.between = none) : (upPass s).ext.timerFreq = s.ext.timerFreq := by
  simp [upPass, upRaised, upPolled, initRampNext, fieldsWritten_timerFreq, hnone]

theorem upPass_seq (s : State) : (upPass s).seq = .steppingUp ∧ (upPass s).seqi = s.loopi := by
  simp [upPass, upRaised, upPolled, initRampNext]

theorem fieldValue_upPass_k2div (s : State) : fieldValue (upPass s) .k2div = ofBits (currentStep s).k2 := by
  simp only [upPass, upRaised, initRampNext, fieldValue_goto, fieldValue_setLoopi, fieldValue_waitPassed,
    fieldValue_release, currentStep_upPolled]
  exact fieldValue_fieldWritten_same rfl (toNat_ofBits_lt _)

theorem otherRegsKept_upPass (hnone : s.between = none) : OtherRegsKept .pllcon1 s (upPass s) := by
  have hpolled : (upPolled s).between = none := by simp [upPolled, hnone]
  have hbefore : (upPolled s).ext = s.ext := by simp [upPolled]
  have hafter : (upPass s).ext = (fieldWritten .k2div (ofBits (currentStep s).k2) (upPolled s)).ext := by
    simp [upPass, upRaised, initRampNext]
  have hwritten := otherRegsKept_fieldsWritten .pllcon1 [(.k2div, ofBits (currentStep s).k2)] hpolled
  rw [OtherRegsKept, hbefore] at hwritten
  rwa [OtherRegsKept, hafter]

theorem recorded_upPass (s : State) : Recorded [.pllcon1] [ofBits (currentStep s).k2] 1 s (upPass s) := by
  have hpoll : Recorded [] [] 1 s (upPolled s) := by
    constructor <;> simp [upPolled, portWrites, k2Writes, hookCalls, acquisitions]
  have hwrite := recorded_k2div_written (currentStep (upPolled s)).k2 (upPolled s)
  have hleave : Recorded [] [] 0 (fieldWritten .k2div (ofBits (currentStep (upPolled s)).k2) (upPolled s))
      (upPass s) := by
    constructor <;> simp [upPass, upRaised, initRampNext, portWrites, k2Writes, hookCalls, acquisitions]
  simpa using hpoll.trans (hwrite.trans hleave)

/-! ## The whole ramp up -/

/-- What the first `k` passes of the ramp up have done since I44. -/
structure RampedUp (k : Nat) (s t : State) : Prop where
  loopi     : t.loopi = k
  ustep     : t.ustep = if k < s.cfg.nsteps then .init .I45 else .init .I52
  cpu       : t.heldCpu = s.heldCpu
  safety    : t.heldSafety = false
  between   : t.between = none
  cfg       : t.cfg = s.cfg
  timerFreq : t.ext.timerFreq = s.ext.timerFreq
  regs      : OtherRegsKept .pllcon1 s t
  last      : ∀ i, k = i + 1 →
    t.seq = .steppingUp ∧ t.seqi = i ∧ fieldValue t .k2div = ofBits (rampStep s.cfg i).k2
  recorded  : Recorded (List.replicate k .pllcon1) ((List.range k).map fun i => ofBits (rampStep s.cfg i).k2).reverse k s t

/-- At the first pass nothing is done. -/
theorem rampedUp_zero (hfree : s.heldSafety = false) (hnone : s.between = none) (hsteps : 0 < s.cfg.nsteps) :
    RampedUp 0 s (initRampStart s) where
  loopi := rfl
  ustep := by rw [initRampStart, goto_ustep, if_neg hsteps.ne', if_pos hsteps]
  cpu := rfl
  safety := hfree
  between := hnone
  cfg := rfl
  timerFreq := rfl
  regs _ _ := rfl
  last _ h := absurd h (Nat.succ_ne_zero _).symm
  recorded := by constructor <;> rfl

/-- One pass more. -/
theorem RampedUp.succ {k : Nat} (h : RampedUp k s t) : RampedUp (k + 1) s (upPass t) := by
  have hstep : currentStep t = rampStep s.cfg k := by rw [currentStep, h.cfg, h.loopi]
  have hlocks := upPass_locks t
  refine ⟨?_, ?_, hlocks.1.trans h.cpu, hlocks.2, upPass_between t, (upPass_cfg t).trans h.cfg,
    (upPass_timerFreq h.between).trans h.timerFreq, h.regs.trans (otherRegsKept_upPass h.between), fun i hi => ?_, ?_⟩
  · rw [upPass_loopi, h.loopi]
  · rw [upPass_ustep, h.loopi, h.cfg]
  · obtain rfl := Nat.succ.inj hi
    obtain ⟨hseq, hseqi⟩ := upPass_seq t
    exact ⟨hseq, hseqi.trans h.loopi, by rw [fieldValue_upPass_k2div, hstep]⟩
  · have hpass := h.recorded.trans (recorded_upPass t)
    rw [hstep] at hpass
    rw [List.replicate_succ, List.range_succ, List.map_append, List.reverse_append]
    exact hpass

/-- Every pass up to the `k`-th is made, in the order of the indices, by induction on `k`. -/
theorem exists_rampedUp (hu : s.ustep = .init .I44) (hfree : s.heldSafety = false) (hnone : s.between = none)
    (hready : fieldValue s .k2rdy = 1) (hsteps : 0 < s.cfg.nsteps)
    (hpass : ∀ i, i < s.cfg.nsteps → (rampStep s.cfg i).hook = none ∧ NoWait s (rampStep s.cfg i).wait) (k : Nat)
    (hk : k ≤ s.cfg.nsteps) : ∃ t, runCommand (1 + 8 * k) .init s = .next t ∧ RampedUp k s t := by
  induction k with
  | zero => exact ⟨initRampStart s, runCommand_of_exec (exec_init hu) rfl, rampedUp_zero hfree hnone hsteps⟩
  | succ k ih =>
    obtain ⟨t, hrun, ht⟩ := ih (Nat.le_of_succ_le hk)
    obtain ⟨hhook, hwait⟩ := hpass k hk
    have hstep : currentStep t = rampStep s.cfg k := by rw [currentStep, ht.cfg, ht.loopi]
    have hnext : runCommand 8 .init t = .next (upPass t) :=
      runCommand_upPass ht.between (by rw [ht.ustep, if_pos (Nat.lt_of_succ_le hk)])
        ((ht.regs.fieldValue_eq (by decide)).trans hready) (hstep ▸ hhook) (hstep ▸ noWait_congr hwait ht.timerFreq)
    rw [Nat.mul_succ, ← Nat.add_assoc]
    exact ⟨upPass t, runCommand_trans hrun hnext, ht.succ⟩

/-- Settles O43: `exists_rampedUp` at the number of steps, the last of which is NSTEPS - 1. -/
theorem rampUpVisitsEveryStep : Obligations.RampUpVisitsEveryStep := by
  intro s hu hfree hnone hsteps hready hpass
  obtain ⟨t, hrun, ht⟩ := exists_rampedUp hu hfree.2 hnone hready hsteps hpass s.cfg.nsteps le_rfl
  obtain ⟨hseq, hseqi, hk2⟩ := ht.last (s.cfg.nsteps - 1) (Nat.sub_add_cancel hsteps).symm
  obtain ⟨hwrites, hk2s, -, hsafety, hcpus⟩ := ht.recorded
  exact ⟨t, hrun, by rw [ht.ustep, if_neg (lt_irrefl _)], ht.loopi, ⟨ht.cpu.trans hfree.1, ht.safety⟩, hseq, hseqi, hk2,
    ht.regs, hwrites, hk2s, hsafety, hcpus⟩

end Sys2Proof.Machine
end

section
/-! What a run may touch: the fields and registers it writes, bit by bit, when the environment announces no change (20_memory R61 to
R63). One rule for each operation a µstep is made of, so that a sequence's frame is read off from the operations it comes from. -/

namespace Sys2Proof.Machine

variable {s t u : State} {r : Reg} {rs rs' : List Reg} {fs fs' : List Field}

/-! ## The bits of a field -/

/-- No bit of an rh or w1t field is an rw bit of its register. -/
theorem rwMask_of_inField {f : Field} {i : Nat} (hclass : fieldClass f ≠ .rw) (hin : InField f i) :
    (rwMask (fieldReg f)).getLsbD i = false := by
  have hmask := getField_rwMask f
  rw [if_neg hclass] at hmask
  obtain ⟨hlo, hhi⟩ := hin
  have hbit := getLsbD_getField (rwMask (fieldReg f)) f (i - (Config.layout f).lo)
  have hoff : i - (Config.layout f).lo < (Config.layout f).width := by omega
  rw [hmask, Nat.add_sub_cancel' hlo, decide_eq_true hoff, Bool.and_true] at hbit
  rw [← hbit]
  exact BitVec.getLsbD_zero

/-- A permitted write changes rw bits of its own register, and no other bit. -/
theorem getLsbD_sfrValue_sfrStore (r q : Reg) (w : Word) (s : State) {i : Nat} (hi : i < Config.regWidth) :
    (sfrValue (sfrStore r w s) q).getLsbD i =
      if q = r ∧ (rwMask r).getLsbD i = true then w.getLsbD i else (sfrValue s q).getLsbD i := by
  by_cases hq : q = r
  · subst hq
    rw [(wordWritten_sfrStore q w s).2 i hi]
    simp
  · rw [if_neg (fun h => hq h.1), sfrValue_sfrStore_other r q w s hq]

/-! ## What a run may touch -/

/-- Between `s` and `t` nothing was written but the fields `fs` and rw bits of the registers `rs`; the banks, CMD, RES and the
timer's frequency stay, and no change is announced. -/
structure OnlyTouches (rs : List Reg) (fs : List Field) (s t : State) : Prop where
  bits      : ∀ q i, i < Config.regWidth → (q ∈ rs → (rwMask q).getLsbD i = false) →
    (∀ f ∈ fs, fieldReg f = q → ¬ InField f i) → (sfrValue t q).getLsbD i = (sfrValue s q).getLsbD i
  between   : t.between = none
  timerFreq : t.ext.timerFreq = s.ext.timerFreq
  cfg       : t.cfg = s.cfg
  ecfg      : t.ecfg = s.ecfg
  cmd       : t.cmd = s.cmd
  res       : t.res = s.res

namespace OnlyTouches

theorem refl (hnone : s.between = none) : OnlyTouches rs fs s s where
  bits _ _ _ _ _ := rfl
  between := hnone
  timerFreq := rfl
  cfg := rfl
  ecfg := rfl
  cmd := rfl
  res := rfl

theorem trans (h : OnlyTouches rs fs s t) (h' : OnlyTouches rs' fs' t u) : OnlyTouches (rs ++ rs') (fs ++ fs') s u where
  bits q i hi hq hf :=
    (h'.bits q i hi (fun hm => hq (List.mem_append_right _ hm)) fun f hm => hf f (List.mem_append_right _ hm)).trans
      (h.bits q i hi (fun hm => hq (List.mem_append_left _ hm)) fun f hm => hf f (List.mem_append_left _ hm))
  between := h'.between
  timerFreq := h'.timerFreq.trans h.timerFreq
  cfg := h'.cfg.trans h.cfg
  ecfg := h'.ecfg.trans h.ecfg
  cmd := h'.cmd.trans h.cmd
  res := h'.res.trans h.res

/-- A register not written reads as before. -/
theorem sfrValue_eq (h : OnlyTouches rs fs s t) {q : Reg} (hq : q ∉ rs) (hf : ∀ f ∈ fs, fieldReg f ≠ q) :
    sfrValue t q = sfrValue s q :=
  BitVec.eq_of_getLsbD_eq fun i hi => h.bits q i hi (fun hm => absurd hm hq) fun f hm hr => absurd hr (hf f hm)

/-- A field not written reads as before; in a register written as a whole this holds of every rh field. -/
theorem fieldValue_eq (h : OnlyTouches rs fs s t) {g : Field} (hg : g ∉ fs)
    (hreg : fieldReg g ∈ rs → fieldClass g ≠ .rw) : fieldValue t g = fieldValue s g := by
  refine BitVec.eq_of_getLsbD_eq fun j hj => ?_
  rw [fieldValue, fieldValue, getLsbD_getField, getLsbD_getField]
  by_cases hwidth : j < (Config.layout g).width
  · have hfits := layout_fits g
    have hin : InField g ((Config.layout g).lo + j) := ⟨by omega, by omega⟩
    have hout : ∀ f ∈ fs, fieldReg f = fieldReg g → ¬ InField f ((Config.layout g).lo + j) := by
      rintro f hf hr ⟨hlo, hhi⟩
      have hne : f ≠ g := fun h => hg (h ▸ hf)
      have := layout_disjoint f g hr hne
      omega
    rw [h.bits _ _ (by omega) (fun hm => rwMask_of_inField (hreg hm) hin) hout]
  · rw [decide_eq_false hwidth, Bool.and_false, Bool.and_false]

/-- An operation that writes no register. -/
theorem of_ext_eq (h : OnlyTouches rs fs s t) (hext : u.ext = t.ext) (hbetween : u.between = t.between)
    (hcfg : u.cfg = t.cfg) (hecfg : u.ecfg = t.ecfg) (hcmd : u.cmd = t.cmd) (hres : u.res = t.res) :
    OnlyTouches rs fs s u where
  bits q i hi hq hf := by rw [sfrValue_congr u t hext, h.bits q i hi hq hf]
  between := hbetween.trans h.between
  timerFreq := by rw [hext, h.timerFreq]
  cfg := hcfg.trans h.cfg
  ecfg := hecfg.trans h.ecfg
  cmd := hcmd.trans h.cmd
  res := hres.trans h.res

theorem goto {l : UStep} (h : OnlyTouches rs fs s t) : OnlyTouches rs fs s (goto l t) :=
  h.of_ext_eq rfl rfl rfl rfl rfl rfl

theorem setSeq {n : SeqName} (h : OnlyTouches rs fs s t) : OnlyTouches rs fs s (setSeq n t) :=
  h.of_ext_eq rfl rfl rfl rfl rfl rfl

theorem setLoopi {n : Nat} (h : OnlyTouches rs fs s t) : OnlyTouches rs fs s (setLoopi n t) :=
  h.of_ext_eq rfl rfl rfl rfl rfl rfl

theorem setPollcnt {n : Nat} (h : OnlyTouches rs fs s t) : OnlyTouches rs fs s (setPollcnt n t) :=
  h.of_ext_eq rfl rfl rfl rfl rfl rfl

theorem setOscok {b : Bool} (h : OnlyTouches rs fs s t) : OnlyTouches rs fs s (setOscok b t) :=
  h.of_ext_eq rfl rfl rfl rfl rfl rfl

theorem sfrRead (h : OnlyTouches rs fs s t) : OnlyTouches rs fs s (sfrRead r t) :=
  h.of_ext_eq rfl rfl rfl rfl rfl rfl

theorem sampled {k : Nat} (h : OnlyTouches rs fs s t) : OnlyTouches rs fs s (sampled r k t) :=
  h.of_ext_eq rfl rfl rfl rfl rfl rfl

theorem acquire {d : Domain} (h : OnlyTouches rs fs s t) : OnlyTouches rs fs s (acquire d t) :=
  h.of_ext_eq (by simp) (by simp) (by simp) (by simp) (by simp) (by simp)

theorem release {d : Domain} (h : OnlyTouches rs fs s t) : OnlyTouches rs fs s (release d t) :=
  h.of_ext_eq (by simp) (by simp) (by simp) (by simp) (by simp) (by simp)

theorem saveTrap {l : UStep} (h : OnlyTouches rs fs s t) : OnlyTouches rs fs s (saveTrap l t) :=
  h.of_ext_eq rfl rfl rfl rfl rfl rfl

theorem waitPassed {q : Q} {l : UStep} (h : OnlyTouches rs fs s t) : OnlyTouches rs fs s (waitPassed q l t) :=
  h.of_ext_eq (by simp) (by simp) (by simp) (by simp) (by rw [waitPassed_frame]) (by simp)

/-- A whole-word write touches its register. -/
theorem store {w : Word} (hr : r ∈ rs) (h : OnlyTouches rs fs s t) : OnlyTouches rs fs s (sfrStore r w t) where
  bits q i hi hq hf := by
    rw [getLsbD_sfrValue_sfrStore r q w t hi, if_neg ?_, h.bits q i hi hq hf]
    rintro ⟨rfl, hrw⟩
    exact absurd (hrw.symm.trans (hq hr)) (by decide)
  between := h.between
  timerFreq := h.timerFreq
  cfg := h.cfg
  ecfg := h.ecfg
  cmd := h.cmd
  res := h.res

/-- With no change announced the read between is only recorded. -/
theorem midway_sfrRead (h : OnlyTouches rs fs s t) : OnlyTouches rs fs s (midway (Machine.sfrRead r t)) := by
  rw [midway_of_none (Machine.sfrRead r t) h.between]
  exact h.sfrRead

/-- A write of listed fields touches those fields. -/
theorem fields {l : List (Field × Word)} (hl : ∀ p ∈ l, fieldReg p.1 = r ∧ p.1 ∈ fs) (h : OnlyTouches rs fs s t) :
    OnlyTouches rs fs s (fieldsWritten r l t) := by
  have hread : OnlyTouches rs fs s (midway (Machine.sfrRead r t)) := h.midway_sfrRead
  refine ⟨fun q i hi hq hf => ?_, rfl, hread.timerFreq, hread.cfg, hread.ecfg, hread.cmd, hread.res⟩
  rw [fieldsWritten, getLsbD_sfrValue_sfrStore r q _ _ hi]
  split
  next hin =>
    obtain ⟨rfl, _⟩ := hin
    rw [getLsbD_setFields_outside l _ i fun p hp => hf p.1 (hl p hp).2 (hl p hp).1, h.bits q i hi hq hf]
  next => exact hread.bits q i hi hq hf

theorem field {f : Field} {v : Word} (hf : f ∈ fs) (h : OnlyTouches rs fs s t) :
    OnlyTouches rs fs s (fieldWritten f v t) :=
  h.fields (List.forall_mem_singleton.mpr ⟨rfl, hf⟩)

end OnlyTouches

/-! ## A masked merge -/

/-- The state after a masked merge with the listed fields forced. -/
def pairMerged (r : Reg) (p : Pair) (forced : List (Field × Word)) (s : State) : State :=
  sfrStore r (setFields (merge (sfrValue s r) p) forced) (midway (sfrRead r s))

theorem mergeWriteTo_eq_next {d : Domain} (p : Pair) (forced : List (Field × Word)) (l : UStep)
    (hdomain : regDomain r = some d) (hheld : held s d = true) :
    mergeWriteTo r p forced l s = .next (goto l (pairMerged r p forced s)) :=
  mergeWriteTo_of_held r p forced l s d hdomain hheld

/-- It touches the register it merges into. -/
theorem OnlyTouches.merge {p : Pair} {forced : List (Field × Word)} (hr : r ∈ rs) (h : OnlyTouches rs fs s t) :
    OnlyTouches rs fs s (pairMerged r p forced t) :=
  h.midway_sfrRead.store hr

/-- An rw bit in no forced field is the merge's. -/
theorem getLsbD_sfrValue_pairMerged (p : Pair) (forced : List (Field × Word)) (s : State) {i : Nat}
    (hi : i < Config.regWidth) (hrw : (rwMask r).getLsbD i = true) (hout : ∀ q ∈ forced, ¬ InField q.1 i) :
    (sfrValue (pairMerged r p forced s) r).getLsbD i = (merge (sfrValue s r) p).getLsbD i := by
  rw [pairMerged, getLsbD_sfrValue_sfrStore r r _ _ hi, if_pos ⟨rfl, hrw⟩, getLsbD_setFields_outside forced _ i hout]

/-- The first forced field reads back as forced. -/
theorem fieldValue_pairMerged_head {p : Pair} {forced : List (Field × Word)} {f : Field} {v : Word}
    (hreg : ∀ q ∈ (f, v) :: forced, fieldReg q.1 = r) (hrw : fieldClass f = .rw) (hf : f ∉ forced.map Prod.fst)
    (hfits : v.toNat < 2 ^ (Config.layout f).width) :
    fieldValue (pairMerged r p ((f, v) :: forced) s) f = v := by
  obtain ⟨hr, hrest⟩ := List.forall_mem_cons.mp hreg
  rw [pairMerged, fieldValue_sfrStore, if_pos ⟨hr, hrw⟩, setFields_cons,
    getField_setFields_other forced _ f (fun q hq => (hrest q hq).trans hr.symm) hf, getField_setField_same,
    and_lowMask_of_lt v _ hfits]

/-- A merge between writes of its own forced fields and writes elsewhere: each rw bit in no forced field is at the end what the
merge gives over the word at the start. -/
theorem OnlyTouches.getLsbD_of_merged {p : Pair} {forced : List (Field × Word)} (h : OnlyTouches rs fs s t)
    (h' : OnlyTouches rs' fs' (pairMerged r p forced t) u) (hregs : r ∉ rs ∧ r ∉ rs')
    (hfields : ∀ f ∈ fs ++ fs', fieldReg f = r → f ∈ forced.map Prod.fst) {i : Nat} (hi : i < Config.regWidth)
    (hrw : (rwMask r).getLsbD i = true) (hout : ∀ q ∈ forced, ¬ InField q.1 i) :
    (sfrValue u r).getLsbD i = (Machine.merge (sfrValue s r) p).getLsbD i := by
  have houtside : ∀ f ∈ fs ++ fs', fieldReg f = r → ¬ InField f i := by
    intro f hf hr
    obtain ⟨q, hq, rfl⟩ := List.mem_map.mp (hfields f hf hr)
    exact hout q hq
  have hbefore := h.bits r i hi (fun hm => absurd hm hregs.1) fun f hf => houtside f (List.mem_append_left _ hf)
  have hafter := h'.bits r i hi (fun hm => absurd hm hregs.2) fun f hf => houtside f (List.mem_append_right _ hf)
  rw [hafter, getLsbD_sfrValue_pairMerged p forced t hi hrw hout, getLsbD_merge _ p i hi, getLsbD_merge _ p i hi, hbefore]

/-- A forced trigger needs no care: its bits are not rw. -/
theorem not_inField_of_rw {f : Field} {i : Nat} (hclass : fieldClass f ≠ .rw)
    (hrw : (rwMask (fieldReg f)).getLsbD i = true) : ¬ InField f i := fun hin =>
  absurd ((rwMask_of_inField hclass hin).symm.trans hrw) (by decide)

end Sys2Proof.Machine
end

section
/-! INIT up to the verdict of the oscillator check, and from its clean-up on (41_sequencer_init R132 to R144, R183 to R187): the
parts both ways through INIT share, and the way of the failed check. The states are written as the operations they come from. -/

namespace Sys2Proof.Machine

variable {s t u : State}

/-! ## To the oscillator check -/

/-- The state after I1 to I4: the trap enable is saved and cleared. -/
def initTrapCleared (s : State) : State :=
  goto (.init .I5) <| release .safety <| goto (.init .I4) <| fieldWritten .ulten 0 <|
  goto (.init .I3) <| acquire .safety <| saveTrap (.init .I2) s

/-- The state after I5 to I7: the backup clock is selected. -/
def initBackupSelected (s : State) : State :=
  goto (.init .I8) <| setSeq .backupClock <| sfrRead .ccucon0 <|
  goto (.init .I7) <| fieldsWritten .ccucon0 [(.clksel, Config.encBackup), (.up0, 1)] <|
  goto (.init .I6) <| acquire .safety s

/-- The state after I8 to I10: the PLL is disconnected, the oscillator is its input. -/
def oscSelected (s : State) : State :=
  goto (.init .I11) <| setSeq .pllBypassConfigured <| sfrRead .ccucon1 <|
  goto (.init .I10) <| fieldsWritten .ccucon1 [(.insel, Config.encOsc), (.up1, 1)] <|
  goto (.init .I9) <| fieldWritten .setfindis 1 s

/-- The state after I1 to I10. -/
def initPrepared (s : State) : State := oscSelected <| initBackupSelected <| initTrapCleared s

theorem runCommand_initTrapCleared (hidle : s.ustep = .idle) : runCommand 4 .init s = .next (initTrapCleared s) :=
  runCommand_of_exec (exec_init_of_idle hidle) <|
  runCommand_of_exec (exec_init (l := .I2) rfl) <|
  runCommand_of_exec ((exec_init (l := .I3) rfl).trans (writeFieldTo_eq_next _ _ _ rfl rfl)) <|
  runCommand_of_exec (exec_init (l := .I4) rfl) rfl

theorem onlyTouches_initTrapCleared (hnone : s.between = none) : OnlyTouches [] [.ulten] s (initTrapCleared s) :=
  .goto <| .release <| .goto <| .field (by decide) <| .goto <| .acquire <| .saveTrap <| .refl hnone

theorem runCommand_initBackupSelected (hnone : s.between = none) (hu : s.ustep = .init .I5)
    (hready : fieldValue s .lck0 = 0) : runCommand 3 .init s = .next (initBackupSelected s) := by
  have hwritten : OnlyTouches [] [.clksel, .up0] s
      (goto (.init .I7) <| fieldsWritten .ccucon0 [(.clksel, Config.encBackup), (.up0, 1)] <|
        goto (.init .I6) <| acquire .safety s) :=
    .goto <| .fields (by decide) <| .goto <| .acquire <| .refl hnone
  have hpoll := (hwritten.fieldValue_eq (g := .lck0) (by decide) (by decide)).trans hready
  exact runCommand_of_exec (exec_init hu) <|
    runCommand_of_exec ((exec_init (l := .I6) rfl).trans (writeFieldsTo_eq_next _ _ rfl rfl)) <|
    runCommand_of_exec ((exec_init (l := .I7) rfl).trans (pollUntil_leaves _ _ (fun v => goto _ (setSeq _ v)) _ hpoll)) rfl

theorem onlyTouches_initBackupSelected (hnone : s.between = none) :
    OnlyTouches [] [.clksel, .up0] s (initBackupSelected s) :=
  .goto <| .setSeq <| .sfrRead <| .goto <| .fields (by decide) <| .goto <| .acquire <| .refl hnone

theorem fieldValue_initBackupSelected_clksel (s : State) :
    fieldValue (initBackupSelected s) .clksel = Config.encBackup := by
  simp only [initBackupSelected, fieldValue_goto, fieldValue_setSeq, fieldValue_sfrRead]
  exact fieldValue_fieldsWritten_head fieldReg_of_selection rfl (by decide) (by decide)

theorem runCommand_oscSelected (hnone : s.between = none) (hu : s.ustep = .init .I8) (hheld : s.heldSafety = true)
    (hready : fieldValue s .lck1 = 0) : runCommand 3 .init s = .next (oscSelected s) := by
  have hwritten : OnlyTouches [] [.setfindis, .insel, .up1] s
      (goto (.init .I10) <| fieldsWritten .ccucon1 [(.insel, Config.encOsc), (.up1, 1)] <|
        goto (.init .I9) <| fieldWritten .setfindis 1 s) :=
    .goto <| .fields (by decide) <| .goto <| .field (by decide) <| .refl hnone
  have hpoll := (hwritten.fieldValue_eq (g := .lck1) (by decide) (by decide)).trans hready
  exact runCommand_of_exec ((exec_init hu).trans (writeFieldTo_eq_next _ _ _ rfl hheld)) <|
    runCommand_of_exec ((exec_init (l := .I9) rfl).trans (writeFieldsTo_eq_next _ _ rfl (by simp [hheld]))) <|
    runCommand_of_exec ((exec_init (l := .I10) rfl).trans (pollUntil_leaves _ _ (fun v => goto _ (setSeq _ v)) _ hpoll)) rfl

theorem onlyTouches_oscSelected (hnone : s.between = none) :
    OnlyTouches [] [.setfindis, .insel, .up1] s (oscSelected s) :=
  .goto <| .setSeq <| .sfrRead <| .goto <| .fields (by decide) <| .goto <| .field (by decide) <| .refl hnone

theorem fieldValue_oscSelected_insel (s : State) : fieldValue (oscSelected s) .insel = Config.encOsc := by
  simp only [oscSelected, fieldValue_goto, fieldValue_setSeq, fieldValue_sfrRead]
  exact fieldValue_fieldsWritten_head (by decide) rfl (by decide) (by decide)

theorem onlyTouches_initPrepared (hnone : s.between = none) :
    OnlyTouches [] [.ulten, .clksel, .up0, .setfindis, .insel, .up1] s (initPrepared s) :=
  have htrap := onlyTouches_initTrapCleared hnone
  have hbackup := onlyTouches_initBackupSelected htrap.between
  (htrap.trans hbackup).trans (onlyTouches_oscSelected hbackup.between)

/-- I1 to I10, the lock-busy flags clear. -/
theorem runCommand_initPrepared (hnone : s.between = none) (hidle : s.ustep = .idle) (hdist : DistributionIdle s) :
    runCommand 10 .init s = .next (initPrepared s) := by
  obtain ⟨hlck0, hlck1, -, -⟩ := hdist
  have htrap := onlyTouches_initTrapCleared hnone
  have hbackup := onlyTouches_initBackupSelected htrap.between
  have hlck0' := (htrap.fieldValue_eq (g := .lck0) (by decide) (by decide)).trans hlck0
  have hlck1' := ((htrap.trans hbackup).fieldValue_eq (g := .lck1) (by decide) (by decide)).trans hlck1
  have hselect := runCommand_initBackupSelected htrap.between rfl hlck0'
  have hosc := runCommand_oscSelected hbackup.between rfl (by simp [initBackupSelected]) hlck1'
  exact runCommand_trans (runCommand_initTrapCleared hidle) (runCommand_trans hselect hosc)

theorem fieldValue_initPrepared_clksel (hnone : s.between = none) :
    fieldValue (initPrepared s) .clksel = Config.encBackup := by
  have hosc := onlyTouches_oscSelected
    (onlyTouches_initBackupSelected (onlyTouches_initTrapCleared hnone).between).between
  exact (hosc.fieldValue_eq (by decide) (by decide)).trans (fieldValue_initBackupSelected_clksel _)

theorem initPrepared_heldCpu (s : State) : (initPrepared s).heldCpu = s.heldCpu := by
  simp [initPrepared, oscSelected, initBackupSelected, initTrapCleared]

theorem initPrepared_seq (s : State) : (initPrepared s).seq = .pllBypassConfigured := by
  simp [initPrepared, oscSelected]

theorem initPrepared_savedTrap (s : State) : (initPrepared s).savedTrap = decide (fieldValue s .ulten = 1) := by
  simp [initPrepared, oscSelected, initBackupSelected, initTrapCleared]

theorem recorded_initPrepared (s : State) :
    Recorded [.ccucon1, .pllcon0, .ccucon0, .trapctl] [] 2 s (initPrepared s) := by
  constructor <;>
    simp [initPrepared, oscSelected, initBackupSelected, initTrapCleared, portWrites, k2Writes, hookCalls, acquisitions,
      fieldReg, Config.layout]

theorem timerReads_initPrepared (s : State) : timerReads (initPrepared s).port = timerReads s.port := by
  simp [initPrepared, oscSelected, initBackupSelected, initTrapCleared, timerReads]

/-! ## The verdict -/

/-- The state after I12 and I13: the verdict chooses between the PLL and the clean-up. -/
def oscJudged (s : State) : State :=
  goto (if s.oscok then .init .I14 else .init .I52) <| goto (.init .I13) <| release .safety s

theorem runCommand_oscJudged (hu : s.ustep = .init .I12) : runCommand 2 .init s = .next (oscJudged s) := by
  refine runCommand_of_exec (exec_init hu) <| runCommand_of_exec (exec_init (l := .I13) rfl) ?_
  simp [runCommand, oscJudged]

theorem onlyTouches_oscJudged (hnone : s.between = none) : OnlyTouches [] [] s (oscJudged s) :=
  .goto <| .goto <| .release <| .refl hnone

theorem recorded_oscJudged (s : State) : Recorded [] [] 0 s (oscJudged s) := by
  constructor <;> simp [oscJudged, portWrites, k2Writes, hookCalls, acquisitions]

/-! ## The clean-up -/

/-- The state after I52 and I53. -/
def oscDiscReset (s : State) : State :=
  goto (.init .I54) <| fieldWritten .oscdiscdis 0 <| goto (.init .I53) <| acquire .safety s

/-- The state after I54 and I55: the trap enable is as it was saved. -/
def trapRestored (s : State) : State :=
  goto (.init .I56) <| release .safety <| goto (.init .I55) <| fieldWritten .ulten (ofFlag s.savedTrap) s

/-- The state after I52 to I56. -/
def initCleaned (s : State) : State := initResult <| trapRestored <| oscDiscReset s

theorem runCommand_initCleaned (hu : s.ustep = .init .I52) : runCommand 5 .init s = .next (initCleaned s) :=
  runCommand_of_exec (exec_init hu) <|
  runCommand_of_exec ((exec_init (l := .I53) rfl).trans (writeFieldTo_eq_next _ _ _ rfl rfl)) <|
  runCommand_of_exec ((exec_init (s := oscDiscReset s) (l := .I54) rfl).trans
    (writeFieldTo_eq_next _ _ _ rfl (by simp [oscDiscReset]))) <|
  runCommand_of_exec (exec_init (l := .I55) rfl) <|
  runCommand_of_exec (exec_init (s := trapRestored (oscDiscReset s)) (l := .I56) rfl) rfl

theorem initResult_eq (s : State) :
    initResult s = { s with
      fail := !s.oscok, err := if s.oscok then 0 else 2, seq := if s.oscok then .steadyState else s.seq,
      ustep := .idle, phase := .entry, busy := false } := by
  cases h : s.oscok <;> simp [initResult, h, finish, setResult, setSeq, errOk, errOscUnstable]

theorem OnlyTouches.initResult {rs : List Reg} {fs : List Field} (h : OnlyTouches rs fs s t) :
    OnlyTouches rs fs s (initResult t) := by
  rw [initResult_eq]
  exact h.of_ext_eq rfl rfl rfl rfl rfl rfl

theorem onlyTouches_oscDiscReset (hnone : s.between = none) : OnlyTouches [] [.oscdiscdis] s (oscDiscReset s) :=
  .goto <| .field (by decide) <| .goto <| .acquire <| .refl hnone

theorem onlyTouches_trapRestored (hnone : s.between = none) : OnlyTouches [] [.ulten] s (trapRestored s) :=
  .goto <| .release <| .goto <| .field (by decide) <| .refl hnone

theorem onlyTouches_initCleaned (hnone : s.between = none) : OnlyTouches [] [.oscdiscdis, .ulten] s (initCleaned s) :=
  have hreset := onlyTouches_oscDiscReset hnone
  (hreset.trans (onlyTouches_trapRestored hreset.between)).initResult

theorem fieldValue_initCleaned (s : State) (g : Field) :
    fieldValue (initCleaned s) g = fieldValue (trapRestored (oscDiscReset s)) g := by
  rw [initCleaned, initResult_eq]
  rfl

theorem fieldValue_initCleaned_ulten (s : State) : fieldValue (initCleaned s) .ulten = ofFlag s.savedTrap := by
  have hsaved : (oscDiscReset s).savedTrap = s.savedTrap := by simp [oscDiscReset]
  simp only [fieldValue_initCleaned, trapRestored, fieldValue_goto, fieldValue_release, hsaved]
  exact fieldValue_fieldWritten_same rfl (toNat_ofFlag_lt _)

theorem fieldValue_initCleaned_oscdiscdis (hnone : s.between = none) : fieldValue (initCleaned s) .oscdiscdis = 0 := by
  have hrestore := onlyTouches_trapRestored (onlyTouches_oscDiscReset hnone).between
  rw [fieldValue_initCleaned, hrestore.fieldValue_eq (by decide) (by decide), oscDiscReset, fieldValue_goto]
  exact fieldValue_fieldWritten_same rfl (by decide)

@[simp] theorem fieldsWritten_oscok (r : Reg) (fs : List (Field × Word)) (s : State) :
    (fieldsWritten r fs s).oscok = s.oscok := by
  rw [fieldsWritten_frame]

/-- How INIT ends: the verdict gives the result, and no lock of SAFETY is held. -/
theorem initCleaned_frame (s : State) :
    let t := initCleaned s
    t.busy = false ∧ t.ustep = .idle ∧ t.fail = !s.oscok ∧ t.err = (if s.oscok then 0 else 2) ∧
      t.seq = (if s.oscok then .steadyState else s.seq) ∧ t.heldCpu = s.heldCpu ∧ t.heldSafety = false := by
  simp [initCleaned, initResult_eq, trapRestored, oscDiscReset]

theorem recorded_initCleaned (s : State) : Recorded [.trapctl, .pllcon0] [] 1 s (initCleaned s) := by
  constructor <;>
    simp [initCleaned, initResult_eq, trapRestored, oscDiscReset, portWrites, k2Writes, hookCalls, acquisitions, fieldReg,
      Config.layout]

theorem timerReads_initCleaned (s : State) : timerReads (initCleaned s).port = timerReads s.port := by
  simp [initCleaned, initResult_eq, trapRestored, oscDiscReset, timerReads]

/-! ## The oscillator is never stable -/

/-- The state after a pass of the oscillator check that fails and is not the last. -/
def oscMissed (s : State) : State := setPhase .looping <| setPollcnt (failedPolls s + 1) <| sfrRead .osccon s

theorem failedPolls_oscMissed (s : State) : failedPolls (oscMissed s) = failedPolls s + 1 := by
  rw [failedPolls, oscMissed]
  simp [setPollcnt, setPhase]

/-- The state after `k` failed passes of the oscillator check the last of which has spent the budget. -/
def oscGivenUp (k : Nat) (s : State) : State :=
  goto (.init .I12) <| setOscok false <| setPollcnt Config.oscStableBudget <| sampled .osccon k s

theorem oscGivenUp_oscMissed (k : Nat) (s : State) : oscGivenUp k (oscMissed s) = oscGivenUp (k + 1) s := by
  have hphase : oscGivenUp k (oscMissed s) = oscGivenUp k (sfrRead .osccon s) := by
    simp only [oscGivenUp, oscMissed, sampled, sfrValue_setPhase, sfrValue_setPollcnt]
    rfl
  rw [hphase, oscGivenUp, sampled_sfrRead, oscGivenUp]

/-- All the passes of the oscillator check that are left, each failing: the last one ends the check. -/
theorem runCommand_oscGivenUp (k : Nat) (hu : s.ustep = .init .I11) (hosc : ¬ OscStable s)
    (hleft : failedPolls s + (k + 1) = Config.oscStableBudget) :
    runCommand (k + 1) .init s = .next (oscGivenUp (k + 1) s) := by
  induction k generalizing s with
  | zero =>
    refine runCommand_of_exec ((exec_init hu).trans (boundedPoll_of_last hosc hleft)) ?_
    rw [oscGivenUp, ← hleft]
    rfl
  | succ k ih =>
    have hmore : failedPolls s + 1 ≠ Config.oscStableBudget := by omega
    have hpass : exec .init s = .next (oscMissed s) := (exec_init hu).trans (boundedPoll_of_failed hosc hmore)
    have hleft' : failedPolls (oscMissed s) + (k + 1) = Config.oscStableBudget := by
      rw [failedPolls_oscMissed]
      omega
    rw [← oscGivenUp_oscMissed]
    exact runCommand_of_exec hpass (ih (s := oscMissed s) hu hosc hleft')

theorem onlyTouches_oscGivenUp (k : Nat) (hnone : s.between = none) : OnlyTouches [] [] s (oscGivenUp k s) :=
  .goto <| .setOscok <| .setPollcnt <| .sampled <| .refl hnone

theorem recorded_oscGivenUp (k : Nat) (s : State) : Recorded [] [] 0 s (oscGivenUp k s) := by
  constructor <;> simp [oscGivenUp, sampled, portWrites, k2Writes, hookCalls, acquisitions]

/-- The end of INIT from the last failed pass. -/
def initFailed (k : Nat) (s : State) : State := initCleaned <| oscJudged <| oscGivenUp k s

theorem runCommand_initFailed (k : Nat) (hu : s.ustep = .init .I11) (hosc : ¬ OscStable s)
    (hleft : failedPolls s + (k + 1) = Config.oscStableBudget) :
    runCommand (k + 1 + 7) .init s = .next (initFailed (k + 1) s) := by
  have hjudged := runCommand_oscJudged (s := oscGivenUp (k + 1) s) rfl
  have hcleaned := runCommand_initCleaned (s := oscJudged (oscGivenUp (k + 1) s)) rfl
  exact runCommand_trans (runCommand_oscGivenUp k hu hosc hleft) (runCommand_trans hjudged hcleaned)

/-- How INIT ends after a failed check. -/
theorem initFailed_frame (k : Nat) (s : State) :
    let t := initFailed k s
    t.busy = false ∧ t.ustep = .idle ∧ t.fail = true ∧ t.err = 2 ∧ t.seq = s.seq ∧ t.heldCpu = s.heldCpu ∧
      t.heldSafety = false := by
  obtain ⟨hok, hseq, hcpu⟩ : (oscJudged (oscGivenUp k s)).oscok = false ∧ (oscJudged (oscGivenUp k s)).seq = s.seq ∧
      (oscJudged (oscGivenUp k s)).heldCpu = s.heldCpu := by
    simp [oscJudged, oscGivenUp, sampled]
  simpa only [initFailed, hok, hseq, hcpu, Bool.not_false, Bool.false_eq_true, if_false] using
    initCleaned_frame (oscJudged (oscGivenUp k s))

theorem fieldValue_initFailed_ulten (k : Nat) (s : State) : fieldValue (initFailed k s) .ulten = ofFlag s.savedTrap := by
  rw [initFailed, fieldValue_initCleaned_ulten]
  simp [oscJudged, oscGivenUp, sampled]

theorem fieldValue_initFailed_oscdiscdis (k : Nat) (hnone : s.between = none) :
    fieldValue (initFailed k s) .oscdiscdis = 0 :=
  fieldValue_initCleaned_oscdiscdis (onlyTouches_oscJudged (onlyTouches_oscGivenUp k hnone).between).between

theorem onlyTouches_initFailed (k : Nat) (hnone : s.between = none) :
    OnlyTouches [] [.oscdiscdis, .ulten] s (initFailed k s) :=
  have hspent := onlyTouches_oscGivenUp k hnone
  have hjudged := onlyTouches_oscJudged hspent.between
  (hspent.trans hjudged).trans (onlyTouches_initCleaned hjudged.between)

theorem recorded_initFailed (k : Nat) (s : State) : Recorded [.trapctl, .pllcon0] [] 1 s (initFailed k s) :=
  ((recorded_oscGivenUp k s).trans (recorded_oscJudged _)).trans (recorded_initCleaned _)

theorem timerReads_initFailed (k : Nat) (s : State) : timerReads (initFailed k s).port = timerReads s.port := by
  rw [initFailed, timerReads_initCleaned]
  simp [oscJudged, oscGivenUp, sampled, timerReads]

/-- The registers neither the preparation nor the clean-up writes. -/
theorem fieldReg_of_initFailed :
    ∀ r ∈ ([.pllcon1, .ccucon2, .ccucon5, .ccucon6, .ccucon7, .ccucon8, .fcon, .plleraycon0, .plleraycon1] : List Reg),
      ∀ f ∈ [Field.ulten, .clksel, .up0, .setfindis, .insel, .up1] ++ [.oscdiscdis, .ulten], fieldReg f ≠ r := by
  decide

/-- Settles O42: ten µsteps to the check, the budget's passes, seven µsteps to the end. -/
theorem initFailsCleanlyWhenOscillatorUnstable : Obligations.InitFailsCleanlyWhenOscillatorUnstable := by
  intro s hidle hfree hnone hdist hosc
  have hprep := onlyTouches_initPrepared hnone
  have hosc' : ¬ OscStable (initPrepared s) := by
    rwa [OscStable, hprep.sfrValue_eq (by decide) (by decide)]
  have hfirst : failedPolls (initPrepared s) + (Config.oscStableBudgetLessOne + 1) = Config.oscStableBudget :=
    Nat.zero_add _
  have hfailed := runCommand_initFailed Config.oscStableBudgetLessOne rfl hosc' hfirst
  have hcount : 17 + Config.oscStableBudget = 10 + (Config.oscStableBudgetLessOne + 1 + 7) := by
    rw [Config.oscStableBudget]
    omega
  rw [hcount]
  refine ⟨_, runCommand_trans (runCommand_initPrepared hnone hidle hdist) hfailed, ?_⟩
  generalize Config.oscStableBudgetLessOne + 1 = k
  have hend := onlyTouches_initFailed k hprep.between
  have hall := hprep.trans hend
  obtain ⟨hbusy, hustep, hfail, herr, hseq, hcpu, hsafety⟩ := initFailed_frame k (initPrepared s)
  obtain ⟨hwrites, -, hhooks, hacquired, hacquiredCpu⟩ := (recorded_initPrepared s).trans (recorded_initFailed k _)
  refine ⟨hbusy, hustep, hfail, herr, hseq.trans (initPrepared_seq s),
    ⟨hcpu.trans ((initPrepared_heldCpu s).trans hfree.1), hsafety⟩, hwrites, hacquired, hacquiredCpu, ?_, hhooks,
    ?_, ?_, ?_, fieldValue_initFailed_oscdiscdis k hprep.between, hall.fieldValue_eq (by decide) (by decide),
    hall.fieldValue_eq (by decide) (by decide), fun r hr => hall.sfrValue_eq (by simp) (fieldReg_of_initFailed r hr),
    hall.cfg, hall.ecfg, hall.res⟩
  · rw [timerReads_initFailed, timerReads_initPrepared]
  · rw [hend.fieldValue_eq (by decide) (by decide), fieldValue_initPrepared_clksel hnone]
  · rw [hend.fieldValue_eq (by decide) (by decide), initPrepared, fieldValue_oscSelected_insel]
  · rw [fieldValue_initFailed_ulten, initPrepared_savedTrap, ofFlag_fieldValue s rfl]

end Sys2Proof.Machine
end

section
/-! INIT with a stable oscillator (41_sequencer_init R142 to R175): the PLL is programmed and locked, the distribution and the
flash wait states are merged, and with no ramp step the command ends in SteadyState. -/

namespace Sys2Proof.Machine

variable {s t u : State}

/-! ## Step 6: the PLL -/

/-- The state after I11 with both oscillator flags seen. -/
def oscSeen (s : State) : State :=
  goto (.init .I12) <| setOscok true <| setPollcnt (failedPolls s) <| sfrRead .osccon s

/-- The state after I14 to I18. -/
def pllProgrammed (s : State) : State :=
  goto (.init .I19) <| fieldWritten .ndiv (ofBits s.cfg.initN) <|
  goto (.init .I18) <| fieldWritten .pdiv (ofBits s.cfg.initP) <|
  goto (.init .I17) <| fieldWritten .k2div (ofBits s.cfg.initK2) <|
  goto (.init .I16) <| sfrRead .pllstat <| goto (.init .I15) <| acquire .safety s

/-- The state after I19 to I23. -/
def pllStarted (s : State) : State :=
  goto (.init .I24) <| setSeq .pllLocking <| fieldWritten .resld 1 <|
  goto (.init .I23) <| fieldWritten .clrfindis 1 <|
  goto (.init .I22) <| fieldWritten .pllpwd Config.encNormal <|
  goto (.init .I21) <| fieldWritten .pllpwd Config.encPowerdown <|
  goto (.init .I20) <| fieldWritten .oscdiscdis 1 s

/-- The state after I25 to I28. -/
def pllSelected (s : State) : State :=
  goto (.init .I29) <| sfrRead .ccucon0 <|
  goto (.init .I28) <| fieldsWritten .ccucon0 [(.clksel, Config.encPll), (.up0, 1)] <|
  goto (.init .I27) <| fieldWritten .vcobyp 0 <|
  goto (.init .I26) <| setSeq .pllLocked <| sfrRead .pllstat s

/-- The state after I14 to I24, the wait of no tick. -/
def pllWaited (s : State) : State := waitPassed s.cfg.initWait (.init .I25) <| pllStarted <| pllProgrammed s

/-- The state after I11 to I28. -/
def pllRunning (s : State) : State := pllSelected <| pllWaited <| oscJudged <| oscSeen s

theorem onlyTouches_oscSeen (hnone : s.between = none) : OnlyTouches [] [] s (oscSeen s) :=
  .goto <| .setOscok <| .setPollcnt <| .sfrRead <| .refl hnone

theorem onlyTouches_pllProgrammed (hnone : s.between = none) :
    OnlyTouches [] [.k2div, .pdiv, .ndiv] s (pllProgrammed s) :=
  .goto <| .field (by decide) <| .goto <| .field (by decide) <| .goto <| .field (by decide) <| .goto <| .sfrRead <|
    .goto <| .acquire <| .refl hnone

theorem onlyTouches_pllStarted (hnone : s.between = none) :
    OnlyTouches [] [.oscdiscdis, .pllpwd, .clrfindis, .resld] s (pllStarted s) :=
  .goto <| .setSeq <| .field (by decide) <| .goto <| .field (by decide) <| .goto <| .field (by decide) <| .goto <|
    .field (by decide) <| .goto <| .field (by decide) <| .refl hnone

theorem onlyTouches_pllWaited (hnone : s.between = none) :
    OnlyTouches [] [.k2div, .pdiv, .ndiv, .oscdiscdis, .pllpwd, .clrfindis, .resld] s (pllWaited s) :=
  have hprog := onlyTouches_pllProgrammed hnone
  (hprog.trans (onlyTouches_pllStarted hprog.between)).waitPassed

theorem onlyTouches_pllSelected (hnone : s.between = none) :
    OnlyTouches [] [.vcobyp, .clksel, .up0] s (pllSelected s) :=
  .goto <| .sfrRead <| .goto <| .fields (by decide) <| .goto <| .field (by decide) <| .goto <| .setSeq <| .sfrRead <|
    .refl hnone

theorem onlyTouches_oscAccepted (hnone : s.between = none) : OnlyTouches [] [] s (oscJudged (oscSeen s)) :=
  have hseen := onlyTouches_oscSeen hnone
  hseen.trans (onlyTouches_oscJudged hseen.between)

theorem onlyTouches_pllRunning (hnone : s.between = none) :
    OnlyTouches [] [.k2div, .pdiv, .ndiv, .oscdiscdis, .pllpwd, .clrfindis, .resld, .vcobyp, .clksel, .up0] s
      (pllRunning s) :=
  have hosc := onlyTouches_oscAccepted hnone
  have hwait := onlyTouches_pllWaited hosc.between
  (hosc.trans hwait).trans (onlyTouches_pllSelected hwait.between)

/-! ### The µsteps -/

theorem runCommand_oscSeen (hu : s.ustep = .init .I11) (hosc : OscStable s) :
    runCommand 1 .init s = .next (oscSeen s) :=
  runCommand_of_exec ((exec_init hu).trans (boundedPoll_of_ok hosc)) rfl

theorem runCommand_pllProgrammed (hu : s.ustep = .init .I14) (hready : fieldValue s .k2rdy = 1) :
    runCommand 5 .init s = .next (pllProgrammed s) :=
  runCommand_of_exec (exec_init hu) <|
  runCommand_of_exec ((exec_init (l := .I15) rfl).trans (pollUntil_leaves _ _ _ _ (by simpa using hready))) <|
  runCommand_of_exec ((exec_init (l := .I16) rfl).trans (writeFieldTo_eq_next _ _ _ rfl (by simp))) <|
  runCommand_of_exec ((exec_init (l := .I17) rfl).trans (writeFieldTo_eq_next _ _ _ rfl (by simp))) <|
  runCommand_of_exec ((exec_init (l := .I18) rfl).trans (writeFieldTo_eq_next _ _ _ rfl (by simp))) rfl

theorem runCommand_pllStarted (hu : s.ustep = .init .I19) (hheld : s.heldSafety = true) :
    runCommand 5 .init s = .next (pllStarted s) :=
  runCommand_of_exec ((exec_init hu).trans (writeFieldTo_eq_next _ _ _ rfl hheld)) <|
  runCommand_of_exec ((exec_init (l := .I20) rfl).trans (writeFieldTo_eq_next _ _ _ rfl (by simp [hheld]))) <|
  runCommand_of_exec ((exec_init (l := .I21) rfl).trans (writeFieldTo_eq_next _ _ _ rfl (by simp [hheld]))) <|
  runCommand_of_exec ((exec_init (l := .I22) rfl).trans (writeFieldTo_eq_next _ _ _ rfl (by simp [hheld]))) <|
  runCommand_of_exec (exec_init_I23 rfl (by simp [hheld])) rfl

theorem runCommand_pllWaited (hnone : s.between = none) (hu : s.ustep = .init .I14) (hready : fieldValue s .k2rdy = 1)
    (hwait : NoWait s s.cfg.initWait) : runCommand 12 .init s = .next (pllWaited s) := by
  have hprog := onlyTouches_pllProgrammed hnone
  have hstart := hprog.trans (onlyTouches_pllStarted hprog.between)
  have hstarted := runCommand_pllStarted (s := pllProgrammed s) rfl (by simp [pllProgrammed])
  have hwaiting : runCommand 2 .init (pllStarted (pllProgrammed s)) = .next (pllWaited s) := by
    refine runCommand_wait _ _ (fun v hv hcfg _ _ => ?_) nofun (noWait_congr hwait hstart.timerFreq)
    rw [exec_init (l := .I24) hv, initStep, hcfg, hstart.cfg]
  exact runCommand_trans (runCommand_pllProgrammed hu hready) (runCommand_trans hstarted hwaiting)

theorem runCommand_pllSelected (hnone : s.between = none) (hu : s.ustep = .init .I25) (hheld : s.heldSafety = true)
    (hlock : fieldValue s .vcolock = 1) (hready : fieldValue s .lck0 = 0) :
    runCommand 4 .init s = .next (pllSelected s) := by
  have hwritten : OnlyTouches [] [.vcobyp, .clksel, .up0] s
      (goto (.init .I28) <| fieldsWritten .ccucon0 [(.clksel, Config.encPll), (.up0, 1)] <|
        goto (.init .I27) <| fieldWritten .vcobyp 0 <| goto (.init .I26) <| setSeq .pllLocked <| sfrRead .pllstat s) :=
    .goto <| .fields (by decide) <| .goto <| .field (by decide) <| .goto <| .setSeq <| .sfrRead <| .refl hnone
  have hpoll := (hwritten.fieldValue_eq (g := .lck0) (by decide) (by decide)).trans hready
  exact runCommand_of_exec ((exec_init hu).trans (pollUntil_leaves _ _ (fun v => goto _ (setSeq _ v)) _ hlock)) <|
    runCommand_of_exec ((exec_init (l := .I26) rfl).trans (writeFieldTo_eq_next _ _ _ rfl (by simp [hheld]))) <|
    runCommand_of_exec ((exec_init (l := .I27) rfl).trans (writeFieldsTo_eq_next _ _ rfl (by simp [hheld]))) <|
    runCommand_of_exec ((exec_init (l := .I28) rfl).trans (pollUntil_leaves _ _ _ _ hpoll)) rfl

/-- I11 to I28, every awaited value shown. -/
theorem runCommand_pllRunning (hnone : s.between = none) (hu : s.ustep = .init .I11) (hosc : OscStable s)
    (hpll : PllReady s) (hdist : DistributionIdle s) (hwait : NoWait s s.cfg.initWait) :
    runCommand 19 .init s = .next (pllRunning s) := by
  obtain ⟨hready, hlock⟩ := hpll
  have haccept := onlyTouches_oscAccepted hnone
  have hall := haccept.trans (onlyTouches_pllWaited haccept.between)
  have hjudged := runCommand_oscJudged (s := oscSeen s) rfl
  have hwaited := runCommand_pllWaited (s := oscJudged (oscSeen s)) haccept.between (by simp [oscJudged, oscSeen])
    ((haccept.fieldValue_eq (by decide) (by decide)).trans hready)
    (by rw [haccept.cfg]; exact noWait_congr hwait haccept.timerFreq)
  have hselected := runCommand_pllSelected hall.between rfl (by simp [pllWaited, pllStarted, pllProgrammed])
    ((hall.fieldValue_eq (by decide) (by decide)).trans hlock)
    ((hall.fieldValue_eq (by decide) (by decide)).trans hdist.1)
  exact runCommand_trans (runCommand_oscSeen hu hosc)
    (runCommand_trans hjudged (runCommand_trans hwaited hselected))

/-! ### What they leave to read -/

theorem fieldValue_pllProgrammed_k2div (s : State) : fieldValue (pllProgrammed s) .k2div = ofBits s.cfg.initK2 := by
  have hwritten := fun u => fieldValue_fieldWritten_same (s := u) (f := .k2div) rfl (toNat_ofBits_lt s.cfg.initK2)
  simp [pllProgrammed, fieldValue_fieldWritten_other, hwritten]

theorem fieldValue_pllProgrammed_pdiv (s : State) : fieldValue (pllProgrammed s) .pdiv = ofBits s.cfg.initP := by
  have hwritten := fun u => fieldValue_fieldWritten_same (s := u) (f := .pdiv) rfl (toNat_ofBits_lt s.cfg.initP)
  simp [pllProgrammed, fieldValue_fieldWritten_other, hwritten]

theorem fieldValue_pllProgrammed_ndiv (s : State) : fieldValue (pllProgrammed s) .ndiv = ofBits s.cfg.initN := by
  have hwritten := fun u => fieldValue_fieldWritten_same (s := u) (f := .ndiv) rfl (toNat_ofBits_lt s.cfg.initN)
  simp [pllProgrammed, hwritten]

theorem fieldValue_pllStarted_pllpwd (s : State) : fieldValue (pllStarted s) .pllpwd = Config.encNormal := by
  have hwritten := fun u =>
    fieldValue_fieldWritten_same (s := u) (f := .pllpwd) (v := Config.encNormal) rfl (by decide)
  simp [pllStarted, fieldValue_fieldWritten_other, hwritten]

theorem fieldValue_pllSelected_vcobyp (s : State) : fieldValue (pllSelected s) .vcobyp = 0 := by
  have hcleared (v : State) : fieldValue (fieldWritten .vcobyp 0 v) .vcobyp = 0 :=
    fieldValue_fieldWritten_same rfl (by decide)
  rw [pllSelected, fieldValue_goto, fieldValue_sfrRead, fieldValue_goto,
    fieldValue_fieldsWritten_other (by simp) (by decide) (by decide), fieldValue_goto, hcleared]

/-- The dividers, the power mode and the bypass at the end of I28, as the configuration and R151, R152 and R157 have them. -/
theorem fieldValue_pllRunning (hnone : s.between = none) :
    fieldValue (pllRunning s) .k2div = ofBits s.cfg.initK2 ∧ fieldValue (pllRunning s) .pdiv = ofBits s.cfg.initP ∧
      fieldValue (pllRunning s) .ndiv = ofBits s.cfg.initN ∧
      fieldValue (pllRunning s) .pllpwd = Config.encNormal ∧ fieldValue (pllRunning s) .vcobyp = 0 := by
  have hosc := onlyTouches_oscAccepted hnone
  have hprog := onlyTouches_pllProgrammed hosc.between
  have hstart := (onlyTouches_pllStarted hprog.between).waitPassed (q := (oscJudged (oscSeen s)).cfg.initWait)
    (l := .init .I25)
  have hselect := onlyTouches_pllSelected hstart.between
  have hrest := hstart.trans hselect
  refine ⟨(hrest.fieldValue_eq (by decide) (by decide)).trans ?_, (hrest.fieldValue_eq (by decide) (by decide)).trans ?_,
    (hrest.fieldValue_eq (by decide) (by decide)).trans ?_, (hselect.fieldValue_eq (by decide) (by decide)).trans ?_,
    fieldValue_pllSelected_vcobyp _⟩
  · rw [fieldValue_pllProgrammed_k2div, hosc.cfg]
  · rw [fieldValue_pllProgrammed_pdiv, hosc.cfg]
  · rw [fieldValue_pllProgrammed_ndiv, hosc.cfg]
  · rw [fieldValue_waitPassed, fieldValue_pllStarted_pllpwd]

@[simp] theorem waitPassed_savedTrap (q : Q) (l : UStep) (s : State) : (waitPassed q l s).savedTrap = s.savedTrap := by
  rw [waitPassed_frame]

@[simp] theorem waitPassed_oscok (q : Q) (l : UStep) (s : State) : (waitPassed q l s).oscok = s.oscok := by
  rw [waitPassed_frame]

/-- The working registers INIT still needs after the oscillator check, and the lock of CPU. -/
structure WorkKept (s t : State) : Prop where
  savedTrap : t.savedTrap = s.savedTrap
  oscok     : t.oscok = s.oscok
  heldCpu   : t.heldCpu = s.heldCpu

theorem WorkKept.trans (h : WorkKept s t) (h' : WorkKept t u) : WorkKept s u :=
  ⟨h'.savedTrap.trans h.savedTrap, h'.oscok.trans h.oscok, h'.heldCpu.trans h.heldCpu⟩

theorem workKept_oscJudged (s : State) : WorkKept s (oscJudged s) := by
  constructor <;> simp [oscJudged]

theorem workKept_pllProgrammed (s : State) : WorkKept s (pllProgrammed s) := by
  constructor <;> simp [pllProgrammed]

theorem workKept_pllStarted (s : State) : WorkKept s (pllStarted s) := by
  constructor <;> simp [pllStarted]

theorem workKept_pllWaited (s : State) : WorkKept s (pllWaited s) :=
  have hstart := (workKept_pllProgrammed s).trans (workKept_pllStarted _)
  ⟨(waitPassed_savedTrap _ _ _).trans hstart.savedTrap, (waitPassed_oscok _ _ _).trans hstart.oscok,
    (waitPassed_heldCpu _ _ _).trans hstart.heldCpu⟩

theorem workKept_pllSelected (s : State) : WorkKept s (pllSelected s) := by
  constructor <;> simp [pllSelected]

theorem workKept_pllRunning (s : State) : WorkKept (oscSeen s) (pllRunning s) :=
  ((workKept_oscJudged _).trans (workKept_pllWaited _)).trans (workKept_pllSelected _)


theorem pllSelected_heldSafety (s : State) : (pllSelected s).heldSafety = s.heldSafety := by
  simp [pllSelected]

theorem pllWaited_heldSafety (s : State) : (pllWaited s).heldSafety = true := by
  simp [pllWaited, pllStarted, pllProgrammed]

theorem pllRunning_heldSafety (s : State) : (pllRunning s).heldSafety = true := by
  rw [pllRunning, pllSelected_heldSafety, pllWaited_heldSafety]

/-! ### The acquisitions, one rule for each operation that records -/

section Acquisitions

variable (d d' : Domain) (r : Reg)

theorem acquisitions_acquire (s : State) :
    acquisitions d (acquire d' s).port = acquisitions d s.port + if d' = d then 1 else 0 := by
  by_cases h : d' = d <;> simp [acquisitions, h]

theorem acquisitions_release (s : State) : acquisitions d (release d' s).port = acquisitions d s.port := by
  simp [acquisitions]

theorem acquisitions_sfrRead (s : State) : acquisitions d (sfrRead r s).port = acquisitions d s.port := rfl

theorem acquisitions_sfrStore (w : Word) (s : State) : acquisitions d (sfrStore r w s).port = acquisitions d s.port := rfl

theorem acquisitions_fieldsWritten (l : List (Field × Word)) (s : State) :
    acquisitions d (fieldsWritten r l s).port = acquisitions d s.port := rfl

theorem acquisitions_pairMerged (p : Pair) (forced : List (Field × Word)) (s : State) :
    acquisitions d (pairMerged r p forced s).port = acquisitions d s.port := rfl

theorem acquisitions_waitPassed (q : Q) (l : UStep) (s : State) :
    acquisitions d (waitPassed q l s).port = acquisitions d s.port := by
  simp [acquisitions]

end Acquisitions

theorem acquisitions_pllRunning (d : Domain) (s : State) :
    acquisitions d (pllRunning s).port = acquisitions d s.port + if .safety = d then 1 else 0 := by
  simp only [pllRunning, pllSelected, pllWaited, pllStarted, pllProgrammed, oscJudged, oscSeen, goto_port, setSeq_port,
    setOscok_port, setPollcnt_port, acquisitions_acquire, acquisitions_release, acquisitions_sfrRead,
    acquisitions_fieldsWritten, acquisitions_waitPassed]

end Sys2Proof.Machine
end
section
/-! The clock distribution and the flash wait states (41_sequencer_init R160 to R174), and INIT as a whole. -/

namespace Sys2Proof.Machine

variable {s t u : State}

/-! ## The four merges of the distribution -/

/-- The state after a merge at one label and the lock-busy poll at the next. -/
def mergePass (r : Reg) (p : Pair) (forced : List (Field × Word)) (l l' : InitStep) (s : State) : State :=
  goto (.init l') <| sfrRead r <| goto (.init l) <| pairMerged r p forced s

theorem onlyTouches_mergePass {r : Reg} (p : Pair) (forced : List (Field × Word)) (l l' : InitStep)
    (hnone : s.between = none) : OnlyTouches [r] [] s (mergePass r p forced l l' s) :=
  .goto <| .sfrRead <| .goto <| .merge List.mem_cons_self <| .refl hnone

/-- The µsteps of such a pass; the lock-busy flag is rh, so the merge leaves it. -/
theorem runCommand_mergePass {f : Field} {p : Pair} {forced : List (Field × Word)} {l l' : InitStep}
    (hmerge : exec .init s = mergeWriteTo (fieldReg f) p forced (.init l) s)
    (hpoll : ∀ v, initStep l v = pollUntil f 0 (goto (.init l')) v) (hclass : fieldClass f = .rh)
    (hdomain : regDomain (fieldReg f) = some .safety) (hnone : s.between = none) (hheld : s.heldSafety = true)
    (hready : fieldValue s f = 0) : runCommand 2 .init s = .next (mergePass (fieldReg f) p forced l l' s) := by
  have hmerged : OnlyTouches [fieldReg f] [] s (goto (.init l) (pairMerged (fieldReg f) p forced s)) :=
    .goto <| .merge List.mem_cons_self <| .refl hnone
  have hflag := (hmerged.fieldValue_eq (g := f) (by simp) (by simp [hclass])).trans hready
  exact runCommand_of_exec (hmerge.trans (mergeWriteTo_eq_next p forced _ hdomain hheld)) <|
    runCommand_of_exec ((exec_init (l := l) rfl).trans ((hpoll _).trans (pollUntil_leaves _ _ _ _ hflag))) rfl

/-- The state after I29 and I30. -/
def ccucon0Merged (s : State) : State :=
  mergePass .ccucon0 s.cfg.ccucon0 [(.clksel, Config.encPll), (.up0, 1)] .I30 .I31 s

/-- The state after I31 and I32. -/
def ccucon1Merged (s : State) : State :=
  mergePass .ccucon1 s.cfg.ccucon1 [(.insel, Config.encOsc), (.up1, 1)] .I32 .I33 s

/-- The state after I33 and I34. -/
def ccucon2Merged (s : State) : State := mergePass .ccucon2 s.cfg.ccucon2 [(.up2, 1)] .I34 .I35 s

/-- The state after I35 and I36. -/
def ccucon5Merged (s : State) : State := mergePass .ccucon5 s.cfg.ccucon5 [(.up5, 1)] .I36 .I37 s

/-- The state after I29 to I36. -/
def clocksMerged (s : State) : State := ccucon5Merged <| ccucon2Merged <| ccucon1Merged <| ccucon0Merged s

theorem mergePass_heldSafety (r : Reg) (p : Pair) (forced : List (Field × Word)) (l l' : InitStep) (s : State) :
    (mergePass r p forced l l' s).heldSafety = s.heldSafety := by
  simp [mergePass, pairMerged]

theorem workKept_mergePass (r : Reg) (p : Pair) (forced : List (Field × Word)) (l l' : InitStep) (s : State) :
    WorkKept s (mergePass r p forced l l' s) := by
  constructor <;> simp [mergePass, pairMerged]

theorem acquisitions_mergePass (d : Domain) (r : Reg) (p : Pair) (forced : List (Field × Word)) (l l' : InitStep)
    (s : State) : acquisitions d (mergePass r p forced l l' s).port = acquisitions d s.port := by
  rw [mergePass, goto_port, acquisitions_sfrRead, goto_port, acquisitions_pairMerged]

theorem onlyTouches_ccucon0Merged (hnone : s.between = none) : OnlyTouches [.ccucon0] [] s (ccucon0Merged s) :=
  onlyTouches_mergePass _ _ _ _ hnone

theorem onlyTouches_ccucon1Merged (hnone : s.between = none) : OnlyTouches [.ccucon1] [] s (ccucon1Merged s) :=
  onlyTouches_mergePass _ _ _ _ hnone

theorem onlyTouches_ccucon2Merged (hnone : s.between = none) : OnlyTouches [.ccucon2] [] s (ccucon2Merged s) :=
  onlyTouches_mergePass _ _ _ _ hnone

theorem onlyTouches_ccucon5Merged (hnone : s.between = none) : OnlyTouches [.ccucon5] [] s (ccucon5Merged s) :=
  onlyTouches_mergePass _ _ _ _ hnone

/-- I29 to I36, the lock-busy flags clear. -/
theorem runCommand_clocksMerged (hnone : s.between = none) (hu : s.ustep = .init .I29) (hheld : s.heldSafety = true)
    (hdist : DistributionIdle s) : runCommand 8 .init s = .next (clocksMerged s) := by
  obtain ⟨hlck0, hlck1, hlck2, hlck5⟩ := hdist
  have h0 := onlyTouches_ccucon0Merged hnone
  have h1 := h0.trans (onlyTouches_ccucon1Merged h0.between)
  have h2 := h1.trans (onlyTouches_ccucon2Merged h1.between)
  have hheld0 : (ccucon0Merged s).heldSafety = true := (mergePass_heldSafety _ _ _ _ _ _).trans hheld
  have hheld1 : (ccucon1Merged (ccucon0Merged s)).heldSafety = true := (mergePass_heldSafety _ _ _ _ _ _).trans hheld0
  have hheld2 : (ccucon2Merged (ccucon1Merged (ccucon0Merged s))).heldSafety = true :=
    (mergePass_heldSafety _ _ _ _ _ _).trans hheld1
  have hrun0 : runCommand 2 .init s = .next (ccucon0Merged s) :=
    runCommand_mergePass (f := .lck0) (exec_init hu) (fun _ => by rw [initStep]) rfl rfl hnone hheld hlck0
  have hrun1 : runCommand 2 .init (ccucon0Merged s) = .next (ccucon1Merged (ccucon0Merged s)) :=
    runCommand_mergePass (f := .lck1) (exec_init (l := .I31) rfl) (fun _ => by rw [initStep]) rfl rfl h0.between hheld0
      ((h0.fieldValue_eq (by decide) (by decide)).trans hlck1)
  have hrun2 : runCommand 2 .init (ccucon1Merged (ccucon0Merged s)) =
      .next (ccucon2Merged (ccucon1Merged (ccucon0Merged s))) :=
    runCommand_mergePass (f := .lck2) (exec_init (l := .I33) rfl) (fun _ => by rw [initStep]) rfl rfl h1.between hheld1
      ((h1.fieldValue_eq (by decide) (by decide)).trans hlck2)
  have hrun5 : runCommand 2 .init (ccucon2Merged (ccucon1Merged (ccucon0Merged s))) = .next (clocksMerged s) :=
    runCommand_mergePass (f := .lck5) (exec_init (l := .I35) rfl) (fun _ => by rw [initStep]) rfl rfl h2.between hheld2
      ((h2.fieldValue_eq (by decide) (by decide)).trans hlck5)
  exact runCommand_trans hrun0 (runCommand_trans hrun1 (runCommand_trans hrun2 hrun5))

/-! ## The CPU dividers and the flash wait states -/

/-- The state after I37 to I40. -/
def dividersOverwritten (s : State) : State :=
  goto (.init .I41) <| setSeq .clockDistributionConfigured <| release .safety <|
  goto (.init .I40) <| sfrStore .ccucon8 s.cfg.ccucon8 <|
  goto (.init .I39) <| sfrStore .ccucon7 s.cfg.ccucon7 <|
  goto (.init .I38) <| sfrStore .ccucon6 s.cfg.ccucon6 s

/-- The state after I41 to I43. -/
def flashMerged (s : State) : State :=
  goto (.init .I44) <| release .cpu <| goto (.init .I43) <| pairMerged .fcon s.cfg.fcon [] <|
  goto (.init .I42) <| acquire .cpu s

theorem sfrWriteTo_eq_next {r : Reg} (w : Word) (l : UStep) (hdomain : regDomain r = some .safety)
    (hheld : s.heldSafety = true) : sfrWriteTo r w l s = .next (goto l (sfrStore r w s)) :=
  sfrWriteTo_of_held r w l s .safety hdomain hheld

theorem runCommand_dividersOverwritten (hu : s.ustep = .init .I37) (hheld : s.heldSafety = true) :
    runCommand 4 .init s = .next (dividersOverwritten s) :=
  runCommand_of_exec ((exec_init hu).trans (sfrWriteTo_eq_next _ _ rfl hheld)) <|
  runCommand_of_exec ((exec_init (l := .I38) rfl).trans (sfrWriteTo_eq_next _ _ rfl hheld)) <|
  runCommand_of_exec ((exec_init (l := .I39) rfl).trans (sfrWriteTo_eq_next _ _ rfl hheld)) <|
  runCommand_of_exec (exec_init (l := .I40) rfl) rfl

theorem runCommand_flashMerged (hu : s.ustep = .init .I41) : runCommand 3 .init s = .next (flashMerged s) :=
  runCommand_of_exec (exec_init hu) <|
  runCommand_of_exec ((exec_init (l := .I42) rfl).trans (mergeWriteTo_eq_next (d := .cpu) _ _ _ rfl rfl)) <|
  runCommand_of_exec (exec_init (l := .I43) rfl) rfl

theorem onlyTouches_dividersOverwritten (hnone : s.between = none) :
    OnlyTouches [.ccucon6, .ccucon7, .ccucon8] [] s (dividersOverwritten s) :=
  .goto <| .setSeq <| .release <| .goto <| .store (by decide) <| .goto <| .store (by decide) <| .goto <|
    .store (by decide) <| .refl hnone

theorem onlyTouches_flashMerged (hnone : s.between = none) : OnlyTouches [.fcon] [] s (flashMerged s) :=
  .goto <| .release <| .goto <| .merge (by decide) <| .goto <| .acquire <| .refl hnone

theorem sfrValue_dividersOverwritten (s : State) :
    sfrValue (dividersOverwritten s) .ccucon6 = s.cfg.ccucon6 ∧
      sfrValue (dividersOverwritten s) .ccucon7 = s.cfg.ccucon7 ∧
      sfrValue (dividersOverwritten s) .ccucon8 = s.cfg.ccucon8 := by
  have h6 := sfrValue_sfrStore_of_all_rw (r := .ccucon6) (by decide) (by decide)
  have h7 := sfrValue_sfrStore_of_all_rw (r := .ccucon7) (by decide) (by decide)
  have h8 := sfrValue_sfrStore_of_all_rw (r := .ccucon8) (by decide) (by decide)
  simp [dividersOverwritten, sfrValue_sfrStore_other, h6, h7, h8]

theorem sfrValue_flashMerged (s : State) : sfrValue (flashMerged s) .fcon = merge (sfrValue s .fcon) s.cfg.fcon := by
  simp only [flashMerged, sfrValue_goto, sfrValue_release, pairMerged, setFields_nil, sfrValue_acquire]
  exact sfrValue_sfrStore_of_all_rw (by decide) (by decide) _ _

theorem workKept_dividersOverwritten (s : State) : WorkKept s (dividersOverwritten s) := by
  constructor <;> simp [dividersOverwritten]

theorem flashMerged_frame (s : State) :
    (flashMerged s).savedTrap = s.savedTrap ∧ (flashMerged s).oscok = s.oscok ∧ (flashMerged s).heldCpu = false := by
  simp [flashMerged, pairMerged]

theorem acquisitions_dividersOverwritten (d : Domain) (s : State) :
    acquisitions d (dividersOverwritten s).port = acquisitions d s.port := by
  simp only [dividersOverwritten, goto_port, setSeq_port, acquisitions_release, acquisitions_sfrStore]

theorem acquisitions_flashMerged (d : Domain) (s : State) :
    acquisitions d (flashMerged s).port = acquisitions d s.port + if .cpu = d then 1 else 0 := by
  simp only [flashMerged, goto_port, acquisitions_acquire, acquisitions_release, acquisitions_pairMerged]

end Sys2Proof.Machine
end

section
/-! INIT as a whole, with a stable oscillator and no ramp step (41_sequencer_init R130, R131, R189, R190). -/

namespace Sys2Proof.Machine

variable {s t u : State}

/-! ## From the distribution to the end -/

/-- The end of INIT from I44 with no ramp step. -/
def rampSkipped (s : State) : State := initCleaned <| goto (.init .I52) <| setLoopi 0 s

/-- The state after I29 to the end, with no ramp step. -/
def steadied (s : State) : State := rampSkipped <| flashMerged <| dividersOverwritten <| clocksMerged s

theorem runCommand_rampSkipped (hu : s.ustep = .init .I44) (hsteps : s.cfg.nsteps = 0) :
    runCommand 6 .init s = .next (rampSkipped s) := by
  have hskip : initRampStart s = goto (.init .I52) (setLoopi 0 s) := by rw [initRampStart, if_pos hsteps]
  refine runCommand_of_exec (exec_init hu) ?_
  rw [hskip]
  exact runCommand_initCleaned rfl

theorem onlyTouches_rampSkipped (hnone : s.between = none) : OnlyTouches [] [.oscdiscdis, .ulten] s (rampSkipped s) :=
  have hskip : OnlyTouches [] [] s (goto (.init .I52) (setLoopi 0 s)) := .goto <| .setLoopi <| .refl hnone
  hskip.trans (onlyTouches_initCleaned hskip.between)

theorem onlyTouches_clocksMerged (hnone : s.between = none) :
    OnlyTouches [.ccucon0, .ccucon1, .ccucon2, .ccucon5] [] s (clocksMerged s) :=
  have h0 := onlyTouches_ccucon0Merged hnone
  have h1 := h0.trans (onlyTouches_ccucon1Merged h0.between)
  have h2 := h1.trans (onlyTouches_ccucon2Merged h1.between)
  h2.trans (onlyTouches_ccucon5Merged h2.between)

/-- What is still written after the merges of the distribution. -/
theorem onlyTouches_afterClocks (hnone : s.between = none) :
    OnlyTouches [.ccucon6, .ccucon7, .ccucon8, .fcon] [.oscdiscdis, .ulten] s
      (rampSkipped (flashMerged (dividersOverwritten s))) :=
  have hdiv := onlyTouches_dividersOverwritten hnone
  have hflash := onlyTouches_flashMerged hdiv.between
  (hdiv.trans hflash).trans (onlyTouches_rampSkipped hflash.between)

theorem onlyTouches_steadied (hnone : s.between = none) :
    OnlyTouches [.ccucon0, .ccucon1, .ccucon2, .ccucon5, .ccucon6, .ccucon7, .ccucon8, .fcon] [.oscdiscdis, .ulten] s
      (steadied s) :=
  have hclocks := onlyTouches_clocksMerged hnone
  hclocks.trans (onlyTouches_afterClocks hclocks.between)

theorem clocksMerged_heldSafety (s : State) : (clocksMerged s).heldSafety = s.heldSafety := by
  simp only [clocksMerged, ccucon0Merged, ccucon1Merged, ccucon2Merged, ccucon5Merged, mergePass_heldSafety]

/-- I29 to the end, the lock-busy flags clear. -/
theorem runCommand_steadied (hnone : s.between = none) (hu : s.ustep = .init .I29) (hheld : s.heldSafety = true)
    (hdist : DistributionIdle s) (hsteps : s.cfg.nsteps = 0) : runCommand 21 .init s = .next (steadied s) := by
  have hclocks := onlyTouches_clocksMerged hnone
  have hdiv := hclocks.trans (onlyTouches_dividersOverwritten hclocks.between)
  have hflash := hdiv.trans (onlyTouches_flashMerged hdiv.between)
  have hrunDiv := runCommand_dividersOverwritten (s := clocksMerged s) rfl ((clocksMerged_heldSafety s).trans hheld)
  have hrunFlash := runCommand_flashMerged (s := dividersOverwritten (clocksMerged s)) rfl
  have hrunEnd := runCommand_rampSkipped (s := flashMerged (dividersOverwritten (clocksMerged s))) rfl
    (by rw [hflash.cfg, hsteps])
  exact runCommand_trans (runCommand_clocksMerged hnone hu hheld hdist)
    (runCommand_trans hrunDiv (runCommand_trans hrunFlash hrunEnd))

/-- How INIT ends: the verdict gives the result, both locks are free. -/
theorem rampSkipped_frame (hok : s.oscok = true) :
    (rampSkipped s).busy = false ∧ (rampSkipped s).ustep = .idle ∧ (rampSkipped s).fail = false ∧
      (rampSkipped s).err = 0 ∧ (rampSkipped s).seq = .steadyState ∧ (rampSkipped s).heldCpu = s.heldCpu ∧
      (rampSkipped s).heldSafety = false := by
  have hskip : (goto (.init .I52) (setLoopi 0 s)).oscok = true := hok
  simpa only [rampSkipped, hskip, Bool.not_true, if_true, goto_heldCpu, setLoopi_heldCpu] using
    initCleaned_frame (goto (.init .I52) (setLoopi 0 s))

theorem workKept_clocksMerged (s : State) : WorkKept s (clocksMerged s) :=
  (((workKept_mergePass _ _ _ _ _ s).trans (workKept_mergePass _ _ _ _ _ _)).trans
    (workKept_mergePass _ _ _ _ _ _)).trans (workKept_mergePass _ _ _ _ _ _)

theorem acquisitions_steadied (d : Domain) (s : State) :
    acquisitions d (steadied s).port =
      acquisitions d s.port + (if .cpu = d then 1 else 0) + if .safety = d then 1 else 0 := by
  have hend (v : State) : acquisitions d (rampSkipped v).port = acquisitions d v.port + if .safety = d then 1 else 0 := by
    simp only [rampSkipped, initCleaned, initResult_eq, trapRestored, oscDiscReset, goto_port, setLoopi_port,
      acquisitions_release, acquisitions_fieldsWritten, acquisitions_acquire]
  rw [steadied, hend, acquisitions_flashMerged, acquisitions_dividersOverwritten]
  simp only [clocksMerged, ccucon0Merged, ccucon1Merged, ccucon2Merged, ccucon5Merged, acquisitions_mergePass]

/-! ## The registers at the end -/

/-- The fields written before the distribution is merged. -/
abbrev fieldsBeforeClocks : List Field :=
  [.ulten, .clksel, .up0, .setfindis, .insel, .up1] ++
    [.k2div, .pdiv, .ndiv, .oscdiscdis, .pllpwd, .clrfindis, .resld, .vcobyp, .clksel, .up0]

/-- The state after I1 to I28. -/
def beforeClocks (s : State) : State := pllRunning (initPrepared s)

theorem onlyTouches_beforeClocks (hnone : s.between = none) : OnlyTouches [] fieldsBeforeClocks s (beforeClocks s) :=
  have hprep := onlyTouches_initPrepared hnone
  hprep.trans (onlyTouches_pllRunning hprep.between)

/-- A merge and its poll between writes of the merge's own forced fields and writes elsewhere. -/
theorem OnlyTouches.getLsbD_of_mergePass {r : Reg} {p : Pair} {forced : List (Field × Word)} {l l' : InitStep}
    {rs rs' : List Reg} {fs fs' : List Field} (h : OnlyTouches rs fs s t)
    (h' : OnlyTouches rs' fs' (mergePass r p forced l l' t) u) (hregs : r ∉ rs ∧ r ∉ rs')
    (hfields : ∀ f ∈ fs ++ fs', fieldReg f = r → f ∈ forced.map Prod.fst) {i : Nat} (hi : i < Config.regWidth)
    (hrw : (rwMask r).getLsbD i = true) (hout : ∀ q ∈ forced, ¬ InField q.1 i) :
    (sfrValue u r).getLsbD i = (Machine.merge (sfrValue s r) p).getLsbD i := by
  have hmerged : OnlyTouches [r] [] t (pairMerged r p forced t) :=
    .merge List.mem_cons_self <| .refl h.between
  have hpoll : OnlyTouches [] [] (pairMerged r p forced t) (mergePass r p forced l l' t) :=
    .goto <| .sfrRead <| .goto <| .refl hmerged.between
  exact h.getLsbD_of_merged (hpoll.trans h') hregs hfields hi hrw hout

/-- Each register of the distribution at the end: the caller's merge over the register's word at the start, but for the selection. -/
theorem getLsbD_steadied_beforeClocks (hnone : s.between = none) (r : Reg) (p : Pair) (f : Option Field)
    (hrow : (r, p, f) ∈ ([
      (.ccucon0, s.cfg.ccucon0, some .clksel), (.ccucon1, s.cfg.ccucon1, some .insel),
      (.ccucon2, s.cfg.ccucon2, none), (.ccucon5, s.cfg.ccucon5, none)] : List (Reg × Pair × Option Field)))
    (i : Nat) (hi : i < Config.regWidth) (hrw : (rwMask r).getLsbD i = true) (hout : ∀ g, f = some g → ¬ InField g i) :
    (sfrValue (steadied (beforeClocks s)) r).getLsbD i = (merge (sfrValue s r) p).getLsbD i := by
  have hbefore := onlyTouches_beforeClocks hnone
  have t0 := onlyTouches_ccucon0Merged hbefore.between
  have t1 := onlyTouches_ccucon1Merged t0.between
  have t2 := onlyTouches_ccucon2Merged t1.between
  have t5 := onlyTouches_ccucon5Merged t2.between
  have hafter := onlyTouches_afterClocks t5.between
  simp only [List.mem_cons, Prod.mk.injEq, List.not_mem_nil, or_false] at hrow
  obtain ⟨rfl, rfl, rfl⟩ | ⟨rfl, rfl, rfl⟩ | ⟨rfl, rfl, rfl⟩ | ⟨rfl, rfl, rfl⟩ := hrow
  · have hup := not_inField_of_rw (f := .up0) (by decide) hrw
    rw [← hbefore.cfg]
    exact hbefore.getLsbD_of_mergePass (t1.trans (t2.trans (t5.trans hafter))) (by decide) (by decide) hi hrw
      (List.forall_mem_cons.mpr ⟨hout _ rfl, List.forall_mem_singleton.mpr hup⟩)
  · have hup := not_inField_of_rw (f := .up1) (by decide) hrw
    rw [← (hbefore.trans t0).cfg]
    exact (hbefore.trans t0).getLsbD_of_mergePass (t2.trans (t5.trans hafter)) (by decide) (by decide) hi hrw
      (List.forall_mem_cons.mpr ⟨hout _ rfl, List.forall_mem_singleton.mpr hup⟩)
  · have hup := not_inField_of_rw (f := .up2) (by decide) hrw
    rw [← (hbefore.trans (t0.trans t1)).cfg]
    exact (hbefore.trans (t0.trans t1)).getLsbD_of_mergePass (t5.trans hafter) (by decide) (by decide) hi hrw
      (List.forall_mem_singleton.mpr hup)
  · have hup := not_inField_of_rw (f := .up5) (by decide) hrw
    rw [← (hbefore.trans (t0.trans (t1.trans t2))).cfg]
    exact (hbefore.trans (t0.trans (t1.trans t2))).getLsbD_of_mergePass hafter (by decide) (by decide) hi hrw
      (List.forall_mem_singleton.mpr hup)

/-- The selections at the end are the merges' forced fields. -/
theorem fieldValue_steadied_selections (hnone : s.between = none) :
    fieldValue (steadied s) .clksel = Config.encPll ∧ fieldValue (steadied s) .insel = Config.encOsc := by
  have t0 := onlyTouches_ccucon0Merged hnone
  have t1 := onlyTouches_ccucon1Merged t0.between
  have t2 := onlyTouches_ccucon2Merged t1.between
  have t5 := onlyTouches_ccucon5Merged t2.between
  have hafter := t2.trans (t5.trans (onlyTouches_afterClocks t5.between))
  have hclksel : fieldValue (ccucon0Merged s) .clksel = Config.encPll :=
    fieldValue_pairMerged_head (by decide) rfl (by decide) (by decide)
  have hinsel : fieldValue (ccucon1Merged (ccucon0Merged s)) .insel = Config.encOsc :=
    fieldValue_pairMerged_head (by decide) rfl (by decide) (by decide)
  exact ⟨((t1.trans hafter).fieldValue_eq (by decide) (by decide)).trans hclksel,
    (hafter.fieldValue_eq (by decide) (by decide)).trans hinsel⟩

/-- The overwritten dividers and the merged wait states at the end. -/
theorem sfrValue_steadied (hnone : s.between = none) :
    sfrValue (steadied s) .ccucon6 = s.cfg.ccucon6 ∧ sfrValue (steadied s) .ccucon7 = s.cfg.ccucon7 ∧
      sfrValue (steadied s) .ccucon8 = s.cfg.ccucon8 ∧
      sfrValue (steadied s) .fcon = merge (sfrValue s .fcon) s.cfg.fcon := by
  have hclocks := onlyTouches_clocksMerged hnone
  have hdiv := onlyTouches_dividersOverwritten hclocks.between
  have hflash := onlyTouches_flashMerged hdiv.between
  have hend := onlyTouches_rampSkipped hflash.between
  have hbefore := hclocks.trans hdiv
  have hafter := hflash.trans hend
  obtain ⟨h6, h7, h8⟩ := sfrValue_dividersOverwritten (clocksMerged s)
  rw [hclocks.cfg] at h6 h7 h8
  refine ⟨(hafter.sfrValue_eq (by decide) (by decide)).trans h6, (hafter.sfrValue_eq (by decide) (by decide)).trans h7,
    (hafter.sfrValue_eq (by decide) (by decide)).trans h8, (hend.sfrValue_eq (by decide) (by decide)).trans ?_⟩
  rw [sfrValue_flashMerged, hbefore.cfg, hbefore.sfrValue_eq (by decide) (by decide)]

/-- What the clean-up finds of the verdict, the saved trap enable and the lock of CPU. -/
theorem flashMerged_of_initPrepared (s : State) :
    let t := flashMerged (dividersOverwritten (clocksMerged (beforeClocks s)))
    t.savedTrap = decide (fieldValue s .ulten = 1) ∧ t.oscok = true ∧ t.heldCpu = false := by
  have hkept := ((workKept_pllRunning (initPrepared s)).trans (workKept_clocksMerged _)).trans
    (workKept_dividersOverwritten _)
  obtain ⟨hsaved, hok, hcpu⟩ := flashMerged_frame (dividersOverwritten (clocksMerged (beforeClocks s)))
  have hseen : (oscSeen (initPrepared s)).savedTrap = (initPrepared s).savedTrap := by simp [oscSeen]
  exact ⟨hsaved.trans (hkept.savedTrap.trans (hseen.trans (initPrepared_savedTrap s))),
    hok.trans (hkept.oscok.trans rfl), hcpu⟩

theorem fieldValue_rampSkipped_ulten (s : State) : fieldValue (rampSkipped s) .ulten = ofFlag s.savedTrap :=
  fieldValue_initCleaned_ulten _

theorem fieldValue_rampSkipped_oscdiscdis (hnone : s.between = none) : fieldValue (rampSkipped s) .oscdiscdis = 0 :=
  fieldValue_initCleaned_oscdiscdis hnone

/-! ## INIT as a whole -/

/-- Writes of fields that are no lock-busy flags leave the flags clear. -/
theorem OnlyTouches.distributionIdle {fs : List Field} (h : OnlyTouches [] fs s t) (hdist : DistributionIdle s)
    (hfs : ∀ g ∈ [Field.lck0, .lck1, .lck2, .lck5], g ∉ fs) : DistributionIdle t := by
  have hkept : ∀ g ∈ [Field.lck0, .lck1, .lck2, .lck5], fieldValue t g = fieldValue s g := fun g hg =>
    h.fieldValue_eq (hfs g hg) (by simp)
  rw [DistributionIdle, hkept _ (by decide), hkept _ (by decide), hkept _ (by decide), hkept _ (by decide)]
  exact hdist

/-- All of INIT, every awaited value shown, no wait and no ramp step. -/
theorem runCommand_steadied_beforeClocks (hidle : s.ustep = .idle) (hnone : s.between = none) (hsteps : s.cfg.nsteps = 0)
    (hwait : NoWait s s.cfg.initWait) (hdist : DistributionIdle s) (hpll : PllReady s) (hosc : OscStable s) :
    runCommand 50 .init s = .next (steadied (beforeClocks s)) := by
  have hprep := onlyTouches_initPrepared hnone
  have hbefore := onlyTouches_beforeClocks hnone
  have hosc' : OscStable (initPrepared s) := by
    rwa [OscStable, hprep.sfrValue_eq (by decide) (by decide)]
  have hpll' : PllReady (initPrepared s) :=
    ⟨(hprep.fieldValue_eq (by decide) (by decide)).trans hpll.1, (hprep.fieldValue_eq (by decide) (by decide)).trans hpll.2⟩
  have hwait' : NoWait (initPrepared s) (initPrepared s).cfg.initWait := by
    rw [hprep.cfg]
    exact noWait_congr hwait hprep.timerFreq
  have hlock := runCommand_pllRunning hprep.between rfl hosc' hpll' (hprep.distributionIdle hdist (by decide)) hwait'
  have hend := runCommand_steadied hbefore.between rfl (pllRunning_heldSafety _) (hbefore.distributionIdle hdist (by decide))
    (by rw [hbefore.cfg, hsteps])
  exact runCommand_trans (runCommand_initPrepared hnone hidle hdist) (runCommand_trans hlock hend)

/-- Settles O41: the run is `runCommand_steadied_beforeClocks`; each register is what its last write left. -/
theorem initReachesSteadyState : Obligations.InitReachesSteadyState := by
  intro s hidle hfree hnone hsteps hwait hdist hpll hosc
  have hprep := onlyTouches_initPrepared hnone
  have hbefore := onlyTouches_beforeClocks hnone
  have hafter := onlyTouches_steadied hbefore.between
  have hall := hbefore.trans hafter
  obtain ⟨hsaved, hok, hcpu⟩ := flashMerged_of_initPrepared s
  obtain ⟨hbusy, hustep, hfail, herr, hseq, hcpu', hsafety⟩ := rampSkipped_frame hok
  obtain ⟨hclksel, hinsel⟩ := fieldValue_steadied_selections hbefore.between
  obtain ⟨hk2, hp, hn, hpwd, hbyp⟩ := fieldValue_pllRunning hprep.between
  obtain ⟨h6, h7, h8, hfcon⟩ := sfrValue_steadied hbefore.between
  rw [hprep.cfg] at hk2 hp hn
  rw [hbefore.cfg] at h6 h7 h8 hfcon
  refine ⟨steadied (beforeClocks s), runCommand_steadied_beforeClocks hidle hnone hsteps hwait hdist hpll hosc, hbusy,
    hustep, hfail, herr, hseq, ⟨hcpu'.trans hcpu, hsafety⟩, hclksel, hinsel,
    (hafter.fieldValue_eq (by decide) (by decide)).trans hp, (hafter.fieldValue_eq (by decide) (by decide)).trans hn,
    (hafter.fieldValue_eq (by decide) (by decide)).trans hk2, (hafter.fieldValue_eq (by decide) (by decide)).trans hbyp,
    (hafter.fieldValue_eq (by decide) (by decide)).trans hpwd, ?_, ?_, h6, h7, h8, ?_,
    getLsbD_steadied_beforeClocks hnone, ?_, ?_, hall.cfg, hall.ecfg, hall.cmd, hall.res⟩
  · have hclocks := onlyTouches_clocksMerged hbefore.between
    have hdiv := onlyTouches_dividersOverwritten hclocks.between
    exact fieldValue_rampSkipped_oscdiscdis (onlyTouches_flashMerged hdiv.between).between
  · rw [steadied, fieldValue_rampSkipped_ulten, hsaved, ofFlag_fieldValue s rfl]
  · rw [hfcon, hbefore.sfrValue_eq (by decide) (by decide)]
  · rw [acquisitions_steadied, beforeClocks, acquisitions_pllRunning, (recorded_initPrepared s).safety]
    rfl
  · rw [acquisitions_steadied, beforeClocks, acquisitions_pllRunning, (recorded_initPrepared s).cpu]
    rfl

end Sys2Proof.Machine
end
